-- ==== Sys2Proof/Word.lean ====
section
/-! DEFINITION. The words of the PIC16C8X and the one shape in which its memories are held. -/

namespace Sys2Proof

/-- A data value: an unsigned 8-bit number (R9). -/
abbrev Byte := BitVec 8

/-- A resolved 8-bit data address: bit 7 is the bank, bits 6 to 0 the offset (R62). -/
abbrev DataAddr := BitVec 8

/-- A 13-bit program address (R12). -/
abbrev ProgAddr := BitVec 13

/-- A 14-bit instruction word (R90). -/
abbrev InstrWord := BitVec 14

/-- A memory of `width`-bit cells by address, in one canonical form: addresses strictly rising, no
cell listed whose content is 0, which is what an unlisted address reads as (logs 2, 3, 4, 5).
`Memory 8` is `List Host.Cell`. -/
abbrev Memory (width : Nat) := List (Nat × BitVec width)

end Sys2Proof
end

