-- ==== Sys2Proof/Syntax.lean ====
section
/-! DEFINITION. The instruction set as syntax: one constructor per row of spec/opcode_table.json. -/

namespace Sys2Proof

/-- The destination designator d (R91): 0 stores the result in W, 1 in file register f. -/
inductive Dest
  | w | f
deriving DecidableEq, Repr

/-- The instructions (R96). Every operand is an unsigned number (R95) whose range is checked by
`Instr.WellFormed`; the three legal TRIS words are three rows (R100). Don't-care bits are no operands (R98). -/
inductive Instr
  | addwf (f : Nat) (d : Dest)
  | andwf (f : Nat) (d : Dest)
  | clrf (f : Nat)
  | clrw
  | comf (f : Nat) (d : Dest)
  | decf (f : Nat) (d : Dest)
  | decfsz (f : Nat) (d : Dest)
  | incf (f : Nat) (d : Dest)
  | incfsz (f : Nat) (d : Dest)
  | iorwf (f : Nat) (d : Dest)
  | movf (f : Nat) (d : Dest)
  | movwf (f : Nat)
  | nop
  | rlf (f : Nat) (d : Dest)
  | rrf (f : Nat) (d : Dest)
  | subwf (f : Nat) (d : Dest)
  | swapf (f : Nat) (d : Dest)
  | xorwf (f : Nat) (d : Dest)
  | bcf (f : Nat) (b : Nat)
  | bsf (f : Nat) (b : Nat)
  | btfsc (f : Nat) (b : Nat)
  | btfss (f : Nat) (b : Nat)
  | addlw (k : Nat)
  | andlw (k : Nat)
  | call (k : Nat)
  | clrwdt
  | goto (k : Nat)
  | iorlw (k : Nat)
  | movlw (k : Nat)
  | retfie
  | retlw (k : Nat)
  | return_
  | sleep
  | sublw (k : Nat)
  | xorlw (k : Nat)
  | option
  | tris5
  | tris6
  | tris7
deriving DecidableEq, Repr

end Sys2Proof
end

