-- ==== Sys2Proof/WellFormed.lean ====
section
/-! DEFINITION. The operand ranges of §9.1 as R95 and the operand lines of R113 to R165 give them. -/

namespace Sys2Proof

/-- 0 ≤ f ≤ 127: a 7-bit file address (R95). -/
def fileOk (f : Nat) : Bool := f ≤ 127

/-- 0 ≤ b ≤ 7: a bit number, for BTFSS too (R144, C3). -/
def bitOk (b : Nat) : Bool := b ≤ 7

/-- 0 ≤ k ≤ 255: a data literal (R95). -/
def literalOk (k : Nat) : Bool := k ≤ 255

/-- 0 ≤ k ≤ 2047: a word address within the page (R95). -/
def targetOk (k : Nat) : Bool := k ≤ 2047

/-- Every operand lies in the range its instruction's operand line gives. -/
def Instr.wellFormed : Instr → Bool
  | .addwf f _ | .andwf f _ | .comf f _ | .decf f _ | .decfsz f _ | .incf f _ | .incfsz f _
  | .iorwf f _ | .movf f _ | .rlf f _ | .rrf f _ | .subwf f _ | .swapf f _ | .xorwf f _ => fileOk f
  | .clrf f | .movwf f => fileOk f
  | .bcf f b | .bsf f b | .btfsc f b | .btfss f b => fileOk f && bitOk b
  | .addlw k | .andlw k | .iorlw k | .movlw k | .retlw k | .sublw k | .xorlw k => literalOk k
  | .call k | .goto k => targetOk k
  | .clrw | .nop | .clrwdt | .retfie | .return_ | .sleep | .option | .tris5 | .tris6 | .tris7 => true

/-- A well-formed instruction: one the assembler syntax of R102 can write. -/
abbrev Instr.WellFormed (i : Instr) : Prop := i.wellFormed = true

end Sys2Proof
end

