-- ==== Sys2Proof/Decode.lean ====
section
/-! DEFINITION. Decoding one 14-bit word by the tree of R97, and the encoder of R96. A word alone
determines the instruction (R90); every word without one is rejected by name (R99). -/

namespace Sys2Proof

/-- Why a word decodes to no instruction. -/
inductive DecodeError
  /-- One of the 372 words the source assigns no instruction (R99). -/
  | unassigned (word : InstrWord)
deriving DecidableEq, Repr

/-- `w[hi:lo]`: the unsigned number formed by bits hi down to lo (R9). -/
def field (w : InstrWord) (hi lo : Nat) : Nat := w.toNat / 2 ^ lo % 2 ^ (hi + 1 - lo)

/-- The d bit, bit 7 (R91). -/
def fieldD (w : InstrWord) : Dest := if field w 7 7 = 0 then .w else .f

/-- The f field, bits 6 to 0 (R95). -/
def fieldF (w : InstrWord) : Nat := field w 6 0

/-- The b field, bits 9 to 7 (R95). -/
def fieldB (w : InstrWord) : Nat := field w 9 7

/-- The 8-bit literal, bits 7 to 0 (R95). -/
def fieldK8 (w : InstrWord) : Nat := field w 7 0

/-- The 11-bit literal, bits 10 to 0 (R95). -/
def fieldK11 (w : InstrWord) : Nat := field w 10 0

/-- The control words 0000h to 007Fh (R97): exact words, so that the TRIS pattern covers nothing but
its three legal words (R100), and four NOPs (R98). -/
def decodeControl (w : InstrWord) : Except DecodeError Instr :=
  match field w 6 0 with
  | 0x00 | 0x20 | 0x40 | 0x60 => .ok .nop
  | 0x08 => .ok .return_
  | 0x09 => .ok .retfie
  | 0x62 => .ok .option
  | 0x63 => .ok .sleep
  | 0x64 => .ok .clrwdt
  | 0x65 => .ok .tris5
  | 0x66 => .ok .tris6
  | 0x67 => .ok .tris7
  | _ => .error (.unassigned w)

/-- Words with bits 13:12 = 00 (R97). -/
def decodeByte (w : InstrWord) : Except DecodeError Instr :=
  let f := fieldF w
  let d := fieldD w
  match field w 11 8 with
  | 0x0 => if field w 7 7 = 1 then .ok (.movwf f) else decodeControl w
  | 0x1 => if field w 7 7 = 1 then .ok (.clrf f) else .ok .clrw
  | 0x2 => .ok (.subwf f d)
  | 0x3 => .ok (.decf f d)
  | 0x4 => .ok (.iorwf f d)
  | 0x5 => .ok (.andwf f d)
  | 0x6 => .ok (.xorwf f d)
  | 0x7 => .ok (.addwf f d)
  | 0x8 => .ok (.movf f d)
  | 0x9 => .ok (.comf f d)
  | 0xA => .ok (.incf f d)
  | 0xB => .ok (.decfsz f d)
  | 0xC => .ok (.rrf f d)
  | 0xD => .ok (.rlf f d)
  | 0xE => .ok (.swapf f d)
  | 0xF => .ok (.incfsz f d)
  | _ => .error (.unassigned w)

/-- Words with bits 13:12 = 01 (R97). -/
def decodeBit (w : InstrWord) : Except DecodeError Instr :=
  let f := fieldF w
  let b := fieldB w
  match field w 11 10 with
  | 0 => .ok (.bcf f b)
  | 1 => .ok (.bsf f b)
  | 2 => .ok (.btfsc f b)
  | 3 => .ok (.btfss f b)
  | _ => .error (.unassigned w)

/-- Words with bits 13:12 = 11 (R97); 11 1011 is unassigned (R99). -/
def decodeLiteral (w : InstrWord) : Except DecodeError Instr :=
  let k := fieldK8 w
  match field w 11 8 with
  | 0x0 | 0x1 | 0x2 | 0x3 => .ok (.movlw k)
  | 0x4 | 0x5 | 0x6 | 0x7 => .ok (.retlw k)
  | 0x8 => .ok (.iorlw k)
  | 0x9 => .ok (.andlw k)
  | 0xA => .ok (.xorlw k)
  | 0xC | 0xD => .ok (.sublw k)
  | 0xE | 0xF => .ok (.addlw k)
  | _ => .error (.unassigned w)

/-- The decode tree of R97. -/
def decode (w : InstrWord) : Except DecodeError Instr :=
  match field w 13 12 with
  | 0 => decodeByte w
  | 1 => decodeBit w
  | 2 => if field w 11 11 = 0 then .ok (.call (fieldK11 w)) else .ok (.goto (fieldK11 w))
  | 3 => decodeLiteral w
  | _ => .error (.unassigned w)

/-- The d bit as the encoder writes it (R91). -/
def destBit : Dest → Nat
  | .w => 0
  | .f => 1

/-- The byte-oriented layout: opcode in bits 13-8, d in bit 7, f in bits 6-0 (R91). -/
def byteWord (opcode : Nat) (f : Nat) (d : Dest) : InstrWord :=
  BitVec.ofNat 14 (opcode * 256 + destBit d * 128 + f % 128)

/-- The bit-oriented layout: opcode in bits 13-10, b in bits 9-7, f in bits 6-0 (R92). -/
def bitWord (opcode : Nat) (f b : Nat) : InstrWord :=
  BitVec.ofNat 14 (opcode * 1024 + b % 8 * 128 + f % 128)

/-- The literal layout: opcode in bits 13-8, k in bits 7-0 (R93). -/
def literalWord (opcode : Nat) (k : Nat) : InstrWord := BitVec.ofNat 14 (opcode * 256 + k % 256)

/-- The CALL and GOTO layout: opcode in bits 13-11, k in bits 10-0 (R94). -/
def targetWord (opcode : Nat) (k : Nat) : InstrWord := BitVec.ofNat 14 (opcode * 2048 + k % 2048)

/-- The word of an instruction (R96), its don't-care bits 0 as the assembler writes them (R98). -/
def encode : Instr → InstrWord
  | .addwf f d => byteWord 0b000111 f d
  | .andwf f d => byteWord 0b000101 f d
  | .clrf f => byteWord 0b000001 f .f
  | .clrw => 0x0100
  | .comf f d => byteWord 0b001001 f d
  | .decf f d => byteWord 0b000011 f d
  | .decfsz f d => byteWord 0b001011 f d
  | .incf f d => byteWord 0b001010 f d
  | .incfsz f d => byteWord 0b001111 f d
  | .iorwf f d => byteWord 0b000100 f d
  | .movf f d => byteWord 0b001000 f d
  | .movwf f => byteWord 0b000000 f .f
  | .nop => 0x0000
  | .rlf f d => byteWord 0b001101 f d
  | .rrf f d => byteWord 0b001100 f d
  | .subwf f d => byteWord 0b000010 f d
  | .swapf f d => byteWord 0b001110 f d
  | .xorwf f d => byteWord 0b000110 f d
  | .bcf f b => bitWord 0b0100 f b
  | .bsf f b => bitWord 0b0101 f b
  | .btfsc f b => bitWord 0b0110 f b
  | .btfss f b => bitWord 0b0111 f b
  | .addlw k => literalWord 0b111110 k
  | .andlw k => literalWord 0b111001 k
  | .call k => targetWord 0b100 k
  | .clrwdt => 0x0064
  | .goto k => targetWord 0b101 k
  | .iorlw k => literalWord 0b111000 k
  | .movlw k => literalWord 0b110000 k
  | .retfie => 0x0009
  | .retlw k => literalWord 0b110100 k
  | .return_ => 0x0008
  | .sleep => 0x0063
  | .sublw k => literalWord 0b111100 k
  | .xorlw k => literalWord 0b111010 k
  | .option => 0x0062
  | .tris5 => 0x0065
  | .tris6 => 0x0066
  | .tris7 => 0x0067

/-- What the decoder reads from an instruction whose bits are `w`. Every instruction is one word of 14
bits (R90), so the count of bits adds nothing; a number with a bit above bit 13 is no instruction word. -/
def decodeTableWord (_nbits w : Nat) : Option Instr :=
  if w < 2 ^ 14 then (decode (BitVec.ofNat 14 w)).toOption else none

end Sys2Proof
end

