-- ==== Sys2Proof/Config.lean ====
section
/-! DEFINITION. What a device and its launch fix (R7), and the one free value of the instruction set. -/

namespace Sys2Proof

/-- The five devices of the family (R1, R2). -/
inductive Device
  | pic16c83 | pic16cr83 | pic16c84 | pic16c84a | pic16cr84
deriving DecidableEq, Repr

/-- `PROG_WORDS`: physically implemented program words (R2, R7, R61). -/
def Device.progWords : Device → Nat
  | .pic16c83 | .pic16cr83 => 512
  | .pic16c84 | .pic16c84a | .pic16cr84 => 1024

/-- `GPR_BYTES`: general purpose RAM bytes (R2, R7). -/
def Device.gprBytes : Device → Nat
  | .pic16c83 | .pic16cr83 | .pic16c84 => 36
  | .pic16c84a | .pic16cr84 => 68

/-- `GPR_LAST` = 0Bh + `GPR_BYTES` (R7, R11). -/
def Device.gprLast (dev : Device) : Nat := 0x0B + dev.gprBytes

/-- `TMR0_MODEL` (R7, R195): Timer0 as a free environment agent, or by the counting rules R196 to R199. -/
inductive Tmr0Model
  | free | exact
deriving DecidableEq, Repr

/-- `UNASSIGNED_OPCODE` (R7, R99): what the 372 words without an instruction do. -/
inductive UnassignedOpcode
  | refuse | nop
deriving DecidableEq, Repr

/-- The parameters of R7. They are fixed for a machine: no step changes them (R8). -/
structure Config where
  /-- Fixes `PROG_WORDS` and `GPR_BYTES`. -/
  device : Device
  /-- `PCL_READ_OFFSET` is 1 when true, 0 when false (R20). -/
  pclReadsNext : Bool
  /-- `WDT_ENABLED` (R202). -/
  wdtEnabled : Bool
  /-- `WDT_MIN_CYCLES`, absent when `none` (R201). -/
  wdtMinCycles : Option Nat
  /-- `TMR0_MODEL` (R195). -/
  tmr0Model : Tmr0Model
  /-- `UNASSIGNED_OPCODE` (R99). -/
  unassigned : UnassignedOpcode
deriving DecidableEq, Repr

/-- The defaults of R7, on the PIC16C84 (DESIGN CHOICE, log 9: R7 gives no default device). -/
def Config.default : Config where
  device := .pic16c84
  pclReadsNext := true
  wdtEnabled := false
  wdtMinCycles := none
  tmr0Model := .free
  unassigned := .refuse

/-- The byte an EEPROM read loads while a write is in flight is any value (U11, R209): the n-th such
draw of a run. It has no body, so nothing can be proved of it (log 15). -/
opaque Config.freeByte : Nat → Byte

end Sys2Proof
end

