-- ==== Sys2Proof/Machine/State.lean ====
section
/-! DEFINITION. The state of the PIC16C8X as plain data, the environment's moves, the reasons a step
stops, and the state after power-on reset. -/

namespace Sys2Proof.Machine

/-- A fault: the machine stops because an access goes outside the address space the spec gives. The
hardware itself raises no synchronous exception (R180). -/
inductive Fault
  /-- Raised by an instruction that writes EECON1 and so starts an EEPROM read or write with EEADR
  above 3Fh: the array ends at 3Fh and U13 (R209, R210) has the model stop. Safe: the model stops where
  the hardware goes on in an unknown way (log 14). -/
  | eepromAddress (eeadr : Byte)
deriving DecidableEq, Repr

/-- A refusal: the spec gives the step no meaning. -/
inductive Refusal
  /-- Raised by `exec` for an instruction that has no meaning in this model. Safe: nothing is claimed of
  it. No arm of this model raises it. -/
  | notModelled (mnemonic : String)
  /-- Raised by `step` on one of the 372 words without an instruction when `UNASSIGNED_OPCODE` is
  `refuse`; it names the word and its address (R99, D5). Safe. -/
  | unassignedWord (word : InstrWord) (address : ProgAddr)
  /-- Raised by an instruction whose one write to EECON1 sets both RD and WR: the result is not
  specified (R208, U12). Safe (log 13). -/
  | eepromReadAndWrite (written : Byte)
deriving DecidableEq, Repr

/-- Position of the EECON2 unlock sequence, `u` of R210: nothing seen, 55h seen, 55h then AAh seen. -/
inductive Unlock
  | locked | got55 | gotAA
deriving DecidableEq, Repr

/-- An EEPROM write in flight: the address and byte latched at its start (R210, D14). -/
structure EeWrite where
  addr : BitVec 6
  data : Byte
deriving DecidableEq, Repr

/-- Timer0's increment inhibit after a write of TMR0 (R197, `exact` model): `written` during the writing
instruction itself, then two instruction cycles, then one, then none left. -/
inductive TmrHold
  | none | one | two | written
deriving DecidableEq, Repr

/-- The values a reset other than power-on leaves open: the stack pointer (D8) and the byte of an
EEPROM write cut short (U9, R239). -/
structure ResetDraw where
  sp : BitVec 3
  eeByte : Byte
deriving DecidableEq, Repr

/-- The values a power-on reset leaves unknown, drawn once at the reset (R46, D6). -/
structure PowerOnDraw where
  w : Byte
  tmr0 : Byte
  fsr : Byte
  latchA : BitVec 5
  latchB : Byte
  eedata : Byte
  eeadr : Byte
  /-- Z, DC, C. -/
  flags : BitVec 3
  rbif : Bool
  wrerr : Bool
  /-- The GPR bytes from 0Ch up; what the list leaves out is 00h. -/
  gpr : List Byte
  /-- The stack words from entry 0 up; what the list leaves out is 0000h. -/
  stack : List ProgAddr
  sp : BitVec 3
  lastRB : BitVec 4
  prevRB0 : Bool
  prevT0cki : Bool
  /-- The byte left by a write in flight when the power failed (log 16). -/
  eeByte : Byte
deriving DecidableEq, Repr

/-- What an agent beside the CPU does between two instructions without taking the step over (R8, R181). -/
inductive EnvEvent
  /-- The environment changes the levels it supplies to RA4 to RA0 and RB7 to RB0, and which PORTB pins
  it leaves undriven (R214, R219). -/
  | pins (a : BitVec 5) (b : Byte) (undriven : Byte)
  /-- With `TMR0_MODEL` = `free`, Timer0 moves on by any amount, its prescaler to any count (R195). -/
  | timer0 (amount : Nat) (prescaler : Byte)
  /-- The write engine completes the write in flight (R211). -/
  | eepromDone
  /-- The watchdog's own oscillator moves the WDT counter and its prescaler (R200, log 25). -/
  | wdtClock (counter : Byte) (prescaler : Byte)
deriving DecidableEq, Repr

/-- What takes a step over: a reset, or a watchdog time-out (R181, R230). -/
inductive Takeover
  | powerOn (d : PowerOnDraw)
  | mclr (d : ResetDraw)
  /-- A reset in normal operation, a wake-up while asleep (R202). -/
  | wdtTimeout (d : ResetDraw)
deriving DecidableEq, Repr

/-- All that the environment does at one instruction boundary (R181, U15, log 8). -/
structure Boundary where
  events : List EnvEvent
  takeover : Option Takeover
deriving DecidableEq, Repr

/-- The machine. Addresses of `ram` are bank-0 file addresses 0Ch to `GPR_LAST`. -/
structure State where
  /-- The parameters of R7. -/
  cfg : Config
  /-- Program memory by word address (R45, R61). -/
  prog : Memory 14
  /-- The working register (R10). -/
  w : Byte
  /-- The program counter (R12); during an instruction, its own address (R9). -/
  pc : ProgAddr
  /-- PCLATH (R13). -/
  pclath : BitVec 5
  /-- The return stack (R17), entries 0 to 7. -/
  stack : Memory 13
  /-- The stack pointer (R17). -/
  sp : BitVec 3
  /-- IRP RP1 RP0 TO PD Z DC C (R21). -/
  status : Byte
  /-- FSR (R29). -/
  fsr : Byte
  /-- TMR0 (R27). -/
  tmr0 : Byte
  /-- RBPU INTEDG T0CS T0SE PSA PS2 PS1 PS0 (R37). -/
  option : Byte
  /-- GIE EEIE T0IE INTE RBIE T0IF INTF RBIF (R36). -/
  intcon : Byte
  /-- The PORTA data latch (R30). -/
  latchA : BitVec 5
  /-- The PORTB data latch (R31). -/
  latchB : Byte
  /-- TRISA (R38). -/
  trisa : BitVec 5
  /-- TRISB (R39). -/
  trisb : Byte
  /-- EEDATA (R33). -/
  eedata : Byte
  /-- EEADR (R34). -/
  eeadr : Byte
  /-- EEIF WRERR WREN WR RD (R40). -/
  eecon1 : BitVec 5
  /-- The general purpose registers (R11). -/
  ram : Memory 8
  /-- The data EEPROM array (R44). -/
  eeprom : Memory 8
  /-- The 8-bit prescaler counter (R43). -/
  prescaler : Byte
  /-- The WDT counter (R43); its width, which R43 does not state, is taken as 8 bits (DESIGN CHOICE, log
  33). -/
  wdt : Byte
  /-- SLEEP mode (R43, R190). -/
  asleep : Bool
  /-- The interrupt test is skipped once, after a wake-up (R183, R191). -/
  holdOff : Bool
  /-- The EEPROM write in flight (R43, R210). -/
  inFlight : Option EeWrite
  /-- The EECON2 unlock position (R43, R210). -/
  unlock : Unlock
  /-- PORTB<7:4> as last read (R43, R219). -/
  lastRB : BitVec 4
  /-- The RB0/INT level last sampled (R43, R218). -/
  prevRB0 : Bool
  /-- The RA4/T0CKI level last sampled (R199), asleep too (log 34). -/
  prevT0cki : Bool
  /-- Timer0's increment inhibit (R197). -/
  tmr0Hold : TmrHold
  /-- The levels the environment supplies to RA4 to RA0 (R214). -/
  envA : BitVec 5
  /-- The levels the environment supplies to RB7 to RB0 (R214). -/
  envB : Byte
  /-- The PORTB pins the environment leaves undriven, 1 = undriven (R219). -/
  undrivenB : Byte
  /-- MODEL: the environment's moves still to come, one entry a boundary; the pins hold their levels and
  nothing happens once it is empty (log 8). -/
  inputs : List Boundary
  /-- MODEL: how many free values have been drawn (log 15). -/
  draws : Nat
  /-- MODEL: instruction cycles executed (R261). -/
  cycles : Nat
  /-- MODEL: instruction cycles since the WDT was last cleared (R201, log 25). -/
  wdtAge : Nat
deriving DecidableEq, Repr

/-- The machine right after a power-on reset (R231, R232, R234, R236), every x bit of R46 at 0 (log 1,
2, 5, 6), nothing programmed (log 3, 4), the pins low and no input queued (log 7). -/
def State.reset : State where
  cfg := Config.default
  prog := []
  w := 0x00
  pc := 0x0000
  pclath := 0b00000
  stack := []
  sp := 0
  status := 0b00011000
  fsr := 0x00
  tmr0 := 0x00
  option := 0xFF
  intcon := 0x00
  latchA := 0b00000
  latchB := 0x00
  trisa := 0b11111
  trisb := 0xFF
  eedata := 0x00
  eeadr := 0x00
  eecon1 := 0b00000
  ram := []
  eeprom := []
  prescaler := 0x00
  wdt := 0x00
  asleep := false
  holdOff := false
  inFlight := none
  unlock := .locked
  lastRB := 0b0000
  prevRB0 := false
  prevT0cki := false
  tmr0Hold := .none
  envA := 0b00000
  envB := 0x00
  undrivenB := 0x00
  inputs := []
  draws := 0
  cycles := 0
  wdtAge := 0

/-- The outcome of a meaning or a step of this machine. -/
abbrev Result := Host.Outcome State Fault Refusal

end Sys2Proof.Machine
end

