-- ==== Sys2Proof/Machine/Flags.lean ====
section
/-! DEFINITION. The results and flags of the arithmetic and logic operations (R110 to R112, R133) and how
they reach STATUS (R23). -/

namespace Sys2Proof.Machine

/-- `v` with bit `i` at `b`. -/
def putBit {n : Nat} (v : BitVec n) (i : Nat) (b : Bool) : BitVec n :=
  if b then v ||| (1#n <<< i) else v &&& ~~~(1#n <<< i)

/-- The new values of the flags an instruction's "Status Affected" line names (R24); `none` leaves a
flag as it is (R112). -/
structure FlagUpdate where
  z : Option Bool := none
  dc : Option Bool := none
  c : Option Bool := none
deriving DecidableEq, Repr

/-- The set A of R23 is empty. -/
def FlagUpdate.affectsNone (u : FlagUpdate) : Bool := u.z.isNone && u.dc.isNone && u.c.isNone

/-- One flag bit of STATUS set as the update says. -/
def putFlag (status : Byte) (i : Nat) : Option Bool → Byte
  | none => status
  | some b => putBit status i b

/-- STATUS after the flag logic: Z is bit 2, DC bit 1, C bit 0 (R22). -/
def FlagUpdate.onStatus (u : FlagUpdate) (status : Byte) : Byte :=
  putFlag (putFlag (putFlag status 2 u.z) 1 u.dc) 0 u.c

/-- The write of `v` to STATUS itself (R23): bits 7-5 take it, TO and PD never do, and Z, DC, C take it
only where the instruction affects no flag. -/
def statusWrite (old v : Byte) (affectsNone : Bool) : Byte :=
  if affectsNone then (v &&& 0xE7) ||| (old &&& 0x18) else (v &&& 0xE0) ||| (old &&& 0x1F)

/-- An 8-bit result with its flags. -/
structure AluResult where
  value : Byte
  flags : FlagUpdate
deriving DecidableEq, Repr

/-- Addition (R110). -/
def aluAdd (a b : Byte) : AluResult :=
  let s := a.toNat + b.toNat
  let r := BitVec.ofNat 8 s
  { value := r
    flags :=
      { c := some (decide (s > 255))
        dc := some (decide (a.toNat % 16 + b.toNat % 16 > 15))
        z := some (decide (r = 0)) } }

/-- Subtraction as the addition of the two's complement of `w` (R111). -/
def aluSub (m w : Byte) : AluResult :=
  let s := m.toNat + (255 - w.toNat) + 1
  let r := BitVec.ofNat 8 s
  { value := r
    flags :=
      { c := some (decide (s > 255))
        dc := some (decide (m.toNat % 16 + (15 - w.toNat % 16) + 1 > 15))
        z := some (decide (r = 0)) } }

/-- A result that affects Z only (R112). -/
def aluZ (r : Byte) : AluResult := { value := r, flags := { z := some (decide (r = 0)) } }

/-- A result that affects no flag. -/
def aluPlain (r : Byte) : AluResult := { value := r, flags := {} }

/-- The 9-bit rotate left of `C : v` (R126). -/
def aluRotateLeft (carry : Bool) (v : Byte) : AluResult :=
  { value := BitVec.ofNat 8 (v.toNat * 2 % 256 + carry.toNat), flags := { c := some (v.getLsbD 7) } }

/-- The 9-bit rotate right of `C : v` (R127). -/
def aluRotateRight (carry : Bool) (v : Byte) : AluResult :=
  { value := BitVec.ofNat 8 (carry.toNat * 128 + v.toNat / 2), flags := { c := some (v.getLsbD 0) } }

/-- The nibble swap (R129). -/
def aluSwap (v : Byte) : AluResult := aluPlain (BitVec.ofNat 8 (v.toNat % 16 * 16 + v.toNat / 16))

end Sys2Proof.Machine
end

