-- ==== Sys2Proof/Machine/Operands.lean ====
section
/-! DEFINITION. The operand forms: the register file map (R63), the resolved address of an f operand
(R64, R65), literals and branch targets (R95). -/

namespace Sys2Proof.Machine

/-- What a resolved data address names (R63). -/
inductive Loc
  | indf | tmr0 | option | pcl | status | fsr | porta | trisa | portb | trisb
  | eedata | eecon1 | eeadr | eecon2 | pclath | intcon
  /-- The GPR whose bank-0 file address is `o`. -/
  | gpr (o : Nat)
  | unimplemented
deriving DecidableEq, Repr

/-- The register file map (R63): `a[7]` is the bank, `a[6:0]` the offset. -/
def locate (dev : Device) (a : DataAddr) : Loc :=
  let bank1 := a.getLsbD 7
  match a.toNat % 128 with
  | 0x00 => .indf
  | 0x01 => if bank1 then .option else .tmr0
  | 0x02 => .pcl
  | 0x03 => .status
  | 0x04 => .fsr
  | 0x05 => if bank1 then .trisa else .porta
  | 0x06 => if bank1 then .trisb else .portb
  | 0x07 => .unimplemented
  | 0x08 => if bank1 then .eecon1 else .eedata
  | 0x09 => if bank1 then .eecon2 else .eeadr
  | 0x0A => .pclath
  | 0x0B => .intcon
  | o => if o ≤ dev.gprLast then .gpr o else .unimplemented

/-- The register or byte a resolved address names on this device. -/
def State.loc (s : State) (a : DataAddr) : Loc := locate s.cfg.device a

/-- RP0, STATUS<5> (R22). -/
def State.rp0 (s : State) : Bool := s.status.getLsbD 5

/-- `ea(f)`: RP0 : f, or FSR when f = 0 (R64, R65). RP1 and IRP play no part. -/
def ea (s : State) (f : Nat) : DataAddr :=
  if f % 128 = 0 then s.fsr else BitVec.ofBool s.rp0 ++ BitVec.ofNat 7 f

/-- An 8-bit literal (R150): an unsigned byte, never sign-extended. -/
def lit8 (k : Nat) : Byte := BitVec.ofNat 8 k

/-- PCLATH<4:3> : k, the target of CALL and GOTO (R16). -/
def pageTarget (s : State) (k : Nat) : ProgAddr := s.pclath.extractLsb' 3 2 ++ BitVec.ofNat 11 k

/-- PCLATH<4:0> : r, the address a write of `r` to PCL loads (R16). -/
def pclTarget (s : State) (r : Byte) : ProgAddr := s.pclath ++ r

/-- Bit number b of a bit-oriented instruction (R140). -/
def bitIndex (b : Nat) : Nat := b % 8

end Sys2Proof.Machine
end

