-- ==== Sys2Proof/Machine/Ops.lean ====
section
/-! DEFINITION. The named operations over memories and registers that every meaning is written with:
memories, the PC and the stack, interrupt entry and return, Timer0, the watchdog, the ports, the data
EEPROM, and the resolved read and write of R66. -/

namespace Sys2Proof

/-- The cell at address `a`; an unlisted address reads 0 (logs 2, 3, 4, 5). -/
def Memory.read {n : Nat} : Memory n → Nat → BitVec n
  | [], _ => 0#n
  | (k, v) :: rest, a => if k = a then v else Memory.read rest a

/-- The memory with `v` at address `a`, in canonical form again: writing 0 removes the cell. -/
def Memory.write {n : Nat} : Memory n → Nat → BitVec n → Memory n
  | [], a, v => if v = 0#n then [] else [(a, v)]
  | (k, x) :: rest, a, v =>
    if a < k then (if v = 0#n then (k, x) :: rest else (a, v) :: (k, x) :: rest)
    else if a = k then (if v = 0#n then rest else (a, v) :: rest)
    else (k, x) :: Memory.write rest a v

/-- The canonical form: addresses strictly rising, no cell holding 0. -/
def Memory.wf {n : Nat} : Memory n → Bool
  | [] => true
  | (k, v) :: rest => decide (v ≠ 0#n) && rest.all (fun cell => decide (k < cell.1)) && Memory.wf rest

/-- Every listed address lies in `lo` to `hi`. -/
def Memory.within {n : Nat} (m : Memory n) (lo hi : Nat) : Bool :=
  m.all fun cell => decide (lo ≤ cell.1) && decide (cell.1 ≤ hi)

/-- The values of a list written from address `a` up. -/
def Memory.fill {n : Nat} : Memory n → Nat → List (BitVec n) → Memory n
  | m, _, [] => m
  | m, a, v :: vs => Memory.fill (Memory.write m a v) (a + 1) vs

namespace Machine

/-- Go on with `k` where `r` answers a next state; stop where it stops. -/
def andThen (r : Result) (k : State → Result) : Result :=
  match r with
  | .next s => k s
  | .fault e => .fault e
  | .refused e => .refused e

/-! ### The named bits -/

/-- C, STATUS<0> (R22). -/
def State.carry (s : State) : Bool := s.status.getLsbD 0

/-- GIE, INTCON<7> (R36). -/
def State.gie (s : State) : Bool := s.intcon.getLsbD 7

/-- T0CS, OPTION<5>: 1 counts T0CKI, 0 the instruction clock (R37). -/
def State.t0cs (s : State) : Bool := s.option.getLsbD 5

/-- T0SE, OPTION<4>: 1 counts falling edges of T0CKI (R37). -/
def State.t0se (s : State) : Bool := s.option.getLsbD 4

/-- PSA, OPTION<3>: 1 assigns the prescaler to the WDT, 0 to Timer0 (R37). -/
def State.psa (s : State) : Bool := s.option.getLsbD 3

/-- PS, OPTION<2:0> (R37). -/
def State.ps (s : State) : Nat := s.option.toNat % 8

/-- INTEDG, OPTION<6>: 1 selects the rising edge of RB0/INT (R37). -/
def State.intedg (s : State) : Bool := s.option.getLsbD 6

/-- PORTB pull-ups are on: RBPU, OPTION<7>, is active low (R37, R219). -/
def State.pullUps (s : State) : Bool := !s.option.getLsbD 7

/-- EEIF, EECON1<4> (R40). -/
def State.eeif (s : State) : Bool := s.eecon1.getLsbD 4

/-- WREN, EECON1<2> (R40). -/
def State.wren (s : State) : Bool := s.eecon1.getLsbD 2

/-- WR, EECON1<1> (R40). -/
def State.wr (s : State) : Bool := s.eecon1.getLsbD 1

/-- `IntPending` (R182). -/
def State.intPending (s : State) : Bool :=
  (s.intcon.getLsbD 5 && s.intcon.getLsbD 2) || (s.intcon.getLsbD 4 && s.intcon.getLsbD 1) ||
  (s.intcon.getLsbD 3 && s.intcon.getLsbD 0) || (s.intcon.getLsbD 6 && s.eeif)

/-! ### Cycles, the program counter and the return stack -/

/-- `n` instruction cycles pass (R261). -/
def spend (n : Nat) (s : State) : State := { s with cycles := s.cycles + n, wdtAge := s.wdtAge + n }

/-- The default advance, one cycle (R14). -/
def advance (s : State) : State := spend 1 { s with pc := s.pc + 1 }

/-- `Skip`, two cycles (R15). -/
def skipNext (s : State) : State := spend 2 { s with pc := s.pc + 2 }

/-- Load the PC, two cycles (R166). -/
def jump (target : ProgAddr) (s : State) : State := spend 2 { s with pc := target }

/-- `Push(v)` (R17). -/
def push (v : ProgAddr) (s : State) : State :=
  { s with stack := Memory.write s.stack s.sp.toNat v, sp := s.sp + 1 }

/-- TOS (R17). -/
def State.tos (s : State) : ProgAddr := Memory.read s.stack (s.sp - 1).toNat

/-- The stack after `Pop()`; the popped entry is not erased (R18). -/
def pop (s : State) : State := { s with sp := s.sp - 1 }

/-- A return: the PC is popped (R160). -/
def returnPop (s : State) : State := jump s.tos (pop s)

/-- Taking an interrupt: push the address that would have executed next, clear GIE, go to 0004h, two
cycles (R184, R185). Nothing else is saved. -/
def interruptEntry (s : State) : State :=
  jump 0x0004 (push s.pc { s with intcon := putBit s.intcon 7 false })

/-- Returning from an interrupt: pop the PC, set GIE (R158, R186). -/
def interruptReturn (s : State) : State := returnPop { s with intcon := putBit s.intcon 7 true }

/-! ### The watchdog and Timer0 -/

/-- Clear the WDT, and the prescaler where it is assigned to the WDT (R154, R203). -/
def clearWdt (s : State) : State :=
  { s with wdt := 0, wdtAge := 0, prescaler := if s.psa then 0 else s.prescaler }

/-- TO and PD, STATUS<4> and STATUS<3>, set by the hardware (R22). -/
def setToPd (timeOut powerDown : Bool) (s : State) : State :=
  { s with status := putBit (putBit s.status 4 timeOut) 3 powerDown }

/-- One increment of TMR0; from FFh to 00h it sets T0IF (R198). -/
def tmr0Increment (s : State) : State :=
  { s with
    tmr0 := s.tmr0 + 1
    intcon := if s.tmr0 = 0xFF then putBit s.intcon 2 true else s.intcon }

/-- One tick of Timer0's count source in the `exact` model (R196): through the prescaler when it is
assigned to Timer0; no increment while inhibited, the prescaler counting on (R197, log 21). -/
def tmr0Tick (s : State) : State :=
  let inhibited := s.tmr0Hold != .none
  if s.psa then
    if inhibited then s else tmr0Increment s
  else
    let count := s.prescaler + 1
    let counted := { s with prescaler := count }
    if count.toNat % 2 ^ (s.ps + 1) = 0 && !inhibited then tmr0Increment counted else counted

/-- The inhibit after one instruction cycle (R197). -/
def TmrHold.next : TmrHold → TmrHold
  | .none | .one => .none
  | .two => .one
  | .written => .two

/-- One instruction cycle of Timer0 in the `exact` model (R196, R197). -/
def tmr0Cycle (s : State) : State :=
  let t := if s.t0cs then s else tmr0Tick s
  { t with tmr0Hold := t.tmr0Hold.next }

/-- `n` instruction cycles of Timer0 (R196). -/
def tmr0Cycles : Nat → State → State
  | 0, s => s
  | n + 1, s => tmr0Cycles n (tmr0Cycle s)

/-- What Timer0 does during what took the machine from `before` to `after`: in the `exact` model one
tick a cycle (R196), but the cycles of an instruction that wrote TMR0 are lost to the write (R197). -/
def timer0After (before after : State) : State :=
  match after.cfg.tmr0Model with
  | .free => after
  | .exact =>
    if after.tmr0Hold = .written then { after with tmr0Hold := .two }
    else tmr0Cycles (after.cycles - before.cycles) after

/-! ### The pins (R214 to R219) -/

/-- The levels of RA4 to RA0 (R216); RA4 is open drain. -/
def pinA (s : State) : BitVec 5 :=
  let driven := ~~~s.trisa &&& ~~~(s.latchA &&& 0b10000)
  (s.latchA &&& driven) ||| (s.envA &&& ~~~driven)

/-- The levels supplied to PORTB pins that are inputs: an undriven one reads 1 under the pull-ups
(R219, log 27). -/
def suppliedB (s : State) : Byte := if s.pullUps then s.envB ||| s.undrivenB else s.envB

/-- The levels of RB7 to RB0 (R216). -/
def pinB (s : State) : Byte := (s.latchB &&& ~~~s.trisb) ||| (suppliedB s &&& s.trisb)

/-! ### The data EEPROM (R208 to R210) -/

/-- `DoRead` (R209): any value while a write is in flight (U11), a fault above 3Fh (U13). -/
def eepromRead (s : State) : Result :=
  if s.eeadr.toNat > 0x3F then .fault (.eepromAddress s.eeadr)
  else
    match s.inFlight with
    | none => .next { s with
        eedata := Memory.read s.eeprom s.eeadr.toNat, eecon1 := putBit s.eecon1 0 false }
    | some _ => .next { s with
        eedata := Config.freeByte s.draws, draws := s.draws + 1, eecon1 := putBit s.eecon1 0 false }

/-- `RequestWrite` (R210): starts the write only after the unlock sequence, with WREN, none in flight. -/
def eepromRequestWrite (s : State) : Result :=
  if s.unlock = .gotAA && s.wren && s.inFlight.isNone then
    if s.eeadr.toNat > 0x3F then .fault (.eepromAddress s.eeadr)
    else .next { s with
      eecon1 := putBit s.eecon1 1 true
      inFlight := some { addr := s.eeadr.setWidth 6, data := s.eedata }
      unlock := .locked }
  else .next { s with unlock := .locked }

/-- EEIF, WRERR and WREN of a value written to EECON1; WR and RD are not cleared by it (R208). -/
def eecon1Bits (old : BitVec 5) (v : Byte) : BitVec 5 :=
  (v.setWidth 5 &&& 0b11100) ||| (old &&& 0b00011)

/-- The write of `v` to EECON1 (R208). A write that sets both RD and WR is refused (U12); a 1 written
over a WR that is already 1 does not set it (log 13). -/
def eecon1Write (v : Byte) (s : State) : Result :=
  if v.getLsbD 0 && v.getLsbD 1 && !s.wr then .refused (.eepromReadAndWrite v)
  else
    andThen
      (if v.getLsbD 1 then eepromRequestWrite { s with eecon1 := eecon1Bits s.eecon1 v }
       else .next { s with eecon1 := eecon1Bits s.eecon1 v })
      fun t => if v.getLsbD 0 then eepromRead t else .next t

/-- The unlock position after `v` is written to EECON2 (R210). -/
def Unlock.afterWrite (u : Unlock) (v : Byte) : Unlock :=
  if v = 0x55 then .got55 else if v = 0xAA && u = .got55 then .gotAA else .locked

/-! ### The resolved read and write (R66) -/

/-- What a read of PCL returns (R20). -/
def pclRead (s : State) : Byte :=
  (if s.cfg.pclReadsNext then s.pc + 1 else s.pc).setWidth 8

/-- `DataRead(a)` (R66): the byte read. -/
def dataRead (s : State) (a : DataAddr) : Byte :=
  match s.loc a with
  | .indf => 0x00
  | .tmr0 => s.tmr0
  | .option => s.option
  | .pcl => pclRead s
  | .status => s.status
  | .fsr => s.fsr
  | .porta => (pinA s).setWidth 8
  | .trisa => s.trisa.setWidth 8
  | .portb => pinB s
  | .trisb => s.trisb
  | .eedata => s.eedata
  | .eecon1 => s.eecon1.setWidth 8
  | .eeadr => s.eeadr
  | .eecon2 => 0x00
  | .pclath => s.pclath.setWidth 8
  | .intcon => s.intcon
  | .gpr o => Memory.read s.ram o
  | .unimplemented => 0x00

/-- The side effect of a read: a read of PORTB latches RB<7:4> for the change comparison (R216, R72). -/
def afterRead (a : DataAddr) (s : State) : State :=
  { s with lastRB := if s.loc a = .portb then (pinB s).extractLsb' 4 4 else s.lastRB }

/-- The write of TMR0 by an instruction (R66, R197). -/
def tmr0Write (v : Byte) (s : State) : State :=
  { s with
    tmr0 := v
    prescaler := if s.psa then s.prescaler else 0
    tmr0Hold := if s.cfg.tmr0Model = .exact then .written else s.tmr0Hold }

/-- `DataWrite(a, v)` (R66). `affectsNone` says that the writing instruction affects no flag, which
decides what a write of STATUS may change (R23). -/
def dataWrite (a : DataAddr) (v : Byte) (affectsNone : Bool) (s : State) : Result :=
  match s.loc a with
  | .indf => .next s
  | .tmr0 => .next (tmr0Write v s)
  | .option => .next { s with option := v }
  | .pcl => .next { s with pc := pclTarget s v }
  | .status => .next { s with status := statusWrite s.status v affectsNone }
  | .fsr => .next { s with fsr := v }
  | .porta => .next { s with latchA := v.setWidth 5 }
  | .trisa => .next { s with trisa := v.setWidth 5 }
  | .portb => .next { s with latchB := v }
  | .trisb => .next { s with trisb := v }
  | .eedata => .next { s with eedata := v }
  | .eecon1 => eecon1Write v s
  | .eeadr => .next { s with eeadr := v }
  | .eecon2 => .next { s with unlock := s.unlock.afterWrite v }
  | .pclath => .next { s with pclath := v.setWidth 5 }
  | .intcon => .next { s with intcon := v }
  | .gpr o => .next { s with ram := Memory.write s.ram o v }
  | .unimplemented => .next s

/-! ### The shared template of the byte- and bit-oriented instructions (R131) -/

/-- The flag logic writes STATUS (R131 step 5). -/
def applyFlags (u : FlagUpdate) (s : State) : State := { s with status := u.onStatus s.status }

/-- `dest <- r`, then the flags, subject to R23 (R131 steps 4 and 5). -/
def store (a : DataAddr) (d : Dest) (r : AluResult) (s : State) : Result :=
  match d with
  | .w => .next (applyFlags r.flags { s with w := r.value })
  | .f => andThen (dataWrite a r.value r.flags.affectsNone s) fun t => .next (applyFlags r.flags t)

/-- The end of a byte- or bit-oriented instruction (R131 step 6): a write of PCL has loaded the PC, in
two cycles, skip or no skip (R132, D17); otherwise skip or advance. -/
def finish (a : DataAddr) (d : Dest) (skip : Bool) (s : State) : State :=
  if d = .f ∧ s.loc a = .pcl then spend 2 s else if skip then skipNext s else advance s

/-- Store at a resolved address and end the instruction. -/
def storeAndFinish (a : DataAddr) (d : Dest) (r : AluResult) (skip : Bool) (s : State) : Result :=
  andThen (store a d r s) fun t => .next (finish a d skip t)

/-- A read-modify-write instruction (R131): resolve, read, compute, store, end. -/
def modify (f : Nat) (d : Dest) (op : Byte → AluResult) (skipIf : Byte → Bool) (s : State) : Result :=
  let a := ea s f
  let r := op (dataRead s a)
  storeAndFinish a d r (skipIf r.value) (afterRead a s)

/-- No result skips. -/
def neverSkip (_ : Byte) : Bool := false

/-- A zero result skips (R119, R121). -/
def skipIfZero (r : Byte) : Bool := decide (r = 0)

/-- An instruction that writes f without reading it (R115, R124, D20). -/
def overwrite (f : Nat) (r : AluResult) (s : State) : Result := storeAndFinish (ea s f) .f r false s

/-- A test of one bit of f (R143, R144). -/
def testBit (f b : Nat) (skipWhen : Bool) (s : State) : Result :=
  let a := ea s f
  let t := afterRead a s
  if (dataRead s a).getLsbD (bitIndex b) = skipWhen then .next (skipNext t) else .next (advance t)

/-- An instruction whose operand and result are in W (R150). -/
def intoW (r : AluResult) (s : State) : Result := .next (advance (applyFlags r.flags { s with w := r.value }))

end Machine

end Sys2Proof
end

