-- ==== Sys2Proof/Machine/BitOriented.lean ====
section
/-! DEFINITION. The four bit-oriented file register operations (R140 to R144). -/

namespace Sys2Proof.Machine

/-- BCF (R141): the whole byte is read and written back. -/
def execBcf (f b : Nat) (s : State) : Result :=
  modify f .f (fun v => aluPlain (putBit v (bitIndex b) false)) neverSkip s

/-- BSF (R142): the whole byte is read and written back. -/
def execBsf (f b : Nat) (s : State) : Result :=
  modify f .f (fun v => aluPlain (putBit v (bitIndex b) true)) neverSkip s

/-- BTFSC (R143). -/
def execBtfsc (f b : Nat) (s : State) : Result := testBit f b false s

/-- BTFSS (R144). -/
def execBtfss (f b : Nat) (s : State) : Result := testBit f b true s

end Sys2Proof.Machine
end

