-- ==== Sys2Proof/Machine/ByteOriented.lean ====
section
/-! DEFINITION. The eighteen byte-oriented file register operations (R113 to R130). -/

namespace Sys2Proof.Machine

/-- ADDWF (R113). -/
def execAddwf (f : Nat) (d : Dest) (s : State) : Result := modify f d (aluAdd s.w) neverSkip s

/-- ANDWF (R114). -/
def execAndwf (f : Nat) (d : Dest) (s : State) : Result := modify f d (fun v => aluZ (s.w &&& v)) neverSkip s

/-- CLRF (R115); f is not read (D20). -/
def execClrf (f : Nat) (s : State) : Result := overwrite f (aluZ 0) s

/-- CLRW (R116). -/
def execClrw (s : State) : Result := intoW (aluZ 0) s

/-- COMF (R117). -/
def execComf (f : Nat) (d : Dest) (s : State) : Result := modify f d (fun v => aluZ (~~~v)) neverSkip s

/-- DECF (R118). -/
def execDecf (f : Nat) (d : Dest) (s : State) : Result := modify f d (fun v => aluZ (v - 1)) neverSkip s

/-- DECFSZ (R119). -/
def execDecfsz (f : Nat) (d : Dest) (s : State) : Result := modify f d (fun v => aluPlain (v - 1)) skipIfZero s

/-- INCF (R120). -/
def execIncf (f : Nat) (d : Dest) (s : State) : Result := modify f d (fun v => aluZ (v + 1)) neverSkip s

/-- INCFSZ (R121). -/
def execIncfsz (f : Nat) (d : Dest) (s : State) : Result := modify f d (fun v => aluPlain (v + 1)) skipIfZero s

/-- IORWF (R122, C5). -/
def execIorwf (f : Nat) (d : Dest) (s : State) : Result := modify f d (fun v => aluZ (s.w ||| v)) neverSkip s

/-- MOVF (R123). -/
def execMovf (f : Nat) (d : Dest) (s : State) : Result := modify f d aluZ neverSkip s

/-- MOVWF (R124); f is not read (D20). -/
def execMovwf (f : Nat) (s : State) : Result := overwrite f (aluPlain s.w) s

/-- NOP (R125). -/
def execNop (s : State) : Result := .next (advance s)

/-- RLF (R126). -/
def execRlf (f : Nat) (d : Dest) (s : State) : Result := modify f d (aluRotateLeft s.carry) neverSkip s

/-- RRF (R127). -/
def execRrf (f : Nat) (d : Dest) (s : State) : Result := modify f d (aluRotateRight s.carry) neverSkip s

/-- SUBWF (R128): f minus W. -/
def execSubwf (f : Nat) (d : Dest) (s : State) : Result := modify f d (fun v => aluSub v s.w) neverSkip s

/-- SWAPF (R129). -/
def execSwapf (f : Nat) (d : Dest) (s : State) : Result := modify f d aluSwap neverSkip s

/-- XORWF (R130). -/
def execXorwf (f : Nat) (d : Dest) (s : State) : Result := modify f d (fun v => aluZ (s.w ^^^ v)) neverSkip s

end Sys2Proof.Machine
end

