-- ==== Sys2Proof/Machine/LiteralControl.lean ====
section
/-! DEFINITION. The thirteen literal and control operations, OPTION and TRIS (R150 to R165). -/

namespace Sys2Proof.Machine

/-- ADDLW (R151). -/
def execAddlw (k : Nat) (s : State) : Result := intoW (aluAdd s.w (lit8 k)) s

/-- ANDLW (R152). -/
def execAndlw (k : Nat) (s : State) : Result := intoW (aluZ (s.w &&& lit8 k)) s

/-- CALL (R153). -/
def execCall (k : Nat) (s : State) : Result := .next (jump (pageTarget s k) (push (s.pc + 1) s))

/-- CLRWDT (R154). -/
def execClrwdt (s : State) : Result := .next (advance (setToPd true true (clearWdt s)))

/-- GOTO (R155). -/
def execGoto (k : Nat) (s : State) : Result := .next (jump (pageTarget s k) s)

/-- IORLW (R156). -/
def execIorlw (k : Nat) (s : State) : Result := intoW (aluZ (s.w ||| lit8 k)) s

/-- MOVLW (R157). -/
def execMovlw (k : Nat) (s : State) : Result := intoW (aluPlain (lit8 k)) s

/-- RETFIE (R158). -/
def execRetfie (s : State) : Result := .next (interruptReturn s)

/-- RETLW (R159). -/
def execRetlw (k : Nat) (s : State) : Result := .next (returnPop { s with w := lit8 k })

/-- RETURN (R160). -/
def execReturn (s : State) : Result := .next (returnPop s)

/-- SLEEP (R161); with the wake-up condition already pending it is a NOP (R191, D25). -/
def execSleep (s : State) : Result :=
  if s.intPending then .next (advance s)
  else .next (advance (setToPd true false (clearWdt { s with asleep := true })))

/-- SUBLW (R162): k minus W. -/
def execSublw (k : Nat) (s : State) : Result := intoW (aluSub (lit8 k) s.w) s

/-- XORLW (R163). -/
def execXorlw (k : Nat) (s : State) : Result := intoW (aluZ (s.w ^^^ lit8 k)) s

/-- OPTION (R164): a write of 81h whatever RP0 is. -/
def execOption (s : State) : Result := andThen (dataWrite 0x81 s.w true s) fun t => .next (advance t)

/-- TRIS 5 (R165): a write of 85h. -/
def execTris5 (s : State) : Result := andThen (dataWrite 0x85 s.w true s) fun t => .next (advance t)

/-- TRIS 6 (R165): a write of 86h. -/
def execTris6 (s : State) : Result := andThen (dataWrite 0x86 s.w true s) fun t => .next (advance t)

/-- TRIS 7 (R165): a write of the unimplemented 87h, the reading that does not refuse (log 12). -/
def execTris7 (s : State) : Result := andThen (dataWrite 0x87 s.w true s) fun t => .next (advance t)

end Sys2Proof.Machine
end

