-- ==== Sys2Proof/Machine/Environment.lean ====
section
/-! DEFINITION. What happens between two instructions without the CPU: pin sampling, the device agents,
the resets and the wake-ups (R8, R181, R190 to R192, R195 to R219, R230 to R240). -/

namespace Sys2Proof.Machine

/-- `v` with bit `i` set where `cond` holds: a flag is set by its event, never cleared by it (R182). -/
def raiseIf (cond : Bool) (i : Nat) (v : Byte) : Byte := if cond then putBit v i true else v

/-- The transition of RB0/INT that INTEDG selects, since the last sampling (R218). -/
def State.intEdge (s : State) : Bool :=
  let now := (pinB s).getLsbD 0
  if s.intedg then !s.prevRB0 && now else s.prevRB0 && !now

/-- Some RB7 to RB4 that is an input differs from the value latched at the last read of PORTB (R219). -/
def State.portChange (s : State) : Bool :=
  decide (((pinB s).extractLsb' 4 4 ^^^ s.lastRB) &&& s.trisb.extractLsb' 4 4 ≠ 0)

/-- The edge of RA4/T0CKI that T0SE selects, since the last sampling (R199). -/
def State.t0ckiEdge (s : State) : Bool :=
  let now := (pinA s).getLsbD 4
  if s.t0se then s.prevT0cki && !now else !s.prevT0cki && now

/-- Sample the pins: INTF, RBIF, and in the `exact` model Timer0 in counter mode (R199, R218, R219,
logs 22, 26). No tick occurs while asleep (R190, R191), and the level is sampled then too, so that an edge
that comes during SLEEP is lost for good (DESIGN CHOICE, log 34: the spec does not say what becomes of it). -/
def samplePins (s : State) : State :=
  let ticks := s.cfg.tmr0Model = .exact && s.t0cs && s.t0ckiEdge && !s.asleep
  let t := { s with
    intcon := raiseIf s.portChange 0 (raiseIf s.intEdge 1 s.intcon)
    prevRB0 := (pinB s).getLsbD 0
    prevT0cki := (pinA s).getLsbD 4 }
  if ticks then tmr0Tick t else t

/-- Timer0 as a free agent (R195); nothing while asleep (R190, R191). -/
def tmr0Free (amount : Nat) (count : Byte) (s : State) : State :=
  if s.cfg.tmr0Model = .free ∧ s.asleep = false then
    { s with
      tmr0 := s.tmr0 + BitVec.ofNat 8 amount
      intcon := raiseIf (decide (s.tmr0.toNat + amount > 255)) 2 s.intcon
      prescaler := if s.psa then s.prescaler else count }
  else s

/-- The write engine completes (R211); without a write in flight nothing happens. -/
def eepromComplete (s : State) : State :=
  match s.inFlight with
  | none => s
  | some e => { s with
      eeprom := Memory.write s.eeprom e.addr.toNat e.data
      eecon1 := putBit (putBit s.eecon1 1 false) 4 true
      inFlight := none }

/-- The watchdog's oscillator moves its counter and, where assigned, the prescaler (log 25). -/
def wdtMove (counter count : Byte) (s : State) : State :=
  if s.cfg.wdtEnabled then
    { s with wdt := counter, prescaler := if s.psa then count else s.prescaler }
  else s

/-- One move of the environment, the pins sampled after it. -/
def applyEvent (s : State) : EnvEvent → State
  | .pins a b undriven => samplePins { s with envA := a, envB := b, undrivenB := undriven }
  | .timer0 amount count => tmr0Free amount count s
  | .eepromDone => eepromComplete s
  | .wdtClock counter count => wdtMove counter count s

/-- A watchdog time-out may occur (R201, R202). -/
def State.wdtMayFire (s : State) : Bool :=
  s.cfg.wdtEnabled &&
    match s.cfg.wdtMinCycles with
    | none => true
    | some n => decide (n ≤ s.wdtAge)

/-- The write in flight abandoned, its byte at `left` (R239, U9). -/
def abandonWrite (left : Byte) (s : State) : State :=
  match s.inFlight with
  | none => s
  | some e => { s with eeprom := Memory.write s.eeprom e.addr.toNat left, inFlight := none }

/-- What every reset does (R231, R236): `kept` are the bits of STATUS<4:0>, `rbif` and `wrerr` those of
INTCON<0> and EECON1<3> that the kind of reset decides. -/
def resetCommon (kept : BitVec 5) (rbif wrerr : Bool) (sp : BitVec 3) (s : State) : State :=
  { s with
    pc := 0x0000
    asleep := false
    holdOff := false
    pclath := 0
    status := kept.setWidth 8
    intcon := putBit 0 0 rbif
    option := 0xFF
    trisa := 0b11111
    trisb := 0xFF
    eecon1 := putBit 0 3 wrerr
    wdt := 0
    wdtAge := 0
    prescaler := 0
    unlock := .locked
    tmr0Hold := .none
    sp := sp }

/-- Power-on reset (R232): the x bits take the values drawn at it (R46). -/
def powerOnReset (d : PowerOnDraw) (s : State) : State :=
  let t := resetCommon (0b11#2 ++ d.flags) d.rbif d.wrerr d.sp (abandonWrite d.eeByte s)
  { t with
    w := d.w
    tmr0 := d.tmr0
    fsr := d.fsr
    latchA := d.latchA
    latchB := d.latchB
    eedata := d.eedata
    eeadr := d.eeadr
    ram := Memory.fill [] 0x0C (d.gpr.take t.cfg.device.gprBytes)
    stack := Memory.fill [] 0 (d.stack.take 8)
    lastRB := d.lastRB
    prevRB0 := d.prevRB0
    prevT0cki := d.prevT0cki }

/-- WRERR after a reset other than power-on (R239). -/
def State.wrerrAtReset (s : State) : Bool := s.wr || s.eecon1.getLsbD 3

/-- MCLR reset, running or asleep (R233, R235): TO and PD are unchanged. -/
def mclrReset (d : ResetDraw) (s : State) : State :=
  resetCommon (s.status.setWidth 5) (s.intcon.getLsbD 0) s.wrerrAtReset d.sp (abandonWrite d.eeByte s)

/-- WDT reset in normal operation (R233, R235): TO is cleared, PD unchanged (D15). -/
def wdtReset (d : ResetDraw) (s : State) : State :=
  resetCommon (putBit (s.status.setWidth 5) 4 false) (s.intcon.getLsbD 0) s.wrerrAtReset d.sp
    (abandonWrite d.eeByte s)

/-- Wake-up through a WDT time-out (R192): not a reset, the PC is already after the SLEEP. -/
def wdtWake (s : State) : State :=
  clearWdt { s with asleep := false, status := putBit s.status 4 false }

/-- A WDT time-out (R202). -/
def wdtTimeout (d : ResetDraw) (s : State) : State := if s.asleep then wdtWake s else wdtReset d s

/-- Wake-up through an interrupt (R191): execution goes on after the SLEEP, the interrupt test skipped
for one instruction. The WDT and its prescaler are not cleared (DESIGN CHOICE, log 35: R203 and R191 list
no clearing here, G16 says 'every reset and wake-up'). -/
def interruptWake (s : State) : State := { s with asleep := false, holdOff := true }

/-- Nothing ends the sleep: one instruction cycle's time passes (R190, U16, logs 20, 25). -/
def sleepOn (s : State) : State := { s with wdtAge := s.wdtAge + 1 }

/-- The interrupt test of R183. -/
def State.intDue (s : State) : Bool := s.gie && s.intPending && !s.holdOff

/-- What the environment does at this boundary, and what takes the step over, if anything. The pins are
sampled first, so that what the last instruction did to them is seen. -/
def atBoundary (s : State) : State × Option Takeover :=
  match s.inputs with
  | [] => (samplePins s, none)
  | b :: rest =>
    let t := b.events.foldl applyEvent (samplePins { s with inputs := rest })
    (t, match b.takeover with
      | some (.wdtTimeout d) => if t.wdtMayFire then some (.wdtTimeout d) else none
      | other => other)

end Sys2Proof.Machine
end

