-- ==== Sys2Proof/Machine/Run.lean ====
section
/-! DEFINITION. One step, put together from the boundary, the fetch, the decoder and the meanings. -/

namespace Sys2Proof.Machine

/-- `ProgRead(a)` (R61): the fetch address wraps at the implemented size. -/
def progRead (s : State) (a : ProgAddr) : InstrWord := Memory.read s.prog (a.toNat % s.cfg.device.progWords)

/-- The word at pc. -/
def fetch (s : State) : InstrWord := progRead s s.pc

/-- A word without an instruction, under `UNASSIGNED_OPCODE` (R99). -/
def runUnassigned (word : InstrWord) (s : State) : Result :=
  match s.cfg.unassigned with
  | .refuse => .refused (.unassignedWord word s.pc)
  | .nop => .next (advance s)

/-- Fetch, decode and execute the instruction at pc, Timer0 counting along (R97, R196). -/
def runInstr (s : State) : Result :=
  andThen
    (match decode (fetch s) with
     | .ok i => exec i s
     | .error (.unassigned word) => runUnassigned word s)
    fun t => .next (timer0After s t)

/-- The CPU's part of a step, at a boundary that no reset takes over: sleep on or wake (R190, R191), take
an interrupt in place of the fetch (R183, R184), or run the instruction at pc. -/
def cpuStep (s : State) : Result :=
  if s.asleep then .next (if s.intPending then interruptWake s else sleepOn s)
  else if s.intDue then .next (timer0After s (interruptEntry s))
  else runInstr { s with holdOff := false }

/-- One step: the environment's moves at this boundary, then a reset or time-out (R188: it wins over an
interrupt), or the CPU's part. -/
def runStep (s : State) : Result :=
  match atBoundary s with
  | (t, some (.powerOn d)) => .next (powerOnReset d t)
  | (t, some (.mclr d)) => .next (mclrReset d t)
  | (t, some (.wdtTimeout d)) => .next (wdtTimeout d t)
  | (t, none) => cpuStep t

/-- A word placed where the next step fetches, and nothing in the way of the fetch: no environment move
queued, not asleep, no interrupt first (log 4). -/
def placeWord (word : InstrWord) (s : State) : State :=
  { s with
    prog := Memory.write s.prog (s.pc.toNat % s.cfg.device.progWords) word
    inputs := []
    asleep := false
    holdOff := s.holdOff || s.gie }

end Sys2Proof.Machine
end

