-- ==== Sys2Proof/Safety.lean ====
section
/-! DEFINITION. What counts as a good state and a safe step, in the terms the claims use. -/

namespace Sys2Proof.Machine

/-- Every memory is in canonical form and lists only addresses the device implements (R60, R61, R63). -/
abbrev State.MemoriesOk (s : State) : Prop :=
  (Memory.wf s.prog = true ∧ Memory.within s.prog 0 (s.cfg.device.progWords - 1) = true) ∧
  (Memory.wf s.ram = true ∧ Memory.within s.ram 0x0C s.cfg.device.gprLast = true) ∧
  (Memory.wf s.eeprom = true ∧ Memory.within s.eeprom 0x00 0x3F = true) ∧
  (Memory.wf s.stack = true ∧ Memory.within s.stack 0 7 = true)

/-- RD always reads 0 (R209) and WR is 1 exactly while a write is in flight (R210, R211). -/
abbrev State.EepromControlOk (s : State) : Prop :=
  s.eecon1.getLsbD 0 = false ∧ s.wr = s.inFlight.isSome

/-- While asleep TO = 1 and PD = 0, as SLEEP left them (R235), and no interrupt test is being skipped. -/
abbrev State.SleepOk (s : State) : Prop :=
  s.asleep = true → s.status.getLsbD 4 = true ∧ s.status.getLsbD 3 = false ∧ s.holdOff = false

/-- The mark of an instruction that is writing TMR0 does not outlive its step (R197). -/
abbrev State.TimerOk (s : State) : Prop := s.tmr0Hold ≠ .written

/-- What holds after reset and is kept by every step. -/
abbrev State.Inv (s : State) : Prop :=
  s.MemoriesOk ∧ s.EepromControlOk ∧ s.SleepOk ∧ s.TimerOk

/-- A step that goes on. -/
def State.Safe (s : State) : Prop := ∃ t, step s = .next t

end Sys2Proof.Machine
end

