-- ==== Sys2Proof/Certificates/Slice0/Terms.lean ====
section
/-! DEFINITION. The terms the statements are written in: groups of instructions of one shape, with their
results and flags in the unbounded arithmetic of the spec's pseudocode (R9), written apart from the
meanings. -/

namespace Sys2Proof.Claims

open Sys2Proof.Machine

/-- The eighteen instructions that can write a file register: the fourteen with a d bit, BCF and BSF
with their bit number, CLRF and MOVWF. -/
inductive FileOp
  | addwf | andwf | comf | decf | decfsz | incf | incfsz | iorwf | movf | rlf | rrf | subwf | swapf | xorwf
  | bcf (b : Nat) | bsf (b : Nat) | clrf | movwf
deriving DecidableEq, Repr

/-- The form that writes file register f: d = 1 where there is a d bit. -/
def FileOp.toFile : FileOp → Nat → Instr
  | .addwf, f => .addwf f .f
  | .andwf, f => .andwf f .f
  | .comf, f => .comf f .f
  | .decf, f => .decf f .f
  | .decfsz, f => .decfsz f .f
  | .incf, f => .incf f .f
  | .incfsz, f => .incfsz f .f
  | .iorwf, f => .iorwf f .f
  | .movf, f => .movf f .f
  | .rlf, f => .rlf f .f
  | .rrf, f => .rrf f .f
  | .subwf, f => .subwf f .f
  | .swapf, f => .swapf f .f
  | .xorwf, f => .xorwf f .f
  | .bcf b, f => .bcf f b
  | .bsf b, f => .bsf f b
  | .clrf, f => .clrf f
  | .movwf, f => .movwf f

/-- The form that writes W, d = 0; BCF, BSF, CLRF and MOVWF have none. -/
def FileOp.toW : FileOp → Nat → Option Instr
  | .addwf, f => some (.addwf f .w)
  | .andwf, f => some (.andwf f .w)
  | .comf, f => some (.comf f .w)
  | .decf, f => some (.decf f .w)
  | .decfsz, f => some (.decfsz f .w)
  | .incf, f => some (.incf f .w)
  | .incfsz, f => some (.incfsz f .w)
  | .iorwf, f => some (.iorwf f .w)
  | .movf, f => some (.movf f .w)
  | .rlf, f => some (.rlf f .w)
  | .rrf, f => some (.rrf f .w)
  | .subwf, f => some (.subwf f .w)
  | .swapf, f => some (.swapf f .w)
  | .xorwf, f => some (.xorwf f .w)
  | .bcf _, _ | .bsf _, _ | .clrf, _ | .movwf, _ => none

/-- CLRF and MOVWF do not read f (D20). -/
def FileOp.reads : FileOp → Bool
  | .clrf | .movwf => false
  | _ => true

/-- The 8-bit result r from W, the value v read from f, and the old carry, as the pseudocode of R113 to
R130, R141 and R142 has it. -/
def FileOp.result (op : FileOp) (w v : Nat) (carry : Bool) : Nat :=
  match op with
  | .addwf => (w + v) % 256
  | .andwf => w &&& v
  | .comf => 255 - v
  | .decf | .decfsz => (v + 255) % 256
  | .incf | .incfsz => (v + 1) % 256
  | .iorwf => w ||| v
  | .movf => v
  | .rlf => v * 2 % 256 + carry.toNat
  | .rrf => carry.toNat * 128 + v / 2
  | .subwf => (v + 256 - w) % 256
  | .swapf => v % 16 * 16 + v / 16
  | .xorwf => w ^^^ v
  | .bcf b => v &&& (255 - 2 ^ (b % 8))
  | .bsf b => v ||| 2 ^ (b % 8)
  | .clrf => 0
  | .movwf => w

/-- C after the instruction; `old` where it does not affect C (R110, R111, R112). -/
def FileOp.carryAfter (op : FileOp) (w v : Nat) (old : Bool) : Bool :=
  match op with
  | .addwf => decide (w + v > 255)
  | .subwf => decide (w ≤ v)
  | .rlf => decide (v ≥ 128)
  | .rrf => decide (v % 2 = 1)
  | _ => old

/-- DC after the instruction; `old` where it does not affect DC (R110, R111). -/
def FileOp.digitCarryAfter (op : FileOp) (w v : Nat) (old : Bool) : Bool :=
  match op with
  | .addwf => decide (w % 16 + v % 16 > 15)
  | .subwf => decide (w % 16 ≤ v % 16)
  | _ => old

/-- Z after the instruction; `old` where it does not affect Z (R112, R24). -/
def FileOp.zeroAfter (op : FileOp) (r : Nat) (old : Bool) : Bool :=
  match op with
  | .addwf | .andwf | .comf | .decf | .incf | .iorwf | .movf | .subwf | .xorwf | .clrf => decide (r = 0)
  | _ => old

/-- The instructions whose "Status Affected" is None (R24). -/
def FileOp.affectsNone : FileOp → Bool
  | .decfsz | .incfsz | .swapf | .bcf _ | .bsf _ | .movwf => true
  | _ => false

/-- DECFSZ and INCFSZ skip on a zero result (R119, R121). -/
def FileOp.skips (op : FileOp) (r : Nat) : Bool :=
  match op with
  | .decfsz | .incfsz => decide (r = 0)
  | _ => false

/-- Z, STATUS<2>. -/
def zero (s : State) : Bool := s.status.getLsbD 2

/-- DC, STATUS<1>. -/
def digitCarry (s : State) : Bool := s.status.getLsbD 1

/-- STATUS with Z, DC, C at the given values and bits 7 to 3 as they were. -/
def flagsInto (status : Byte) (z dc c : Bool) : Byte :=
  BitVec.ofNat 8 (status.toNat / 8 * 8 + z.toNat * 4 + dc.toNat * 2 + c.toNat)

/-- The result byte of an instruction in a state where f reads as `v`. -/
def FileOp.value (op : FileOp) (s : State) (v : Byte) : Byte :=
  BitVec.ofNat 8 (op.result s.w.toNat v.toNat s.carry)

/-- STATUS after the flag logic of an instruction in a state where f reads as `v`. -/
def FileOp.statusAfter (op : FileOp) (s : State) (v : Byte) : Byte :=
  flagsInto s.status (op.zeroAfter (op.result s.w.toNat v.toNat s.carry) (zero s))
    (op.digitCarryAfter s.w.toNat v.toNat (digitCarry s)) (op.carryAfter s.w.toNat v.toNat s.carry)

/-- Instruction cycles, and words the PC moves on: 2 when the instruction skips, else 1 (R14, R15). -/
def FileOp.moves (op : FileOp) (s : State) (v : Byte) : Nat :=
  if op.skips (op.result s.w.toNat v.toNat s.carry) then 2 else 1

/-- RB<7:4> as last read, after a read of the place `a` names (R219). -/
def lastRBAfterRead (s : State) (a : DataAddr) : BitVec 4 :=
  if s.loc a = .portb then (pinB s).extractLsb' 4 4 else s.lastRB

/-- The literal instructions whose result goes to W. -/
inductive LiteralOp
  | addlw | andlw | iorlw | movlw | sublw | xorlw
deriving DecidableEq, Repr

/-- The instruction with its literal. -/
def LiteralOp.instr : LiteralOp → Nat → Instr
  | .addlw, k => .addlw k
  | .andlw, k => .andlw k
  | .iorlw, k => .iorlw k
  | .movlw, k => .movlw k
  | .sublw, k => .sublw k
  | .xorlw, k => .xorlw k

/-- The result from W and the literal (R151, R152, R156, R157, R162, R163). -/
def LiteralOp.result (op : LiteralOp) (w k : Nat) : Nat :=
  match op with
  | .addlw => (w + k) % 256
  | .andlw => w &&& k
  | .iorlw => w ||| k
  | .movlw => k
  | .sublw => (k + 256 - w) % 256
  | .xorlw => w ^^^ k

/-- STATUS after the instruction (R110, R111, R112). -/
def LiteralOp.statusAfter (op : LiteralOp) (s : State) (k : Nat) : Byte :=
  let w := s.w.toNat
  let z := match op with
    | .movlw => zero s
    | _ => decide (op.result w k = 0)
  let dc := match op with
    | .addlw => decide (w % 16 + k % 16 > 15)
    | .sublw => decide (w % 16 ≤ k % 16)
    | _ => digitCarry s
  let c := match op with
    | .addlw => decide (w + k > 255)
    | .sublw => decide (w ≤ k)
    | _ => s.carry
  flagsInto s.status z dc c

/-- The don't-care bits of an instruction's pattern (R98). -/
def dontCareBits : Instr → InstrWord
  | .clrw => 0x007F
  | .nop => 0x0060
  | .addlw _ | .sublw _ => 0x0100
  | .movlw _ | .retlw _ => 0x0300
  | _ => 0x0000

/-- The 372 words of R99. -/
def unassignedRange (w : Nat) : Bool :=
  (0x0001 ≤ w && w ≤ 0x0007) || (0x000A ≤ w && w ≤ 0x001F) || (0x0021 ≤ w && w ≤ 0x003F) ||
  (0x0041 ≤ w && w ≤ 0x005F) || w == 0x0061 || (0x0068 ≤ w && w ≤ 0x007F) || (0x3B00 ≤ w && w ≤ 0x3BFF)

/-- The data array of a stack, RAM or EEPROM `m'` is `m` with `v` at `a` and every other cell as before. -/
def OnlyCell {n : Nat} (m m' : Memory n) (a : Nat) (v : BitVec n) : Prop :=
  Memory.read m' a = v ∧ ∀ x, x ≠ a → Memory.read m' x = Memory.read m x

/-- `s` with the PC moved on by `n` words and `n` instruction cycles spent (R14, R15, R261). -/
def onBy (n : Nat) (s : State) : State :=
  { s with pc := s.pc + BitVec.ofNat 13 n, cycles := s.cycles + n, wdtAge := s.wdtAge + n }

/-- `s` with the PC loaded and two instruction cycles spent (R166). -/
def goneTo (target : ProgAddr) (s : State) : State :=
  { s with pc := target, cycles := s.cycles + 2, wdtAge := s.wdtAge + 2 }

/-- What the read of f leaves behind for the instructions that read f: only RB<7:4> as last read (R219). -/
def afterReading (op : FileOp) (s : State) (a : DataAddr) : State :=
  if op.reads then { s with lastRB := lastRBAfterRead s a } else s

/-- STATUS after an instruction whose destination is STATUS, from the result `r` (R23): bits 7 to 5 from
r, bits 4 and 3 kept, bits 2 to 0 from r or from the flag logic. -/
def FileOp.statusAsDestination (op : FileOp) (s : State) (r : Byte) : Byte :=
  BitVec.ofNat 8 (r.toNat / 32 * 32 + s.status.toNat / 8 % 4 * 8 +
    (if op.affectsNone then r.toNat % 8 else (op.statusAfter s s.status).toNat % 8))

/-- The low byte of the address that a read of PCL returns (R20). -/
def pclValue (s : State) : Byte :=
  BitVec.ofNat 8 ((s.pc.toNat + if s.cfg.pclReadsNext then 1 else 0) % 8192)

/-- What a place holds right after `v` is written to it by an instruction, for the places whose read
returns what was stored (R66). -/
def readBack (s : State) (v : Byte) (affectsNone : Bool) : Loc → Byte
  | .status => statusWrite s.status v affectsNone
  | .pclath => BitVec.ofNat 8 (v.toNat % 32)
  | .indf | .eecon2 | .unimplemented => 0x00
  | _ => v

/-- The places of the register file that only store: no port, no PCL, no OPTION or TRIS (which reach
the pins), no EECON1 (which starts EEPROM accesses). -/
def plain : Loc → Bool
  | .indf | .tmr0 | .status | .fsr | .eedata | .eeadr | .eecon2 | .pclath | .intcon | .gpr _
  | .unimplemented => true
  | _ => false

/-- EECON1 after EEIF, WRERR and WREN are taken from a written value, WR and RD as they were (R208). -/
def eecon1Taking (old : BitVec 5) (v : Byte) : BitVec 5 :=
  BitVec.ofNat 5 (v.toNat / 4 % 8 * 4 + old.toNat % 4)

/-- `s` after the pushes of a list of addresses, the first of the list first (R17). -/
def pushes (vs : List ProgAddr) (s : State) : State := vs.foldl (fun t v => push v t) s

/-- `s` after `n` pops (R18). -/
def pops : Nat → State → State
  | 0, s => s
  | n + 1, s => pops n (pop s)

/-- Executing the instructions of a list one after the other. -/
def execAll : List Instr → State → Result
  | [], s => .next s
  | i :: rest, s => andThen (exec i s) (execAll rest)

/-- The parts of the state that a reset of any kind forces are at the values of R231. -/
def ResetForces (t : State) : Prop :=
  t.pc = 0x0000 ∧ t.asleep = false ∧ t.pclath = 0 ∧
  (∀ j, 1 ≤ j → j ≤ 7 → t.intcon.getLsbD j = false) ∧ t.option = 0xFF ∧ t.trisa = 0x1F ∧ t.trisb = 0xFF ∧
  (∀ j, j ≤ 4 → j ≠ 3 → t.eecon1.getLsbD j = false) ∧ (∀ j, 5 ≤ j → j ≤ 7 → t.status.getLsbD j = false)

end Sys2Proof.Claims
end

