-- ==== Sys2Proof/Certificates/Slice0/Obligations.lean ====
section
/-! DEFINITION. The statements for the provers. -/

open Sys2Proof Sys2Proof.Machine Sys2Proof.Claims

/-! ### Encoding -/

/-- Decode and encode agree (R96, R97): for every well-formed instruction, every operand at every value
its range admits, decoding its word gives it back. -/
def Obligations.DecodeInvertsEncode : Prop := ∀ i : Instr, i.WellFormed → decode (encode i) = .ok i

/-- Every word that decodes gives a well-formed instruction, and is that instruction's word but for the
don't-care bits of its pattern (R96, R98). -/
def Obligations.DecodedWordIsEncodingUpToDontCares : Prop :=
  ∀ (w : InstrWord) (i : Instr), decode w = .ok i → i.WellFormed ∧ encode i = w &&& ~~~dontCareBits i

/-- R98: every value of the x bits selects the same instruction, and the assembled word has them 0. -/
def Obligations.DontCareBitsSelectTheSameInstruction : Prop :=
  (∀ x, x < 128 → decode (BitVec.ofNat 14 (0x0100 + x)) = .ok .clrw) ∧ encode .clrw = 0x0100 ∧
  (∀ x, x < 4 → decode (BitVec.ofNat 14 (x * 32)) = .ok .nop) ∧ encode .nop = 0x0000 ∧
  ∀ k, k ≤ 255 →
    (∀ x, x < 4 → decode (BitVec.ofNat 14 (0x3000 + x * 256 + k)) = .ok (.movlw k)) ∧
    encode (.movlw k) = BitVec.ofNat 14 (0x3000 + k) ∧
    (∀ x, x < 4 → decode (BitVec.ofNat 14 (0x3400 + x * 256 + k)) = .ok (.retlw k)) ∧
    encode (.retlw k) = BitVec.ofNat 14 (0x3400 + k) ∧
    (∀ x, x < 2 → decode (BitVec.ofNat 14 (0x3C00 + x * 256 + k)) = .ok (.sublw k)) ∧
    encode (.sublw k) = BitVec.ofNat 14 (0x3C00 + k) ∧
    (∀ x, x < 2 → decode (BitVec.ofNat 14 (0x3E00 + x * 256 + k)) = .ok (.addlw k)) ∧
    encode (.addlw k) = BitVec.ofNat 14 (0x3E00 + k)

/-- R99: exactly the 372 listed words decode to no instruction, and each is rejected by name. -/
def Obligations.UnassignedWordsAreExactlyTheListedOnes : Prop :=
  (∀ w : InstrWord, decode w = .error (.unassigned w) ↔ unassignedRange w.toNat = true) ∧
  (∀ (w : InstrWord) (e : DecodeError), decode w = .error e → e = .unassigned w) ∧
  7 + 22 + 31 + 31 + 1 + 24 + 256 = 372

/-- R104: the words of Example 4-1, which the spec derives from R96, decode to its instructions and are
their encodings. -/
def Obligations.ExampleWordsDecode : Prop :=
  (decode 0x3020 = .ok (.movlw 0x20) ∧ encode (.movlw 0x20) = 0b11000000100000) ∧
  (decode 0x0084 = .ok (.movwf 0x04) ∧ encode (.movwf 0x04) = 0b00000010000100) ∧
  (decode 0x0180 = .ok (.clrf 0x00) ∧ encode (.clrf 0x00) = 0b00000110000000) ∧
  (decode 0x0A84 = .ok (.incf 0x04 .f) ∧ encode (.incf 0x04 .f) = 0b00101010000100) ∧
  (decode 0x1E04 = .ok (.btfss 0x04 4) ∧ encode (.btfss 0x04 4) = 0b01111000000100) ∧
  (decode 0x2802 = .ok (.goto 0x0002) ∧ encode (.goto 0x0002) = 0b10100000000010)

/-! ### The register file and its addresses -/

/-- R63: the register file map; its last row is the spec's decision D9. -/
def Obligations.RegisterFileMap : Prop :=
  ∀ (s : State) (a : DataAddr),
    let o := a.toNat % 128
    let bank1 := decide (128 ≤ a.toNat)
    (o = 0x00 → s.loc a = .indf) ∧
    (o = 0x01 → s.loc a = if bank1 then .option else .tmr0) ∧
    (o = 0x02 → s.loc a = .pcl) ∧
    (o = 0x03 → s.loc a = .status) ∧
    (o = 0x04 → s.loc a = .fsr) ∧
    (o = 0x05 → s.loc a = if bank1 then .trisa else .porta) ∧
    (o = 0x06 → s.loc a = if bank1 then .trisb else .portb) ∧
    (o = 0x07 → s.loc a = .unimplemented ∧ dataRead s a = 0x00) ∧
    (o = 0x08 → s.loc a = if bank1 then .eecon1 else .eedata) ∧
    (o = 0x09 → s.loc a = if bank1 then .eecon2 else .eeadr) ∧
    (o = 0x0A → s.loc a = .pclath) ∧
    (o = 0x0B → s.loc a = .intcon) ∧
    (0x0C ≤ o → o ≤ s.cfg.device.gprLast → s.loc a = .gpr o) ∧
    (s.cfg.device.gprLast < o → s.loc a = .unimplemented ∧ dataRead s a = 0x00)

/-- R64: a direct address is RP0 : f; RP1 is ignored (as every bit of STATUS but RP0 is); the bank bit is
read when the instruction executes, so BSF STATUS,5 and then MOVWF 05h writes TRISA. -/
def Obligations.DirectAddress : Prop :=
  (∀ (s : State) (f : Nat), f ≤ 127 → f ≠ 0 → (ea s f).toNat = s.rp0.toNat * 128 + f) ∧
  (∀ (s : State) (status : Byte) (f : Nat), f ≤ 127 → f ≠ 0 → status.getLsbD 5 = s.status.getLsbD 5 →
    ea { s with status := status } f = ea s f) ∧
  ∀ s : State, ∃ t, execAll [.bsf 0x03 5, .movwf 0x05] s = .next t ∧
    t.trisa.toNat = s.w.toNat % 32 ∧ t.latchA = s.latchA

/-- R65: f = 0 names the place FSR points to, whatever STATUS holds; the access goes on as a direct
access to that address would, for every form that names f; INDF through itself reads 00h and writes
nothing, the flags following from the value 00h (FSR = 80h is the spec's decision D21); and no form that
names INDF moves the pointer, unless the pointer is its destination. -/
def Obligations.IndirectAddress : Prop :=
  (∀ s : State, ea s 0 = s.fsr) ∧
  (∀ (s : State) (f : Nat), f ≤ 127 → f ≠ 0 → ea s f = s.fsr →
    (∀ op : FileOp, exec (op.toFile 0) s = exec (op.toFile f) s) ∧
    (∀ (op : FileOp) (i j : Instr), op.toW 0 = some i → op.toW f = some j → exec i s = exec j s) ∧
    ∀ b, exec (.btfsc 0 b) s = exec (.btfsc f b) s ∧ exec (.btfss 0 b) s = exec (.btfss f b) s) ∧
  (∀ s : State, s.fsr.toNat % 128 = 0 →
    (∀ op : FileOp, exec (op.toFile 0) s =
      .next (onBy (op.moves s 0x00) { s with status := op.statusAfter s 0x00 })) ∧
    ∀ (op : FileOp) (i : Instr), op.toW 0 = some i → exec i s =
      .next (onBy (op.moves s 0x00) { s with w := op.value s 0x00, status := op.statusAfter s 0x00 })) ∧
  ∀ s t : State,
    (∀ op : FileOp, s.fsr.toNat % 128 ≠ 0x04 → exec (op.toFile 0) s = .next t → t.fsr = s.fsr) ∧
    (∀ (op : FileOp) (i : Instr), op.toW 0 = some i → exec i s = .next t → t.fsr = s.fsr) ∧
    ∀ b, exec (.btfsc 0 b) s = .next t ∨ exec (.btfss 0 b) s = .next t → t.fsr = s.fsr

/-- The rows of R66, by address: what each register's read returns and what its write does; a GPR is the
same byte in both banks (R11). A write of EECON1 gives EEIF, WRERR and WREN their bits and leaves WR and
RD, a 1 in bit 1 requests a write and a 1 in bit 0 a read (R208 to R210). The spec's decisions: writes at
07h, 87h and above the last GPR are ignored (D9), 80h is INDF through FSR too (D21). The model's choices:
the mark that tells Timer0 of the write (R197, log 21), a WR already 1 is not set again (log 13), the stop
above 3Fh is a fault (log 14), the free value (log 15). -/
def Obligations.ResolvedReadAndWrite : Prop :=
  ∀ (s : State) (v : Byte) (n : Bool),
    (dataRead s 0x01 = s.tmr0 ∧ dataWrite 0x01 v n s = .next { s with
      tmr0 := v
      prescaler := if s.option.getLsbD 3 then s.prescaler else 0
      tmr0Hold := if s.cfg.tmr0Model = .exact then .written else s.tmr0Hold }) ∧
    (dataRead s 0x81 = s.option ∧ dataWrite 0x81 v n s = .next { s with option := v }) ∧
    (∀ a, a = 0x02 ∨ a = 0x82 → dataRead s a = pclValue s ∧
      dataWrite a v n s = .next { s with pc := BitVec.ofNat 13 (s.pclath.toNat * 256 + v.toNat) }) ∧
    (∀ a, a = 0x03 ∨ a = 0x83 → dataRead s a = s.status ∧
      dataWrite a v n s = .next { s with status := statusWrite s.status v n }) ∧
    (∀ a, a = 0x04 ∨ a = 0x84 → dataRead s a = s.fsr ∧ dataWrite a v n s = .next { s with fsr := v }) ∧
    (dataRead s 0x05 = (pinA s).setWidth 8 ∧
      dataWrite 0x05 v n s = .next { s with latchA := v.setWidth 5 }) ∧
    (dataRead s 0x85 = s.trisa.setWidth 8 ∧
      dataWrite 0x85 v n s = .next { s with trisa := v.setWidth 5 }) ∧
    (dataRead s 0x06 = pinB s ∧ dataWrite 0x06 v n s = .next { s with latchB := v }) ∧
    (dataRead s 0x86 = s.trisb ∧ dataWrite 0x86 v n s = .next { s with trisb := v }) ∧
    (∀ a, a = 0x00 ∨ a = 0x80 ∨ a = 0x07 ∨ a = 0x87 →
      dataRead s a = 0x00 ∧ dataWrite a v n s = .next s) ∧
    (dataRead s 0x08 = s.eedata ∧ dataWrite 0x08 v n s = .next { s with eedata := v }) ∧
    (dataRead s 0x09 = s.eeadr ∧ dataWrite 0x09 v n s = .next { s with eeadr := v }) ∧
    (dataRead s 0x88 = s.eecon1.setWidth 8 ∧
      let bits := eecon1Taking s.eecon1 v
      let armed := v.getLsbD 2 = true ∧ s.unlock = .gotAA ∧ s.inFlight = none
      (v.toNat % 4 = 0 → dataWrite 0x88 v n s = .next { s with eecon1 := bits }) ∧
      (v.toNat % 4 = 2 → ¬ armed → dataWrite 0x88 v n s = .next { s with
        eecon1 := bits, unlock := .locked }) ∧
      (v.toNat % 4 = 2 → armed → s.eeadr.toNat ≤ 0x3F → dataWrite 0x88 v n s = .next { s with
        eecon1 := bits ||| 0b00010
        inFlight := some { addr := BitVec.ofNat 6 s.eeadr.toNat, data := s.eedata }
        unlock := .locked }) ∧
      (v.toNat % 4 = 1 → s.eeadr.toNat ≤ 0x3F → s.inFlight = none → dataWrite 0x88 v n s = .next { s with
        eecon1 := bits &&& 0b11110, eedata := Memory.read s.eeprom s.eeadr.toNat }) ∧
      (v.toNat % 4 = 1 → s.eeadr.toNat ≤ 0x3F → s.inFlight ≠ none → dataWrite 0x88 v n s = .next { s with
        eecon1 := bits &&& 0b11110, eedata := Config.freeByte s.draws, draws := s.draws + 1 }) ∧
      ((v.toNat % 4 = 2 ∧ armed ∨ v.toNat % 4 = 1) → 0x3F < s.eeadr.toNat →
        dataWrite 0x88 v n s = .fault (.eepromAddress s.eeadr)) ∧
      (v.toNat % 4 = 3 → s.wr = false → dataWrite 0x88 v n s = .refused (.eepromReadAndWrite v)) ∧
      (v.toNat % 4 = 3 → s.wr = true → s.inFlight ≠ none → s.eeadr.toNat ≤ 0x3F →
        dataWrite 0x88 v n s = .next { s with
          eecon1 := bits &&& 0b11110, unlock := .locked
          eedata := Config.freeByte s.draws, draws := s.draws + 1 }) ∧
      (v.toNat % 4 = 3 → s.wr = true → s.inFlight ≠ none → 0x3F < s.eeadr.toNat →
        dataWrite 0x88 v n s = .fault (.eepromAddress s.eeadr))) ∧
    (dataRead s 0x89 = 0x00 ∧ dataWrite 0x89 v n s = .next { s with unlock :=
      if v = 0x55 then .got55 else if v = 0xAA ∧ s.unlock = .got55 then .gotAA else .locked }) ∧
    (∀ a, a = 0x0A ∨ a = 0x8A → dataRead s a = s.pclath.setWidth 8 ∧
      dataWrite a v n s = .next { s with pclath := v.setWidth 5 }) ∧
    (∀ a, a = 0x0B ∨ a = 0x8B → dataRead s a = s.intcon ∧
      dataWrite a v n s = .next { s with intcon := v }) ∧
    (∀ a, 0x0C ≤ a.toNat % 128 → a.toNat % 128 ≤ s.cfg.device.gprLast →
      dataRead s a = Memory.read s.ram (a.toNat % 128) ∧
      dataWrite a v n s = .next { s with ram := Memory.write s.ram (a.toNat % 128) v }) ∧
    (∀ a, s.cfg.device.gprLast < a.toNat % 128 → dataRead s a = 0x00 ∧ dataWrite a v n s = .next s)

/-- Read after write over the whole register file (R66, R75): after a write to a place that only stores,
that place reads back what it keeps of the value, through every address that names it, and every other
place reads as before. -/
def Obligations.ReadAfterWrite : Prop :=
  ∀ (s : State) (a : DataAddr) (v : Byte) (n : Bool), Memory.wf s.ram = true → plain (s.loc a) = true →
    ∃ t, dataWrite a v n s = .next t ∧ ∀ b : DataAddr,
      dataRead t b = if s.loc b = s.loc a then readBack s v n (s.loc a) else dataRead s b

/-! ### Byte-oriented and bit-oriented instructions -/

/-- The fourteen d = 0 forms (R113, R114, R117 to R123, R126 to R131), at every f: W takes the result,
the flags follow, nothing is written in the register file, and a zero result of DECFSZ or INCFSZ skips. -/
def Obligations.FileOpIntoW : Prop :=
  ∀ (op : FileOp) (f : Nat) (i : Instr) (s : State), op.toW f = some i →
    let v := dataRead s (ea s f)
    exec i s = .next (onBy (op.moves s v) { s with
      w := op.value s v
      status := op.statusAfter s v
      lastRB := lastRBAfterRead s (ea s f) })

/-- The eighteen instructions that write f, where f names a GPR directly, in bank 1 or through INDF: that
one byte takes the result, the flags follow, every other byte and register is as before. -/
def Obligations.FileOpIntoGpr : Prop :=
  ∀ (op : FileOp) (f o : Nat) (s : State), Memory.wf s.ram = true → s.loc (ea s f) = .gpr o →
    let v := Memory.read s.ram o
    ∃ m, OnlyCell s.ram m o (op.value s v) ∧
      exec (op.toFile f) s = .next (onBy (op.moves s v) { s with ram := m, status := op.statusAfter s v })

/-- The eighteen instructions that write f, at every place but STATUS and PCL (R131): the read, its side
effect, the resolved write of R66 (which may stop at EECON1 only), then the flags and the advance. -/
def Obligations.FileOpIntoAnyRegister : Prop :=
  ∀ (op : FileOp) (f : Nat) (s : State), s.loc (ea s f) ≠ .status → s.loc (ea s f) ≠ .pcl →
    let a := ea s f
    let v := dataRead s a
    exec (op.toFile f) s = andThen (dataWrite a (op.value s v) op.affectsNone (afterReading op s a))
      fun t => .next (onBy (op.moves s v) { t with status := op.statusAfter s v })

/-- R23: STATUS as the destination, for all eighteen instructions that write f; that INCFSZ and DECFSZ
affect no flag here is the spec's derivation. -/
def Obligations.StatusAsDestination : Prop :=
  ∀ (op : FileOp) (f : Nat) (s : State), s.loc (ea s f) = .status →
    exec (op.toFile f) s = .next (onBy (op.moves s s.status)
      { s with status := op.statusAsDestination s (op.value s s.status) })

/-- R132: PCL as the destination loads PCLATH : result in two cycles and never skips (the spec's decision
D17); the flags follow;
with d = 0 PCL is only read and the PC moves on as for any register. -/
def Obligations.PclAsDestination : Prop :=
  ∀ (op : FileOp) (f : Nat) (s : State), s.loc (ea s f) = .pcl →
    let v := pclValue s
    exec (op.toFile f) s = .next (goneTo (BitVec.ofNat 13 (s.pclath.toNat * 256 + (op.value s v).toNat))
      { s with status := op.statusAfter s v }) ∧
    ∀ i, op.toW f = some i → exec i s = .next (onBy (op.moves s v) { s with
      w := op.value s v, status := op.statusAfter s v })

/-- R110: the flags and the sum of ADDWF, whatever its destination, and of ADDLW. -/
def Obligations.AdditionFlags : Prop :=
  (∀ (f : Nat) (d : Dest) (s t : State), exec (.addwf f d) s = .next t →
    let a := s.w.toNat
    let b := (dataRead s (ea s f)).toNat
    (d = .w → t.w.toNat = (a + b) % 256) ∧
    t.carry = decide (a + b > 255) ∧ digitCarry t = decide (a % 16 + b % 16 > 15) ∧
    zero t = decide ((a + b) % 256 = 0)) ∧
  ∀ (k : Nat) (s : State), k ≤ 255 → ∃ t, exec (.addlw k) s = .next t ∧
    let a := s.w.toNat
    t.w.toNat = (a + k) % 256 ∧
    t.carry = decide (a + k > 255) ∧ digitCarry t = decide (a % 16 + k % 16 > 15) ∧
    zero t = decide ((a + k) % 256 = 0)

/-- R111: the flags and the difference of SUBWF, whatever its destination, and of SUBLW. -/
def Obligations.SubtractionFlags : Prop :=
  (∀ (f : Nat) (d : Dest) (s t : State), exec (.subwf f d) s = .next t →
    let m := (dataRead s (ea s f)).toNat
    let w := s.w.toNat
    (d = .w → t.w.toNat = (m + (255 - w) + 1) % 256) ∧
    t.carry = decide (m + (255 - w) + 1 > 255) ∧ t.carry = decide (w ≤ m) ∧
    digitCarry t = decide (m % 16 + (15 - w % 16) + 1 > 15) ∧ digitCarry t = decide (w % 16 ≤ m % 16) ∧
    zero t = decide ((m + (255 - w) + 1) % 256 = 0)) ∧
  ∀ (k : Nat) (s : State), k ≤ 255 → ∃ t, exec (.sublw k) s = .next t ∧
    let w := s.w.toNat
    t.w.toNat = (k + (255 - w) + 1) % 256 ∧
    t.carry = decide (k + (255 - w) + 1 > 255) ∧ t.carry = decide (w ≤ k) ∧
    digitCarry t = decide (k % 16 + (15 - w % 16) + 1 > 15) ∧ digitCarry t = decide (w % 16 ≤ k % 16) ∧
    zero t = decide ((k + (255 - w) + 1) % 256 = 0)

/-- BTFSC and BTFSS (R143, R144) at every f and bit: only the PC moves, by two words and two cycles where
the condition holds; a test of PORTB ends its change mismatch. -/
def Obligations.BitTestsSkip : Prop :=
  ∀ (f b : Nat) (s : State), b ≤ 7 →
    let bit := (dataRead s (ea s f)).getLsbD b
    exec (.btfsc f b) s = .next (onBy (if bit then 1 else 2)
      { s with lastRB := lastRBAfterRead s (ea s f) }) ∧
    exec (.btfss f b) s = .next (onBy (if bit then 2 else 1)
      { s with lastRB := lastRBAfterRead s (ea s f) })

/-! ### Literal and control instructions -/

/-- ADDLW, ANDLW, IORLW, MOVLW, SUBLW and XORLW (R151, R152, R156, R157, R162, R163): W and the flags. -/
def Obligations.LiteralOps : Prop :=
  ∀ (op : LiteralOp) (k : Nat) (s : State), k ≤ 255 →
    exec (op.instr k) s = .next (onBy 1 { s with
      w := BitVec.ofNat 8 (op.result s.w.toNat k), status := op.statusAfter s k })

/-- CLRW clears W and sets Z (R116); NOP does nothing but advance (R125). -/
def Obligations.ClearWAndNop : Prop :=
  ∀ s : State,
    exec .clrw s = .next (onBy 1 { s with
      w := 0x00, status := flagsInto s.status true (digitCarry s) s.carry }) ∧
    exec .nop s = .next (onBy 1 s)

/-- GOTO loads PCLATH<4:3> : k; CALL does the same and pushes the next address (R153, R155, R16, R17). -/
def Obligations.CallAndGoto : Prop :=
  ∀ (k : Nat) (s : State), k ≤ 2047 →
    let target := BitVec.ofNat 13 (s.pclath.toNat / 8 * 2048 + k)
    exec (.goto k) s = .next (goneTo target s) ∧
    (Memory.wf s.stack = true →
      ∃ m, OnlyCell s.stack m s.sp.toNat (BitVec.ofNat 13 ((s.pc.toNat + 1) % 8192)) ∧
        exec (.call k) s = .next (goneTo target { s with stack := m, sp := s.sp + 1 }))

/-- RETURN, RETLW and RETFIE pop the PC (R158, R159, R160): RETLW also loads W, RETFIE also sets GIE. -/
def Obligations.Returns : Prop :=
  ∀ (k : Nat) (s : State), k ≤ 255 →
    let tos := Memory.read s.stack ((s.sp.toNat + 7) % 8)
    exec .return_ s = .next (goneTo tos { s with sp := s.sp - 1 }) ∧
    exec (.retlw k) s = .next (goneTo tos { s with sp := s.sp - 1, w := BitVec.ofNat 8 k }) ∧
    exec .retfie s = .next (goneTo tos { s with sp := s.sp - 1, intcon := s.intcon ||| 0x80 })

/-- R18: a pop moves the pointer back and gives the entry there, which is not erased (the spec's
derivation from R19); RETURN, RETLW and RETFIE pop. -/
def Obligations.PopDoesNotErase : Prop :=
  ∀ (i : Instr) (s : State), i = .return_ ∨ i = .retfie ∨ (∃ k, i = .retlw k) →
    ∃ t, exec i s = .next t ∧ t.sp.toNat = (s.sp.toNat + 7) % 8 ∧
      t.pc = Memory.read s.stack t.sp.toNat ∧ t.stack = s.stack

/-- A return undoes a call, and RETFIE an interrupt entry (R153, R160, R184, R186): the PC is at the next
word (at the interrupted word), the stack pointer and GIE are as before, and of the rest only the stack
entry used and four cycles differ. -/
def Obligations.ReturnsUndoCallsAndInterrupts : Prop :=
  ∀ s : State, Memory.wf s.stack = true →
    (∀ k, k ≤ 2047 → ∃ m, OnlyCell s.stack m s.sp.toNat (s.pc + 1) ∧
      execAll [.call k, .return_] s = .next { s with
        stack := m, pc := s.pc + 1, cycles := s.cycles + 4, wdtAge := s.wdtAge + 4 }) ∧
    (s.gie = true → ∃ m, OnlyCell s.stack m s.sp.toNat s.pc ∧
      exec .retfie (interruptEntry s) = .next { s with
        stack := m, cycles := s.cycles + 4, wdtAge := s.wdtAge + 4 })

/-- The stack is a circular buffer of eight (R19): after eight or more pushes, the pops give the last
eight values pushed, newest first, over and over; a ninth push has overwritten the first value, and the
ninth pop gives what the first gave. -/
def Obligations.StackIsCircular : Prop :=
  ∀ (vs : List ProgAddr) (k : Nat) (s : State), Memory.wf s.stack = true → 8 ≤ vs.length →
    (pops k (pushes vs s)).tos = vs.reverse.getD (k % 8) 0

/-- CLRWDT (R154): the WDT, its prescaler where assigned, TO and PD. The count of cycles since the
clearing is the model's (log 25). -/
def Obligations.ClrwdtEffect : Prop :=
  ∀ s : State, exec .clrwdt s = .next (onBy 1 { s with
    wdt := 0
    wdtAge := 0
    prescaler := if s.option.getLsbD 3 then 0 else s.prescaler
    status := s.status ||| 0x18 })

/-- SLEEP (R161): asleep at the next address with TO = 1, PD = 0 and the WDT cleared; with an enabled
interrupt flag already set it is a NOP (R191, D25). The count of cycles since the clearing is the model's
(log 25). -/
def Obligations.SleepEffect : Prop :=
  ∀ s : State,
    (s.intPending = false → exec .sleep s = .next (onBy 1 { s with
      asleep := true
      wdt := 0
      wdtAge := 0
      prescaler := if s.option.getLsbD 3 then 0 else s.prescaler
      status := (s.status ||| 0x10) &&& 0xF7 })) ∧
    (s.intPending = true → exec .sleep s = .next (onBy 1 s))

/-- OPTION, TRIS 5 and TRIS 6 load their registers from W whatever RP0 is (R164, R165). -/
def Obligations.OptionAndTris : Prop :=
  ∀ s : State,
    exec .option s = .next (onBy 1 { s with option := s.w }) ∧
    exec .tris5 s = .next (onBy 1 { s with trisa := BitVec.ofNat 5 (s.w.toNat % 32) }) ∧
    exec .tris6 s = .next (onBy 1 { s with trisb := s.w })

/-- The model's choice, log 12: TRIS 7 does nothing but advance, "the other reading consistent with the
source" (R165). -/
def Obligations.Tris7IsNop : Prop := ∀ s : State, exec .tris7 s = .next (onBy 1 s)

/-! ### Data EEPROM -/

/-- An EEPROM read by BSF EECON1,RD (R209): EEDATA takes the byte at EEADR and nothing else changes;
while a write is in flight it takes a free value (U11, log 15) and the attempt to set WR again locks the
unlock sequence; above 3Fh the model stops (U13, log 14). That this read, which writes WR back as the 1
it is, runs during a write and is not refused by U12 is the model's choice (log 13). -/
def Obligations.EepromRead : Prop :=
  ∀ (f : Nat) (s : State), s.loc (ea s f) = .eecon1 → s.EepromControlOk →
    (s.eeadr.toNat ≤ 0x3F → s.inFlight = none → exec (.bsf f 0) s = .next (onBy 1 { s with
      eedata := Memory.read s.eeprom s.eeadr.toNat })) ∧
    (s.eeadr.toNat ≤ 0x3F → s.inFlight ≠ none → exec (.bsf f 0) s = .next (onBy 1 { s with
      eedata := Config.freeByte s.draws, draws := s.draws + 1, unlock := .locked })) ∧
    (0x3F < s.eeadr.toNat → exec (.bsf f 0) s = .fault (.eepromAddress s.eeadr))

/-- A write request by BSF EECON1,WR (R210): it starts a write exactly when the unlock sequence is
complete, WREN = 1 and none is in flight; otherwise only the unlock position is lost. -/
def Obligations.EepromWriteRequest : Prop :=
  ∀ (f : Nat) (s : State), s.loc (ea s f) = .eecon1 → s.EepromControlOk →
    let armed := s.unlock = .gotAA ∧ s.wren = true ∧ s.inFlight = none
    (armed → s.eeadr.toNat ≤ 0x3F → exec (.bsf f 1) s = .next (onBy 1 { s with
      eecon1 := s.eecon1 ||| 0b00010
      inFlight := some { addr := BitVec.ofNat 6 s.eeadr.toNat, data := s.eedata }
      unlock := .locked })) ∧
    (¬ armed → exec (.bsf f 1) s = .next (onBy 1 { s with unlock := .locked })) ∧
    (armed → 0x3F < s.eeadr.toNat → exec (.bsf f 1) s = .fault (.eepromAddress s.eeadr))

/-- The exact five-instruction sequence of R210 starts the write of EEDATA to EEADR. -/
def Obligations.UnlockSequenceStartsAWrite : Prop :=
  ∀ s : State, s.rp0 = true → s.EepromControlOk → s.inFlight = none → s.wren = true →
    s.eeadr.toNat ≤ 0x3F →
    ∃ t, execAll [.movlw 0x55, .movwf 0x09, .movlw 0xAA, .movwf 0x09, .bsf 0x08 1] s = .next t ∧
      t.wr = true ∧ t.unlock = .locked ∧ t.eeprom = s.eeprom ∧
      t.inFlight = some { addr := BitVec.ofNat 6 s.eeadr.toNat, data := s.eedata }

/-- No instruction clears WR, and RD reads 0 after every instruction where it read 0 before (R208, R209). -/
def Obligations.WrIsNotClearedAndRdReadsZero : Prop :=
  ∀ (i : Instr) (s t : State), exec i s = .next t →
    (s.wr = true → t.wr = true) ∧ (s.eecon1.getLsbD 0 = false → t.eecon1.getLsbD 0 = false)

/-- Every instruction completes on every state (R180), but for a write to EECON1 that sets both RD and WR
(U12) or starts an access with EEADR above 3Fh (U13), which stops exactly then. The model's choices: TRIS
7, which R165 and R180 would refuse, runs as a NOP (log 12); a WR already 1 is not set again, so that
write is not refused (log 13); above 3Fh the stop is a fault (log 14). -/
def Obligations.InstructionsStopOnlyAtEecon1 : Prop :=
  ∀ (i : Instr) (s : State),
    ((∀ (op : FileOp) (f : Nat), i = op.toFile f → s.loc (ea s f) ≠ .eecon1) → ∃ t, exec i s = .next t) ∧
    ∀ (op : FileOp) (f : Nat), i = op.toFile f → s.loc (ea s f) = .eecon1 →
      let r := op.value s (dataRead s (ea s f))
      let both := r.getLsbD 0 = true ∧ r.getLsbD 1 = true ∧ s.wr = false
      let starts := r.getLsbD 0 = true ∨
        (r.getLsbD 1 = true ∧ r.getLsbD 2 = true ∧ s.unlock = .gotAA ∧ s.inFlight = none)
      if both then exec i s = .refused (.eepromReadAndWrite r)
      else if starts ∧ 0x3F < s.eeadr.toNat then exec i s = .fault (.eepromAddress s.eeadr)
      else ∃ t, exec i s = .next t

/-- The write engine's completion (R211): the addressed byte alone takes the data, WR falls, EEIF rises,
and EEIF with EEIE is a pending interrupt; without a write in flight nothing happens. -/
def Obligations.EepromWriteCompletes : Prop :=
  (∀ (s : State) (e : EeWrite), Memory.wf s.eeprom = true → s.inFlight = some e →
    ∃ m q, OnlyCell s.eeprom m e.addr.toNat e.data ∧
      applyEvent s .eepromDone = { s with eeprom := m, eecon1 := q, inFlight := none } ∧
      q.getLsbD 4 = true ∧ q.getLsbD 1 = false ∧ (∀ j, j ≠ 4 → j ≠ 1 → q.getLsbD j = s.eecon1.getLsbD j) ∧
      (s.intcon.getLsbD 6 = true → (applyEvent s .eepromDone).intPending = true)) ∧
  ∀ s : State, s.inFlight = none → applyEvent s .eepromDone = s

/-! ### Interrupts, SLEEP and one step -/

/-- A step runs the decoded instruction (R183, R97): at a boundary that nothing takes over, awake, with
no interrupt due, the step is the instruction at pc, the test-suppression mark spent and Timer0 counting
along. -/
def Obligations.StepRunsDecodedInstruction : Prop :=
  ∀ (s u : State) (i : Instr), atBoundary s = (u, none) → u.asleep = false → u.intDue = false →
    decode (Memory.read u.prog (u.pc.toNat % u.cfg.device.progWords)) = .ok i →
    step s = andThen (exec i { u with holdOff := false })
      fun t => .next (timer0After { u with holdOff := false } t)

/-- The fetch wraps at the implemented size (R61): pcs equal modulo PROG_WORDS fetch the same word, as
20h, 420h, 820h, ... 1C20h do on the PIC16C84. -/
def Obligations.FetchWraps : Prop :=
  (∀ (s : State) (a : ProgAddr),
    (s.cfg.device = .pic16c83 ∨ s.cfg.device = .pic16cr83 → progRead s a = Memory.read s.prog (a.toNat % 512)) ∧
    (s.cfg.device = .pic16c84 ∨ s.cfg.device = .pic16c84a ∨ s.cfg.device = .pic16cr84 →
      progRead s a = Memory.read s.prog (a.toNat % 1024))) ∧
  ∀ (s : State) (n : Nat), s.cfg.device = .pic16c84 → n < 8 →
    progRead s (BitVec.ofNat 13 (0x20 + n * 0x400)) = progRead s 0x0020

/-- A word without an instruction (R99): under `refuse` the step stops and names the word and its
address; under `nop` it advances. -/
def Obligations.UnassignedWordStep : Prop :=
  ∀ (s u : State), atBoundary s = (u, none) → u.asleep = false → u.intDue = false →
    unassignedRange (fetch u).toNat = true →
    (u.cfg.unassigned = .refuse → step s = .refused (.unassignedWord (fetch u) u.pc)) ∧
    (u.cfg.unassigned = .nop → step s =
      .next (timer0After { u with holdOff := false } (onBy 1 { u with holdOff := false })))

/-- R184: interrupt entry pushes the address that would have executed next, clears GIE, goes to 0004h, in
two cycles, and saves or changes nothing else (Timer0, an agent of its own, counts those cycles). The
clearing of GIE and the boundary are the spec's general knowledge (D10). -/
def Obligations.InterruptEntry : Prop :=
  ∀ s u : State, atBoundary s = (u, none) → u.asleep = false → u.gie = true → u.intPending = true →
    u.holdOff = false → Memory.wf u.stack = true →
    ∃ m, OnlyCell u.stack m u.sp.toNat u.pc ∧
      step s = .next (timer0After u (goneTo 0x0004 { u with
        stack := m, sp := u.sp + 1, intcon := u.intcon &&& 0x7F }))

/-- Sleeping on (R190): with no enabled flag set and nothing taking the step over, a step asleep changes
nothing of the machine but the time since the WDT was cleared. That there is such an idle step, where U16
says stuck, is the model's choice (log 20), and so is the count of its time (log 25). -/
def Obligations.SleepGoesOn : Prop :=
  ∀ s u : State, atBoundary s = (u, none) → u.asleep = true → u.intPending = false →
    step s = .next { u with wdtAge := u.wdtAge + 1 }

/-- Wake-up through an interrupt (R191): whatever GIE is, an enabled flag ends the sleep and changes
nothing else; and the instruction after the SLEEP runs first even with GIE = 1. The wake-up as a step of
its own (log 18), the mark set whatever GIE is (log 28) and the WDT not cleared (log 35) are the model's
choices. -/
def Obligations.InterruptWakeUp : Prop :=
  (∀ s u : State, atBoundary s = (u, none) → u.asleep = true → u.intPending = true →
    step s = .next { u with asleep := false, holdOff := true }) ∧
  ∀ (s u : State) (i : Instr), atBoundary s = (u, none) → u.asleep = false → u.holdOff = true →
    decode (fetch u) = .ok i →
    step s = andThen (exec i { u with holdOff := false })
      fun t => .next (timer0After { u with holdOff := false } t)

/-- R192 (and R203; the WDT's restart is the spec's general knowledge): a WDT time-out asleep clears TO,
restarts the WDT and changes nothing else of the machine: the PC stays after the SLEEP, and with PD = 0,
as SLEEP left it, STATUS reads uuu0 0uuu. The wake-up as a step of its own (log 18) and the time-out
before an interrupt (log 19) are the model's choices. -/
def Obligations.WatchdogWakeUp : Prop :=
  ∀ (s u : State) (d : ResetDraw), atBoundary s = (u, some (.wdtTimeout d)) → u.asleep = true →
    step s = .next { u with
      asleep := false
      status := u.status &&& 0xEF
      wdt := 0
      wdtAge := 0
      prescaler := if u.option.getLsbD 3 then 0 else u.prescaler } ∧
    (u.status.getLsbD 3 = false → (u.status &&& 0xEF).toNat / 8 % 4 = 0b00)

/-- R202 with R201's bound (the spec's decision D13): a watchdog time-out never occurs with the watchdog
disabled or before the bound, and otherwise occurs whenever the environment has one; in normal operation
it is a reset, asleep a wake-up; it clears TO. The model's choices: an offered time-out goes before a
pending interrupt, the other order being queued (log 19), and how the bound's cycles are counted (log 25). -/
def Obligations.WatchdogTimeoutOnlyWhenAllowed : Prop :=
  ∀ (s : State) (b : Boundary) (rest : List Boundary) (d : ResetDraw),
    s.inputs = b :: rest → b.takeover = some (.wdtTimeout d) →
    let u := (atBoundary s).1
    let allowed := u.cfg.wdtEnabled = true ∧ ∀ n, u.cfg.wdtMinCycles = some n → n ≤ u.wdtAge
    (allowed → (atBoundary s).2 = some (.wdtTimeout d) ∧
      ∃ t, step s = .next t ∧ t.asleep = false ∧ t.status.getLsbD 4 = false ∧
        (u.asleep = false → ResetForces t) ∧ (u.asleep = true → t.pc = u.pc)) ∧
    (¬ allowed → step s = cpuStep u)

/-! ### Resets -/

/-- R231: what every reset does, power-on, MCLR running or asleep, and WDT in normal operation; the state
the model starts from has it too. A power-on or MCLR that the environment queues for this boundary comes
about whatever else happens there (R181, R230), and so does a watchdog time-out in normal operation where
R201 and R202 allow it. That the environment is a queue in State is the model's choice (log 8), and so is
the count of the bound's cycles (log 25). -/
def Obligations.EveryResetForces : Prop :=
  ResetForces State.reset ∧
  (∀ (s u : State) (k : Takeover), atBoundary s = (u, some k) →
    (∀ d, k = .wdtTimeout d → u.asleep = false) → ∃ t, step s = .next t ∧ ResetForces t) ∧
  ∀ (s : State) (b : Boundary) (rest : List Boundary), s.inputs = b :: rest →
    (∀ d, b.takeover = some (.powerOn d) → ∃ t, step s = .next t ∧ ResetForces t) ∧
    (∀ d, b.takeover = some (.mclr d) → ∃ t, step s = .next t ∧ ResetForces t) ∧
    (∀ d, b.takeover = some (.wdtTimeout d) → s.asleep = false → s.cfg.wdtEnabled = true →
      (∀ n, s.cfg.wdtMinCycles = some n → n ≤ s.wdtAge) → ∃ t, step s = .next t ∧ ResetForces t)

/-- MCLR and WDT reset (R233, R235, R236, R239): what they keep and what they set, in full; TO falls on a
WDT reset only, and a write in flight leaves WRERR = 1 and an open byte. That PD is kept on a WDT reset
is the spec's decision D15. The model's choices: Timer0's inhibit ends (log 29), the suppression mark is
cleared (log 28), the pointer is a draw (log 5), the previous T0CKI level is kept (log 6). -/
def Obligations.WarmResets : Prop :=
  ∀ (s u : State) (d : ResetDraw), Memory.wf u.eeprom = true →
    ∃ m,
      (u.inFlight = none → m = u.eeprom) ∧
      (∀ e, u.inFlight = some e → OnlyCell u.eeprom m e.addr.toNat d.eeByte) ∧
      let after := fun status : Byte => { u with
        pc := 0x0000, asleep := false, holdOff := false, pclath := 0, status := status
        intcon := u.intcon &&& 0x01, option := 0xFF, trisa := 0x1F, trisb := 0xFF
        eecon1 := if u.wr = true ∨ u.eecon1.getLsbD 3 = true then 0b01000 else 0b00000
        wdt := 0, wdtAge := 0, prescaler := 0, unlock := .locked, tmr0Hold := .none, sp := d.sp
        eeprom := m, inFlight := none }
      (atBoundary s = (u, some (.mclr d)) → step s = .next (after (u.status &&& 0x1F))) ∧
      (atBoundary s = (u, some (.wdtTimeout d)) → u.asleep = false →
        step s = .next (after (u.status &&& 0x0F)))

/-- Power-on reset in full (R231, R232, R236, R237, R46): the state the model starts from has TO = PD = 1;
a power-on gives every x bit and the unknown hidden state the value drawn at it, clears WDT, prescaler and
unlock position, and keeps program memory and the EEPROM. The model's choices: a write in flight leaves an
open byte (log 16), the previous T0CKI level is drawn (log 6), the suppression mark (log 28) and Timer0's
inhibit (log 29) are cleared, the pointer is a draw (log 5). -/
def Obligations.PowerOnReset : Prop :=
  State.reset.status.toNat / 8 = 0b00011 ∧
  ∀ (s u : State) (d : PowerOnDraw), atBoundary s = (u, some (.powerOn d)) → Memory.wf u.eeprom = true →
    ∃ ram stack eeprom,
      (∀ a, Memory.read ram a =
        if 0x0C ≤ a ∧ a ≤ u.cfg.device.gprLast then d.gpr.getD (a - 0x0C) 0 else 0) ∧
      (∀ k, Memory.read stack k = if k < 8 then d.stack.getD k 0 else 0) ∧
      (u.inFlight = none → eeprom = u.eeprom) ∧
      (∀ e, u.inFlight = some e → OnlyCell u.eeprom eeprom e.addr.toNat d.eeByte) ∧
      step s = .next { u with
        pc := 0x0000, asleep := false, holdOff := false, pclath := 0
        status := BitVec.ofNat 8 (0x18 + d.flags.toNat)
        intcon := if d.rbif then 0x01 else 0x00
        option := 0xFF, trisa := 0x1F, trisb := 0xFF
        eecon1 := if d.wrerr then 0b01000 else 0b00000
        w := d.w, tmr0 := d.tmr0, fsr := d.fsr, latchA := d.latchA, latchB := d.latchB
        eedata := d.eedata, eeadr := d.eeadr, ram := ram, stack := stack, sp := d.sp
        wdt := 0, wdtAge := 0, prescaler := 0, unlock := .locked, tmr0Hold := .none
        lastRB := d.lastRB, prevRB0 := d.prevRB0, prevT0cki := d.prevT0cki
        eeprom := eeprom, inFlight := none }

/-! ### Timer0 and the pins -/

/-- Timer0 in the `exact` model on the instruction clock (R196, R198): n cycles count n ticks, straight
into TMR0 with PSA = 1, through the prescaler with PSA = 0; T0IF is set exactly on an overflow, and
nothing else changes. That the increment falls where the running prescaler count reaches a multiple of
the ratio is the model's reading (log 21); R196 gives the ratio only. Counter mode is in PinFlags. -/
def Obligations.ExactTimerCounts : Prop :=
  ∀ (n : Nat) (s : State), s.option.getLsbD 5 = false → s.tmr0Hold = .none →
    let ratio := 2 ^ (s.option.toNat % 8 + 1)
    let k := if s.option.getLsbD 3 then n else (s.prescaler.toNat % ratio + n) / ratio
    tmr0Cycles n s = { s with
      tmr0 := BitVec.ofNat 8 (s.tmr0.toNat + k)
      prescaler := if s.option.getLsbD 3 then s.prescaler else BitVec.ofNat 8 (s.prescaler.toNat + n)
      intcon := if s.tmr0.toNat + k > 255 then s.intcon ||| 0x04 else s.intcon }

/-- The ticks of an instruction in the `exact` model are its cycles (R196), and in the `free` model it
counts none (R195). That they are counted after the instruction, under the OPTION it leaves, is the
model's choice (log 24). -/
def Obligations.TimerTicksPerInstruction : Prop :=
  ∀ (i : Instr) (s u t : State), atBoundary s = (u, none) → u.asleep = false → u.intDue = false →
    decode (fetch u) = .ok i → exec i { u with holdOff := false } = .next t →
    (u.cfg.tmr0Model = .free → step s = .next t) ∧
    (u.cfg.tmr0Model = .exact → t.tmr0Hold ≠ .written →
      step s = .next (tmr0Cycles (t.cycles - u.cycles) t))

/-- A write of TMR0 (R197): it stores the value, clears the prescaler where assigned to Timer0, sets no
overflow flag, and in the `exact` model holds the count for the two cycles that follow. That the writing
instruction's own cycles count no tick for every form, CLRF and MOVWF too, is the model's reading (log
21): R197 says it of the read-modify-write forms. -/
def Obligations.Tmr0Write : Prop :=
  ∀ (op : FileOp) (f : Nat) (s : State), s.loc (ea s f) = .tmr0 →
    ∃ h, exec (op.toFile f) s = .next (onBy (op.moves s s.tmr0) { s with
        tmr0 := op.value s s.tmr0
        prescaler := if s.option.getLsbD 3 then s.prescaler else 0
        status := op.statusAfter s s.tmr0
        tmr0Hold := h }) ∧
      (s.cfg.tmr0Model = .free → h = s.tmr0Hold) ∧
      (s.cfg.tmr0Model = .exact → ∀ t, exec (op.toFile f) s = .next t →
        (timer0After s t).tmr0 = op.value s s.tmr0 ∧ (timer0After s t).intcon = s.intcon ∧
        (tmr0Cycles 2 (timer0After s t)).tmr0 = op.value s s.tmr0)

/-- Timer0 as a free agent (R195): awake it may add any amount modulo 256, setting T0IF exactly when the
count passes FFh; asleep, or in the `exact` model, it does nothing. That it does nothing asleep and sets
the prescaler, where assigned to Timer0, to any count is the model's choice (log 23). -/
def Obligations.FreeTimerMoves : Prop :=
  ∀ (s : State) (n : Nat) (p : Byte),
    (s.cfg.tmr0Model = .free → s.asleep = false → applyEvent s (.timer0 n p) = { s with
      tmr0 := BitVec.ofNat 8 (s.tmr0.toNat + n)
      intcon := if s.tmr0.toNat + n > 255 then s.intcon ||| 0x04 else s.intcon
      prescaler := if s.option.getLsbD 3 then s.prescaler else p }) ∧
    (s.cfg.tmr0Model = .exact ∨ s.asleep = true → applyEvent s (.timer0 n p) = s)

/-- The pin levels (R216, R219), pin by pin: an output pin shows its latch, but RA4 with its latch at 1
does not drive; an input shows the environment's level, or 1 where it is undriven under the pull-ups. -/
def Obligations.PinLevels : Prop :=
  ∀ (s : State) (i : Nat),
    (i < 5 → (pinA s).getLsbD i =
      if s.trisa.getLsbD i = false ∧ ¬ (i = 4 ∧ s.latchA.getLsbD 4 = true) then s.latchA.getLsbD i
      else s.envA.getLsbD i) ∧
    (i < 8 → (pinB s).getLsbD i =
      if s.trisb.getLsbD i = false then s.latchB.getLsbD i
      else if s.option.getLsbD 7 = false ∧ s.undrivenB.getLsbD i = true then true
      else s.envB.getLsbD i)

/-- Sampling the pins (R218, R219, R199): INTF is set by the edge of RB0 that INTEDG selects, RBIF by a
difference on an input among RB7 to RB4 from the level last read; a flag already set stays set; in the
`exact` model with T0CS = 1, awake, the edge of RA4/T0CKI that T0SE selects is a tick, through the
prescaler where PSA assigns it to Timer0. Nothing else changes. And what a boundary does (R181, R214): the
pins are sampled, then the queued events happen in order, a pin move being sampled again, and a queued
power-on or MCLR takes the step over; with nothing queued the pins are only sampled. The model's choices:
the queue (log 8), when the pins are sampled (log 26), the tick at once (log 22), the inhibit's effect and
the place of the increment (log 21), an edge asleep lost (log 34), the WDT counter's free move (log 25). -/
def Obligations.PinFlags : Prop :=
  (∀ s : State,
    let t := samplePins s
    let rb0 := (pinB s).getLsbD 0
    let edge := if s.option.getLsbD 6 then !s.prevRB0 && rb0 else s.prevRB0 && !rb0
    let change := ∃ i, i < 4 ∧ s.trisb.getLsbD (4 + i) = true ∧
      (pinB s).getLsbD (4 + i) ≠ s.lastRB.getLsbD i
    let ra4 := (pinA s).getLsbD 4
    let clocks := if s.option.getLsbD 4 then s.prevT0cki && !ra4 else !s.prevT0cki && ra4
    let ticks := decide (s.cfg.tmr0Model = .exact) && s.option.getLsbD 5 && clocks && !s.asleep
    let scaled := !s.option.getLsbD 3
    let up := ticks && decide (s.tmr0Hold = .none) &&
      (!scaled || decide ((s.prescaler.toNat + 1) % 2 ^ (s.option.toNat % 8 + 1) = 0))
    (t.intcon.getLsbD 1 = true ↔ s.intcon.getLsbD 1 = true ∨ edge = true) ∧
    (t.intcon.getLsbD 0 = true ↔ s.intcon.getLsbD 0 = true ∨ change) ∧
    (t.intcon.getLsbD 2 = true ↔ s.intcon.getLsbD 2 = true ∨ (up = true ∧ s.tmr0 = 0xFF)) ∧
    (∀ j, 3 ≤ j → t.intcon.getLsbD j = s.intcon.getLsbD j) ∧
    t = { s with
      intcon := t.intcon, prevRB0 := rb0, prevT0cki := ra4
      tmr0 := if up then s.tmr0 + 1 else s.tmr0
      prescaler := if ticks && scaled then s.prescaler + 1 else s.prescaler }) ∧
  (∀ s : State, s.inputs = [] → atBoundary s = (samplePins s, none)) ∧
  (∀ (s : State) (b : Boundary) (rest : List Boundary), s.inputs = b :: rest →
    (atBoundary s).1 = b.events.foldl applyEvent (samplePins { s with inputs := rest }) ∧
    (b.takeover = none → (atBoundary s).2 = none) ∧
    (∀ d, b.takeover = some (.powerOn d) → (atBoundary s).2 = some (.powerOn d)) ∧
    ∀ d, b.takeover = some (.mclr d) → (atBoundary s).2 = some (.mclr d)) ∧
  ∀ s : State,
    (∀ a b undriven, applyEvent s (.pins a b undriven) =
      samplePins { s with envA := a, envB := b, undrivenB := undriven }) ∧
    ∀ counter count, applyEvent s (.wdtClock counter count) =
      if s.cfg.wdtEnabled then
        { s with wdt := counter, prescaler := if s.option.getLsbD 3 then count else s.prescaler }
      else s

/-- A read of PORTB ends the change mismatch (R72, R219); CLRF and MOVWF do not read it (D20). -/
def Obligations.PortbReadEndsMismatch : Prop :=
  ∀ (f b : Nat) (s : State), s.loc (ea s f) = .portb →
    (∃ t, exec (.btfsc f b) s = .next t ∧ t.portChange = false) ∧
    (∃ t, exec (.btfss f b) s = .next t ∧ t.portChange = false) ∧
    (∀ (op : FileOp) (i : Instr), op.toW f = some i →
      ∃ t, exec i s = .next t ∧ t.portChange = false) ∧
    (∀ op : FileOp, ∃ t, exec (op.toFile f) s = .next t ∧
      t.lastRB = if op.reads then (pinB s).extractLsb' 4 4 else s.lastRB)

/-! ### The whole machine -/

/-- TO and PD are read-only to instructions (R22, R23): only CLRWDT and SLEEP change them. -/
def Obligations.OnlyClrwdtAndSleepChangeToPd : Prop :=
  ∀ (i : Instr) (s t : State), exec i s = .next t → i ≠ .clrwdt → i ≠ .sleep →
    t.status.getLsbD 4 = s.status.getLsbD 4 ∧ t.status.getLsbD 3 = s.status.getLsbD 3

/-- R13: PCLATH changes by no instruction except one that names 0Ah/8Ah as its destination, and by no
interrupt entry. -/
def Obligations.PclathOnlyByDestination : Prop :=
  (∀ (i : Instr) (s t : State), exec i s = .next t → t.pclath ≠ s.pclath →
    ∃ (op : FileOp) (f : Nat), i = op.toFile f ∧ s.loc (ea s f) = .pclath) ∧
  ∀ s : State, (interruptEntry s).pclath = s.pclath

/-- The return stack is reached by CALL, RETURN, RETLW, RETFIE and the interrupt entry only (R60, R17):
every other instruction leaves it and its pointer alone, and only CALL writes an entry. -/
def Obligations.StackOnlyByCallAndReturns : Prop :=
  ∀ (i : Instr) (s t : State), exec i s = .next t →
    ((∀ k, i ≠ .call k) → t.stack = s.stack) ∧
    ((∀ k, i ≠ .call k) → i ≠ .return_ → i ≠ .retfie → (∀ k, i ≠ .retlw k) → t.sp = s.sp)

/-- What no instruction changes: the program, the parameters, the EEPROM array itself, the environment's
levels and moves, the pin samples; and only SLEEP puts the CPU to sleep. -/
def Obligations.InstructionFrame : Prop :=
  ∀ (i : Instr) (s t : State), exec i s = .next t →
    t.prog = s.prog ∧ t.cfg = s.cfg ∧ t.eeprom = s.eeprom ∧ t.envA = s.envA ∧ t.envB = s.envB ∧
    t.undrivenB = s.undrivenB ∧ t.inputs = s.inputs ∧ t.prevRB0 = s.prevRB0 ∧
    t.prevT0cki = s.prevT0cki ∧ t.holdOff = s.holdOff ∧ (i ≠ .sleep → t.asleep = s.asleep)

/-- R79, which the spec derives from R78: program memory is immutable during a run; so are the parameters
of the machine. -/
def Obligations.ProgramMemoryIsImmutable : Prop :=
  ∀ s t : State, step s = .next t → t.prog = s.prog ∧ t.cfg = s.cfg

/-- The invariant (canonical memories within the implemented addresses, RD = 0, WR exactly while a write
is in flight, TO = 1 and PD = 0 while asleep) is kept by every step, from every state that has it. -/
def Obligations.EveryStepKeepsInv : Prop := ∀ s t : State, s.Inv → step s = .next t → t.Inv

/-- The invariant holds after reset. -/
def Obligations.InvHoldsAtReset : Prop := State.reset.Inv
end

