-- ==== Sys2Proof/Laws/Bits.lean ====
section
/-! SUPPORT. The bits of what `putBit`, the flag logic and the masked write of STATUS make. -/

namespace Sys2Proof.Machine

theorem getLsbD_one_shiftLeft {n : Nat} (i j : Nat) :
    (1#n <<< i).getLsbD j = decide (j < n ∧ j = i) := by
  rw [BitVec.getLsbD_shiftLeft, BitVec.getLsbD_one]
  by_cases hj : j < n <;> by_cases hij : j < i <;> by_cases he : j = i <;> simp_all <;> omega

/-- One bit set, the others kept. -/
theorem getLsbD_putBit {n : Nat} (v : BitVec n) (i j : Nat) (b : Bool) :
    (putBit v i b).getLsbD j = if j < n ∧ j = i then b else v.getLsbD j := by
  have outside (hj : ¬ j < n) (x : BitVec n) : x.getLsbD j = false :=
    BitVec.getLsbD_of_ge x j (Nat.le_of_not_lt hj)
  unfold putBit
  by_cases hj : j < n
  · cases b <;> simp only [Bool.false_eq_true, if_false, if_true, BitVec.getLsbD_and, BitVec.getLsbD_or,
      BitVec.getLsbD_not, getLsbD_one_shiftLeft] <;> by_cases he : j = i <;> simp [hj, he]
    all_goals (subst he; simp [hj])
  · rw [outside hj, outside hj, if_neg (fun e => hj e.1)]

/-- The bit that was put. -/
theorem getLsbD_putBit_self {n : Nat} (v : BitVec n) {i : Nat} (b : Bool) (h : i < n) :
    (putBit v i b).getLsbD i = b := by rw [getLsbD_putBit, if_pos ⟨h, rfl⟩]

/-- Any other bit. -/
theorem getLsbD_putBit_ne {n : Nat} (v : BitVec n) {i j : Nat} (b : Bool) (h : j ≠ i) :
    (putBit v i b).getLsbD j = v.getLsbD j := by rw [getLsbD_putBit, if_neg (fun e => h e.2)]

theorem getLsbD_putFlag (v : Byte) (i j : Nat) (o : Option Bool) :
    (putFlag v i o).getLsbD j = if j < 8 ∧ j = i then o.getD (v.getLsbD j) else v.getLsbD j := by
  cases o with
  | none => simp [putFlag]
  | some b => simp [putFlag, getLsbD_putBit]

/-- The flag logic bit by bit: C is bit 0, DC bit 1, Z bit 2, and nothing else changes (R22, R24). -/
theorem getLsbD_onStatus (u : FlagUpdate) (v : Byte) (j : Nat) :
    (u.onStatus v).getLsbD j =
      if j = 0 then u.c.getD (v.getLsbD 0) else if j = 1 then u.dc.getD (v.getLsbD 1)
      else if j = 2 then u.z.getD (v.getLsbD 2) else v.getLsbD j := by
  simp only [FlagUpdate.onStatus, getLsbD_putFlag]
  by_cases h0 : j = 0
  · subst h0; simp
  · by_cases h1 : j = 1
    · subst h1; simp
    · by_cases h2 : j = 2
      · subst h2; simp
      · simp [h0, h1, h2]

/-- A flag update that affects nothing changes nothing. -/
theorem onStatus_of_affectsNone {u : FlagUpdate} (h : u.affectsNone = true) (v : Byte) :
    u.onStatus v = v := by
  obtain ⟨z, dc, c⟩ := u
  cases z <;> cases dc <;> cases c <;> simp_all [FlagUpdate.affectsNone, FlagUpdate.onStatus, putFlag]


/-- The masked write of STATUS bit by bit (R23). -/
theorem getLsbD_statusWrite (old v : Byte) (n : Bool) (j : Nat) (hj : j < 8) :
    (statusWrite old v n).getLsbD j =
      if 5 ≤ j then v.getLsbD j
      else if 3 ≤ j then old.getLsbD j else if n then v.getLsbD j else old.getLsbD j := by
  interval_cases j <;> cases n <;> simp [statusWrite]

/-- No instruction writes TO or PD through STATUS (R23). -/
theorem statusWrite_toPd (old v : Byte) (n : Bool) :
    (statusWrite old v n).getLsbD 4 = old.getLsbD 4 ∧ (statusWrite old v n).getLsbD 3 = old.getLsbD 3 := by
  rw [getLsbD_statusWrite _ _ _ 4 (by omega), getLsbD_statusWrite _ _ _ 3 (by omega)]
  exact ⟨rfl, rfl⟩

end Sys2Proof.Machine
end

