-- ==== Sys2Proof/Laws/Encoding.lean ====
section
/-! SUPPORT. The fields of the four layouts of R91 to R94. -/

namespace Sys2Proof

theorem destBit_le (d : Dest) : destBit d ≤ 1 := by cases d <;> decide

theorem toNat_byteWord {op : Nat} (h : op < 64) (f : Nat) (d : Dest) :
    (byteWord op f d).toNat = op * 256 + destBit d * 128 + f % 128 := by
  have := destBit_le d
  rw [byteWord, BitVec.toNat_ofNat, Nat.mod_eq_of_lt (by omega)]

theorem toNat_bitWord {op : Nat} (h : op < 16) (f b : Nat) :
    (bitWord op f b).toNat = op * 1024 + b % 8 * 128 + f % 128 := by
  rw [bitWord, BitVec.toNat_ofNat, Nat.mod_eq_of_lt (by omega)]

theorem toNat_literalWord {op : Nat} (h : op < 64) (k : Nat) :
    (literalWord op k).toNat = op * 256 + k % 256 := by
  rw [literalWord, BitVec.toNat_ofNat, Nat.mod_eq_of_lt (by omega)]

theorem toNat_targetWord {op : Nat} (h : op < 8) (k : Nat) :
    (targetWord op k).toNat = op * 2048 + k % 2048 := by
  rw [targetWord, BitVec.toNat_ofNat, Nat.mod_eq_of_lt (by omega)]

/-- Bits 13-8 of the byte-oriented layout (R91). -/
theorem byteWord_opcode {op : Nat} (h : op < 64) (f : Nat) (d : Dest) :
    field (byteWord op f d) 13 8 = op := by
  have := destBit_le d
  rw [field, toNat_byteWord h]
  simp only [Nat.reducePow, Nat.reduceAdd, Nat.reduceSub]
  omega

/-- Bits 13-7 where the d bit is fixed at 1 (R91). -/
theorem byteWord_file_opcode {op : Nat} (h : op < 64) (f : Nat) :
    field (byteWord op f .f) 13 7 = op * 2 + 1 := by
  rw [field, toNat_byteWord h]
  simp only [Nat.reducePow, Nat.reduceAdd, Nat.reduceSub, destBit]
  omega

/-- d and f of the byte-oriented layout (R91). -/
theorem byteWord_operands {op : Nat} (h : op < 64) (f : Nat) (d : Dest) :
    fieldD (byteWord op f d) = d ∧ fieldF (byteWord op f d) = f % 128 := by
  have := destBit_le d
  have hd : field (byteWord op f d) 7 7 = destBit d := by
    rw [field, toNat_byteWord h]
    simp only [Nat.reducePow, Nat.reduceAdd, Nat.reduceSub]
    omega
  have hf : fieldF (byteWord op f d) = f % 128 := by
    rw [fieldF, field, toNat_byteWord h]
    simp only [Nat.reducePow, Nat.reduceAdd, Nat.reduceSub]
    omega
  refine ⟨?_, hf⟩
  rw [fieldD, hd]
  cases d <;> rfl

/-- Bits 13-10 of the bit-oriented layout (R92). -/
theorem bitWord_opcode {op : Nat} (h : op < 16) (f b : Nat) : field (bitWord op f b) 13 10 = op := by
  rw [field, toNat_bitWord h]
  simp only [Nat.reducePow, Nat.reduceAdd, Nat.reduceSub]
  omega

/-- b and f of the bit-oriented layout (R92). -/
theorem bitWord_operands {op : Nat} (h : op < 16) (f b : Nat) :
    fieldB (bitWord op f b) = b % 8 ∧ fieldF (bitWord op f b) = f % 128 := by
  constructor
  · rw [fieldB, field, toNat_bitWord h]
    simp only [Nat.reducePow, Nat.reduceAdd, Nat.reduceSub]
    omega
  · rw [fieldF, field, toNat_bitWord h]
    simp only [Nat.reducePow, Nat.reduceAdd, Nat.reduceSub]
    omega

/-- The opcode of the literal layout from bit `lo` (8, 9 or 10) up, don't-care bits at 0 (R93, R98). -/
theorem literalWord_opcode {op lo : Nat} (h : op < 64) (h8 : 8 ≤ lo) (h10 : lo ≤ 10) (k : Nat) :
    field (literalWord op k) 13 lo = op / 2 ^ (lo - 8) := by
  rw [field, toNat_literalWord h]
  interval_cases lo <;> simp only [Nat.reducePow, Nat.reduceAdd, Nat.reduceSub] <;> omega

/-- k of the literal layout (R93). -/
theorem literalWord_operand {op : Nat} (h : op < 64) (k : Nat) : fieldK8 (literalWord op k) = k % 256 := by
  rw [fieldK8, field, toNat_literalWord h]
  simp only [Nat.reducePow, Nat.reduceAdd, Nat.reduceSub]
  omega

/-- Bits 13-11 of the CALL and GOTO layout (R94). -/
theorem targetWord_opcode {op : Nat} (h : op < 8) (k : Nat) : field (targetWord op k) 13 11 = op := by
  rw [field, toNat_targetWord h]
  simp only [Nat.reducePow, Nat.reduceAdd, Nat.reduceSub]
  omega

/-- k of the CALL and GOTO layout (R94). -/
theorem targetWord_operand {op : Nat} (h : op < 8) (k : Nat) : fieldK11 (targetWord op k) = k % 2048 := by
  rw [fieldK11, field, toNat_targetWord h]
  simp only [Nat.reducePow, Nat.reduceAdd, Nat.reduceSub]
  omega

end Sys2Proof
end

