-- ==== Sys2Proof/Laws/Memory.lean ====
section
/-! SUPPORT. The laws of the sparse memories: read after write, and that every operation keeps the
canonical form. -/

namespace Sys2Proof

variable {n : Nat}

@[simp] theorem Memory.read_nil (a : Nat) : Memory.read ([] : Memory n) a = 0#n := rfl

theorem Memory.read_cons (k : Nat) (x : BitVec n) (m : Memory n) (a : Nat) :
    Memory.read ((k, x) :: m) a = if k = a then x else Memory.read m a := rfl

/-- The canonical form, unfolded by one cell. -/
theorem Memory.wf_cons (k : Nat) (x : BitVec n) (m : Memory n) :
    Memory.wf ((k, x) :: m) = true ↔ x ≠ 0#n ∧ (∀ c ∈ m, k < c.1) ∧ Memory.wf m = true := by
  simp [Memory.wf, and_assoc]

/-- A canonical memory reads 0 below its first address. -/
theorem Memory.read_of_lt {m : Memory n} {a : Nat} (h : ∀ c ∈ m, a < c.1) : Memory.read m a = 0#n := by
  induction m with
  | nil => rfl
  | cons c m ih =>
    obtain ⟨k, x⟩ := c
    have hk : a < k := h (k, x) (by simp)
    rw [Memory.read_cons, if_neg (by omega)]
    exact ih fun c hc => h c (by simp [hc])

/-- Read after write, both cases, in a canonical memory. -/
theorem Memory.read_write {m : Memory n} (hm : Memory.wf m = true) (a b : Nat) (v : BitVec n) :
    Memory.read (Memory.write m a v) b = if a = b then v else Memory.read m b := by
  induction m with
  | nil => by_cases hv : v = 0#n <;> simp [Memory.write, hv, Memory.read_cons]
  | cons c m ih =>
    obtain ⟨k, x⟩ := c
    obtain ⟨-, hlt, hwf⟩ := (Memory.wf_cons k x m).mp hm
    simp only [Memory.write]
    split
    · rename_i hak
      have h0 : Memory.read ((k, x) :: m) a = 0#n := by
        apply Memory.read_of_lt
        intro c hc
        rcases List.mem_cons.mp hc with rfl | hc
        · exact hak
        · exact Nat.lt_trans hak (hlt c hc)
      by_cases hab : a = b
      · subst hab
        by_cases hv : v = 0#n
        · simp only [hv, if_true]; exact h0
        · simp [hv, Memory.read_cons]
      · by_cases hv : v = 0#n <;> simp [hv, hab, Memory.read_cons]
    · split
      · rename_i _ hak
        subst hak
        have h0 : Memory.read m a = 0#n := Memory.read_of_lt hlt
        by_cases hab : a = b
        · subst hab
          by_cases hv : v = 0#n
          · simp only [hv, if_true]; exact h0
          · simp [hv, Memory.read_cons]
        · by_cases hv : v = 0#n <;> simp [hv, hab, Memory.read_cons]
      · rename_i _ hne
        by_cases hkb : k = b
        · subst hkb; simp [Memory.read_cons, hne]
        · simp [Memory.read_cons, hkb, ih hwf]

/-- What is written is read back. -/
theorem Memory.read_write_same {m : Memory n} (hm : Memory.wf m = true) (a : Nat) (v : BitVec n) :
    Memory.read (Memory.write m a v) a = v := by simp [Memory.read_write hm]

/-- A write leaves every other address alone. -/
theorem Memory.read_write_other {m : Memory n} (hm : Memory.wf m = true) {a b : Nat} (h : a ≠ b)
    (v : BitVec n) : Memory.read (Memory.write m a v) b = Memory.read m b := by
  simp [Memory.read_write hm, h]

/-- The addresses a write can leave listed. -/
theorem Memory.mem_write {m : Memory n} {a : Nat} {v : BitVec n} {c : Nat × BitVec n}
    (h : c ∈ Memory.write m a v) : c = (a, v) ∨ c ∈ m := by
  induction m with
  | nil =>
    by_cases hv : v = 0#n
    · simp [Memory.write, hv] at h
    · simpa [Memory.write, hv] using h
  | cons d m ih =>
    obtain ⟨k, x⟩ := d
    simp only [Memory.write] at h
    split at h
    · by_cases hv : v = 0#n
      · exact .inr (by simpa [hv] using h)
      · simpa [hv] using h
    · split at h
      · by_cases hv : v = 0#n
        · exact .inr (by simp [hv] at h; simp [h])
        · simp [hv] at h
          rcases h with h | h <;> simp [h]
      · rcases List.mem_cons.mp h with h | h
        · simp [h]
        · rcases ih h with h | h <;> simp [h]

/-- A write keeps the canonical form. -/
theorem Memory.wf_write {m : Memory n} (hm : Memory.wf m = true) (a : Nat) (v : BitVec n) :
    Memory.wf (Memory.write m a v) = true := by
  induction m with
  | nil => by_cases hv : v = 0#n <;> simp [Memory.write, Memory.wf, hv]
  | cons c m ih =>
    obtain ⟨k, x⟩ := c
    obtain ⟨hx, hlt, hwf⟩ := (Memory.wf_cons k x m).mp hm
    simp only [Memory.write]
    split
    · rename_i hak
      by_cases hv : v = 0#n
      · simpa [hv] using hm
      · simp only [hv, if_false]
        refine (Memory.wf_cons _ _ _).mpr ⟨hv, ?_, hm⟩
        intro c hc
        rcases List.mem_cons.mp hc with rfl | hc
        · exact hak
        · exact Nat.lt_trans hak (hlt c hc)
    · split
      · rename_i _ hak
        subst hak
        by_cases hv : v = 0#n
        · simpa [hv] using hwf
        · simp only [hv, if_false]
          exact (Memory.wf_cons _ _ _).mpr ⟨hv, hlt, hwf⟩
      · rename_i hnl hne
        refine (Memory.wf_cons _ _ _).mpr ⟨hx, ?_, ih hwf⟩
        intro c hc
        rcases Memory.mem_write hc with rfl | hc
        · show k < a
          omega
        · exact hlt c hc

/-- A write inside a range keeps the listed addresses in the range. -/
theorem Memory.within_write {m : Memory n} {lo hi a : Nat} (hm : Memory.within m lo hi = true)
    (hlo : lo ≤ a) (hhi : a ≤ hi) (v : BitVec n) :
    Memory.within (Memory.write m a v) lo hi = true := by
  simp only [Memory.within, List.all_eq_true] at hm ⊢
  intro c hc
  rcases Memory.mem_write hc with rfl | hc
  · simp [hlo, hhi]
  · exact hm c hc

/-- Filling keeps the canonical form. -/
theorem Memory.wf_fill (vs : List (BitVec n)) :
    ∀ {m : Memory n}, Memory.wf m = true → ∀ a, Memory.wf (Memory.fill m a vs) = true := by
  induction vs with
  | nil => intro m hm a; exact hm
  | cons v vs ih => intro m hm a; exact ih (Memory.wf_write hm a v) (a + 1)

/-- Filling a range that fits keeps the listed addresses in it. -/
theorem Memory.within_fill (vs : List (BitVec n)) {lo hi : Nat} :
    ∀ {m : Memory n}, Memory.within m lo hi = true → ∀ a, lo ≤ a → a + vs.length ≤ hi + 1 →
      Memory.within (Memory.fill m a vs) lo hi = true := by
  induction vs with
  | nil => intro m hm a _ _; exact hm
  | cons v vs ih =>
    intro m hm a ha hlen
    simp only [List.length_cons] at hlen
    exact ih (Memory.within_write hm ha (by omega) v) (a + 1) (by omega) (by omega)

/-- Two canonical memories that read alike are the same data. -/
theorem Memory.ext_of_read {m₁ : Memory n} : ∀ {m₂ : Memory n}, Memory.wf m₁ = true →
    Memory.wf m₂ = true → (∀ a, Memory.read m₁ a = Memory.read m₂ a) → m₁ = m₂ := by
  induction m₁ with
  | nil =>
    intro m₂ _ h2 h
    cases m₂ with
    | nil => rfl
    | cons c m =>
      obtain ⟨k, x⟩ := c
      have := h k
      simp [Memory.read_cons] at this
      exact absurd this.symm ((Memory.wf_cons k x m).mp h2).1
  | cons c m ih =>
    intro m₂ h1 h2 h
    obtain ⟨k, x⟩ := c
    obtain ⟨hx, hlt, hwf⟩ := (Memory.wf_cons k x m).mp h1
    cases m₂ with
    | nil =>
      have := h k
      simp [Memory.read_cons] at this
      exact absurd this hx
    | cons d m' =>
      obtain ⟨k', x'⟩ := d
      obtain ⟨hx', hlt', hwf'⟩ := (Memory.wf_cons k' x' m').mp h2
      have hk : k = k' := by
        rcases Nat.lt_trichotomy k k' with hl | he | hl
        · have hr := h k
          rw [Memory.read_cons, if_pos rfl, Memory.read_of_lt (m := (k', x') :: m')] at hr
          · exact absurd hr hx
          · intro c hc
            rcases List.mem_cons.mp hc with rfl | hc
            · exact hl
            · exact Nat.lt_trans hl (hlt' c hc)
        · exact he
        · have hr := h k'
          rw [Memory.read_cons k' x' m', if_pos rfl, Memory.read_of_lt (m := (k, x) :: m)] at hr
          · exact absurd hr.symm hx'
          · intro c hc
            rcases List.mem_cons.mp hc with rfl | hc
            · exact hl
            · exact Nat.lt_trans hl (hlt c hc)
      subst hk
      have hxx : x = x' := by simpa [Memory.read_cons] using h k
      subst hxx
      have : m = m' := by
        refine ih hwf hwf' fun a => ?_
        by_cases hka : k = a
        · subst hka
          rw [Memory.read_of_lt hlt, Memory.read_of_lt hlt']
        · simpa [Memory.read_cons, hka] using h a
      rw [this]

end Sys2Proof
end

