-- ==== Sys2Proof/Laws/State.lean ====
section
/-! SUPPORT. One lemma per field per update of the state, so that no later proof unfolds a record update. -/

namespace Sys2Proof.Machine

/-! ### `spend` -/

@[simp] theorem spend_cfg (n : Nat) (s : State) : (spend n s).cfg = s.cfg := rfl
@[simp] theorem spend_prog (n : Nat) (s : State) : (spend n s).prog = s.prog := rfl
@[simp] theorem spend_w (n : Nat) (s : State) : (spend n s).w = s.w := rfl
@[simp] theorem spend_pc (n : Nat) (s : State) : (spend n s).pc = s.pc := rfl
@[simp] theorem spend_pclath (n : Nat) (s : State) : (spend n s).pclath = s.pclath := rfl
@[simp] theorem spend_stack (n : Nat) (s : State) : (spend n s).stack = s.stack := rfl
@[simp] theorem spend_sp (n : Nat) (s : State) : (spend n s).sp = s.sp := rfl
@[simp] theorem spend_status (n : Nat) (s : State) : (spend n s).status = s.status := rfl
@[simp] theorem spend_fsr (n : Nat) (s : State) : (spend n s).fsr = s.fsr := rfl
@[simp] theorem spend_tmr0 (n : Nat) (s : State) : (spend n s).tmr0 = s.tmr0 := rfl
@[simp] theorem spend_option (n : Nat) (s : State) : (spend n s).option = s.option := rfl
@[simp] theorem spend_intcon (n : Nat) (s : State) : (spend n s).intcon = s.intcon := rfl
@[simp] theorem spend_latchA (n : Nat) (s : State) : (spend n s).latchA = s.latchA := rfl
@[simp] theorem spend_latchB (n : Nat) (s : State) : (spend n s).latchB = s.latchB := rfl
@[simp] theorem spend_trisa (n : Nat) (s : State) : (spend n s).trisa = s.trisa := rfl
@[simp] theorem spend_trisb (n : Nat) (s : State) : (spend n s).trisb = s.trisb := rfl
@[simp] theorem spend_eedata (n : Nat) (s : State) : (spend n s).eedata = s.eedata := rfl
@[simp] theorem spend_eeadr (n : Nat) (s : State) : (spend n s).eeadr = s.eeadr := rfl
@[simp] theorem spend_eecon1 (n : Nat) (s : State) : (spend n s).eecon1 = s.eecon1 := rfl
@[simp] theorem spend_ram (n : Nat) (s : State) : (spend n s).ram = s.ram := rfl
@[simp] theorem spend_eeprom (n : Nat) (s : State) : (spend n s).eeprom = s.eeprom := rfl
@[simp] theorem spend_prescaler (n : Nat) (s : State) : (spend n s).prescaler = s.prescaler := rfl
@[simp] theorem spend_wdt (n : Nat) (s : State) : (spend n s).wdt = s.wdt := rfl
@[simp] theorem spend_asleep (n : Nat) (s : State) : (spend n s).asleep = s.asleep := rfl
@[simp] theorem spend_holdOff (n : Nat) (s : State) : (spend n s).holdOff = s.holdOff := rfl
@[simp] theorem spend_inFlight (n : Nat) (s : State) : (spend n s).inFlight = s.inFlight := rfl
@[simp] theorem spend_unlock (n : Nat) (s : State) : (spend n s).unlock = s.unlock := rfl
@[simp] theorem spend_lastRB (n : Nat) (s : State) : (spend n s).lastRB = s.lastRB := rfl
@[simp] theorem spend_prevRB0 (n : Nat) (s : State) : (spend n s).prevRB0 = s.prevRB0 := rfl
@[simp] theorem spend_prevT0cki (n : Nat) (s : State) : (spend n s).prevT0cki = s.prevT0cki := rfl
@[simp] theorem spend_tmr0Hold (n : Nat) (s : State) : (spend n s).tmr0Hold = s.tmr0Hold := rfl
@[simp] theorem spend_envA (n : Nat) (s : State) : (spend n s).envA = s.envA := rfl
@[simp] theorem spend_envB (n : Nat) (s : State) : (spend n s).envB = s.envB := rfl
@[simp] theorem spend_undrivenB (n : Nat) (s : State) : (spend n s).undrivenB = s.undrivenB := rfl
@[simp] theorem spend_inputs (n : Nat) (s : State) : (spend n s).inputs = s.inputs := rfl
@[simp] theorem spend_draws (n : Nat) (s : State) : (spend n s).draws = s.draws := rfl
@[simp] theorem spend_cycles (n : Nat) (s : State) : (spend n s).cycles = s.cycles + n := rfl
@[simp] theorem spend_wdtAge (n : Nat) (s : State) : (spend n s).wdtAge = s.wdtAge + n := rfl

/-! ### `advance` -/

@[simp] theorem advance_cfg (s : State) : (advance s).cfg = s.cfg := rfl
@[simp] theorem advance_prog (s : State) : (advance s).prog = s.prog := rfl
@[simp] theorem advance_w (s : State) : (advance s).w = s.w := rfl
@[simp] theorem advance_pc (s : State) : (advance s).pc = s.pc + 1 := rfl
@[simp] theorem advance_pclath (s : State) : (advance s).pclath = s.pclath := rfl
@[simp] theorem advance_stack (s : State) : (advance s).stack = s.stack := rfl
@[simp] theorem advance_sp (s : State) : (advance s).sp = s.sp := rfl
@[simp] theorem advance_status (s : State) : (advance s).status = s.status := rfl
@[simp] theorem advance_fsr (s : State) : (advance s).fsr = s.fsr := rfl
@[simp] theorem advance_tmr0 (s : State) : (advance s).tmr0 = s.tmr0 := rfl
@[simp] theorem advance_option (s : State) : (advance s).option = s.option := rfl
@[simp] theorem advance_intcon (s : State) : (advance s).intcon = s.intcon := rfl
@[simp] theorem advance_latchA (s : State) : (advance s).latchA = s.latchA := rfl
@[simp] theorem advance_latchB (s : State) : (advance s).latchB = s.latchB := rfl
@[simp] theorem advance_trisa (s : State) : (advance s).trisa = s.trisa := rfl
@[simp] theorem advance_trisb (s : State) : (advance s).trisb = s.trisb := rfl
@[simp] theorem advance_eedata (s : State) : (advance s).eedata = s.eedata := rfl
@[simp] theorem advance_eeadr (s : State) : (advance s).eeadr = s.eeadr := rfl
@[simp] theorem advance_eecon1 (s : State) : (advance s).eecon1 = s.eecon1 := rfl
@[simp] theorem advance_ram (s : State) : (advance s).ram = s.ram := rfl
@[simp] theorem advance_eeprom (s : State) : (advance s).eeprom = s.eeprom := rfl
@[simp] theorem advance_prescaler (s : State) : (advance s).prescaler = s.prescaler := rfl
@[simp] theorem advance_wdt (s : State) : (advance s).wdt = s.wdt := rfl
@[simp] theorem advance_asleep (s : State) : (advance s).asleep = s.asleep := rfl
@[simp] theorem advance_holdOff (s : State) : (advance s).holdOff = s.holdOff := rfl
@[simp] theorem advance_inFlight (s : State) : (advance s).inFlight = s.inFlight := rfl
@[simp] theorem advance_unlock (s : State) : (advance s).unlock = s.unlock := rfl
@[simp] theorem advance_lastRB (s : State) : (advance s).lastRB = s.lastRB := rfl
@[simp] theorem advance_prevRB0 (s : State) : (advance s).prevRB0 = s.prevRB0 := rfl
@[simp] theorem advance_prevT0cki (s : State) : (advance s).prevT0cki = s.prevT0cki := rfl
@[simp] theorem advance_tmr0Hold (s : State) : (advance s).tmr0Hold = s.tmr0Hold := rfl
@[simp] theorem advance_envA (s : State) : (advance s).envA = s.envA := rfl
@[simp] theorem advance_envB (s : State) : (advance s).envB = s.envB := rfl
@[simp] theorem advance_undrivenB (s : State) : (advance s).undrivenB = s.undrivenB := rfl
@[simp] theorem advance_inputs (s : State) : (advance s).inputs = s.inputs := rfl
@[simp] theorem advance_draws (s : State) : (advance s).draws = s.draws := rfl
@[simp] theorem advance_cycles (s : State) : (advance s).cycles = s.cycles + 1 := rfl
@[simp] theorem advance_wdtAge (s : State) : (advance s).wdtAge = s.wdtAge + 1 := rfl

/-! ### `skipNext` -/

@[simp] theorem skipNext_cfg (s : State) : (skipNext s).cfg = s.cfg := rfl
@[simp] theorem skipNext_prog (s : State) : (skipNext s).prog = s.prog := rfl
@[simp] theorem skipNext_w (s : State) : (skipNext s).w = s.w := rfl
@[simp] theorem skipNext_pc (s : State) : (skipNext s).pc = s.pc + 2 := rfl
@[simp] theorem skipNext_pclath (s : State) : (skipNext s).pclath = s.pclath := rfl
@[simp] theorem skipNext_stack (s : State) : (skipNext s).stack = s.stack := rfl
@[simp] theorem skipNext_sp (s : State) : (skipNext s).sp = s.sp := rfl
@[simp] theorem skipNext_status (s : State) : (skipNext s).status = s.status := rfl
@[simp] theorem skipNext_fsr (s : State) : (skipNext s).fsr = s.fsr := rfl
@[simp] theorem skipNext_tmr0 (s : State) : (skipNext s).tmr0 = s.tmr0 := rfl
@[simp] theorem skipNext_option (s : State) : (skipNext s).option = s.option := rfl
@[simp] theorem skipNext_intcon (s : State) : (skipNext s).intcon = s.intcon := rfl
@[simp] theorem skipNext_latchA (s : State) : (skipNext s).latchA = s.latchA := rfl
@[simp] theorem skipNext_latchB (s : State) : (skipNext s).latchB = s.latchB := rfl
@[simp] theorem skipNext_trisa (s : State) : (skipNext s).trisa = s.trisa := rfl
@[simp] theorem skipNext_trisb (s : State) : (skipNext s).trisb = s.trisb := rfl
@[simp] theorem skipNext_eedata (s : State) : (skipNext s).eedata = s.eedata := rfl
@[simp] theorem skipNext_eeadr (s : State) : (skipNext s).eeadr = s.eeadr := rfl
@[simp] theorem skipNext_eecon1 (s : State) : (skipNext s).eecon1 = s.eecon1 := rfl
@[simp] theorem skipNext_ram (s : State) : (skipNext s).ram = s.ram := rfl
@[simp] theorem skipNext_eeprom (s : State) : (skipNext s).eeprom = s.eeprom := rfl
@[simp] theorem skipNext_prescaler (s : State) : (skipNext s).prescaler = s.prescaler := rfl
@[simp] theorem skipNext_wdt (s : State) : (skipNext s).wdt = s.wdt := rfl
@[simp] theorem skipNext_asleep (s : State) : (skipNext s).asleep = s.asleep := rfl
@[simp] theorem skipNext_holdOff (s : State) : (skipNext s).holdOff = s.holdOff := rfl
@[simp] theorem skipNext_inFlight (s : State) : (skipNext s).inFlight = s.inFlight := rfl
@[simp] theorem skipNext_unlock (s : State) : (skipNext s).unlock = s.unlock := rfl
@[simp] theorem skipNext_lastRB (s : State) : (skipNext s).lastRB = s.lastRB := rfl
@[simp] theorem skipNext_prevRB0 (s : State) : (skipNext s).prevRB0 = s.prevRB0 := rfl
@[simp] theorem skipNext_prevT0cki (s : State) : (skipNext s).prevT0cki = s.prevT0cki := rfl
@[simp] theorem skipNext_tmr0Hold (s : State) : (skipNext s).tmr0Hold = s.tmr0Hold := rfl
@[simp] theorem skipNext_envA (s : State) : (skipNext s).envA = s.envA := rfl
@[simp] theorem skipNext_envB (s : State) : (skipNext s).envB = s.envB := rfl
@[simp] theorem skipNext_undrivenB (s : State) : (skipNext s).undrivenB = s.undrivenB := rfl
@[simp] theorem skipNext_inputs (s : State) : (skipNext s).inputs = s.inputs := rfl
@[simp] theorem skipNext_draws (s : State) : (skipNext s).draws = s.draws := rfl
@[simp] theorem skipNext_cycles (s : State) : (skipNext s).cycles = s.cycles + 2 := rfl
@[simp] theorem skipNext_wdtAge (s : State) : (skipNext s).wdtAge = s.wdtAge + 2 := rfl

/-! ### `jump` -/

@[simp] theorem jump_cfg (p : ProgAddr) (s : State) : (jump p s).cfg = s.cfg := rfl
@[simp] theorem jump_prog (p : ProgAddr) (s : State) : (jump p s).prog = s.prog := rfl
@[simp] theorem jump_w (p : ProgAddr) (s : State) : (jump p s).w = s.w := rfl
@[simp] theorem jump_pc (p : ProgAddr) (s : State) : (jump p s).pc = p := rfl
@[simp] theorem jump_pclath (p : ProgAddr) (s : State) : (jump p s).pclath = s.pclath := rfl
@[simp] theorem jump_stack (p : ProgAddr) (s : State) : (jump p s).stack = s.stack := rfl
@[simp] theorem jump_sp (p : ProgAddr) (s : State) : (jump p s).sp = s.sp := rfl
@[simp] theorem jump_status (p : ProgAddr) (s : State) : (jump p s).status = s.status := rfl
@[simp] theorem jump_fsr (p : ProgAddr) (s : State) : (jump p s).fsr = s.fsr := rfl
@[simp] theorem jump_tmr0 (p : ProgAddr) (s : State) : (jump p s).tmr0 = s.tmr0 := rfl
@[simp] theorem jump_option (p : ProgAddr) (s : State) : (jump p s).option = s.option := rfl
@[simp] theorem jump_intcon (p : ProgAddr) (s : State) : (jump p s).intcon = s.intcon := rfl
@[simp] theorem jump_latchA (p : ProgAddr) (s : State) : (jump p s).latchA = s.latchA := rfl
@[simp] theorem jump_latchB (p : ProgAddr) (s : State) : (jump p s).latchB = s.latchB := rfl
@[simp] theorem jump_trisa (p : ProgAddr) (s : State) : (jump p s).trisa = s.trisa := rfl
@[simp] theorem jump_trisb (p : ProgAddr) (s : State) : (jump p s).trisb = s.trisb := rfl
@[simp] theorem jump_eedata (p : ProgAddr) (s : State) : (jump p s).eedata = s.eedata := rfl
@[simp] theorem jump_eeadr (p : ProgAddr) (s : State) : (jump p s).eeadr = s.eeadr := rfl
@[simp] theorem jump_eecon1 (p : ProgAddr) (s : State) : (jump p s).eecon1 = s.eecon1 := rfl
@[simp] theorem jump_ram (p : ProgAddr) (s : State) : (jump p s).ram = s.ram := rfl
@[simp] theorem jump_eeprom (p : ProgAddr) (s : State) : (jump p s).eeprom = s.eeprom := rfl
@[simp] theorem jump_prescaler (p : ProgAddr) (s : State) : (jump p s).prescaler = s.prescaler := rfl
@[simp] theorem jump_wdt (p : ProgAddr) (s : State) : (jump p s).wdt = s.wdt := rfl
@[simp] theorem jump_asleep (p : ProgAddr) (s : State) : (jump p s).asleep = s.asleep := rfl
@[simp] theorem jump_holdOff (p : ProgAddr) (s : State) : (jump p s).holdOff = s.holdOff := rfl
@[simp] theorem jump_inFlight (p : ProgAddr) (s : State) : (jump p s).inFlight = s.inFlight := rfl
@[simp] theorem jump_unlock (p : ProgAddr) (s : State) : (jump p s).unlock = s.unlock := rfl
@[simp] theorem jump_lastRB (p : ProgAddr) (s : State) : (jump p s).lastRB = s.lastRB := rfl
@[simp] theorem jump_prevRB0 (p : ProgAddr) (s : State) : (jump p s).prevRB0 = s.prevRB0 := rfl
@[simp] theorem jump_prevT0cki (p : ProgAddr) (s : State) : (jump p s).prevT0cki = s.prevT0cki := rfl
@[simp] theorem jump_tmr0Hold (p : ProgAddr) (s : State) : (jump p s).tmr0Hold = s.tmr0Hold := rfl
@[simp] theorem jump_envA (p : ProgAddr) (s : State) : (jump p s).envA = s.envA := rfl
@[simp] theorem jump_envB (p : ProgAddr) (s : State) : (jump p s).envB = s.envB := rfl
@[simp] theorem jump_undrivenB (p : ProgAddr) (s : State) : (jump p s).undrivenB = s.undrivenB := rfl
@[simp] theorem jump_inputs (p : ProgAddr) (s : State) : (jump p s).inputs = s.inputs := rfl
@[simp] theorem jump_draws (p : ProgAddr) (s : State) : (jump p s).draws = s.draws := rfl
@[simp] theorem jump_cycles (p : ProgAddr) (s : State) : (jump p s).cycles = s.cycles + 2 := rfl
@[simp] theorem jump_wdtAge (p : ProgAddr) (s : State) : (jump p s).wdtAge = s.wdtAge + 2 := rfl

/-! ### `push` -/

@[simp] theorem push_cfg (p : ProgAddr) (s : State) : (push p s).cfg = s.cfg := rfl
@[simp] theorem push_prog (p : ProgAddr) (s : State) : (push p s).prog = s.prog := rfl
@[simp] theorem push_w (p : ProgAddr) (s : State) : (push p s).w = s.w := rfl
@[simp] theorem push_pc (p : ProgAddr) (s : State) : (push p s).pc = s.pc := rfl
@[simp] theorem push_pclath (p : ProgAddr) (s : State) : (push p s).pclath = s.pclath := rfl
@[simp] theorem push_stack (p : ProgAddr) (s : State) : (push p s).stack = Memory.write s.stack s.sp.toNat p := rfl
@[simp] theorem push_sp (p : ProgAddr) (s : State) : (push p s).sp = s.sp + 1 := rfl
@[simp] theorem push_status (p : ProgAddr) (s : State) : (push p s).status = s.status := rfl
@[simp] theorem push_fsr (p : ProgAddr) (s : State) : (push p s).fsr = s.fsr := rfl
@[simp] theorem push_tmr0 (p : ProgAddr) (s : State) : (push p s).tmr0 = s.tmr0 := rfl
@[simp] theorem push_option (p : ProgAddr) (s : State) : (push p s).option = s.option := rfl
@[simp] theorem push_intcon (p : ProgAddr) (s : State) : (push p s).intcon = s.intcon := rfl
@[simp] theorem push_latchA (p : ProgAddr) (s : State) : (push p s).latchA = s.latchA := rfl
@[simp] theorem push_latchB (p : ProgAddr) (s : State) : (push p s).latchB = s.latchB := rfl
@[simp] theorem push_trisa (p : ProgAddr) (s : State) : (push p s).trisa = s.trisa := rfl
@[simp] theorem push_trisb (p : ProgAddr) (s : State) : (push p s).trisb = s.trisb := rfl
@[simp] theorem push_eedata (p : ProgAddr) (s : State) : (push p s).eedata = s.eedata := rfl
@[simp] theorem push_eeadr (p : ProgAddr) (s : State) : (push p s).eeadr = s.eeadr := rfl
@[simp] theorem push_eecon1 (p : ProgAddr) (s : State) : (push p s).eecon1 = s.eecon1 := rfl
@[simp] theorem push_ram (p : ProgAddr) (s : State) : (push p s).ram = s.ram := rfl
@[simp] theorem push_eeprom (p : ProgAddr) (s : State) : (push p s).eeprom = s.eeprom := rfl
@[simp] theorem push_prescaler (p : ProgAddr) (s : State) : (push p s).prescaler = s.prescaler := rfl
@[simp] theorem push_wdt (p : ProgAddr) (s : State) : (push p s).wdt = s.wdt := rfl
@[simp] theorem push_asleep (p : ProgAddr) (s : State) : (push p s).asleep = s.asleep := rfl
@[simp] theorem push_holdOff (p : ProgAddr) (s : State) : (push p s).holdOff = s.holdOff := rfl
@[simp] theorem push_inFlight (p : ProgAddr) (s : State) : (push p s).inFlight = s.inFlight := rfl
@[simp] theorem push_unlock (p : ProgAddr) (s : State) : (push p s).unlock = s.unlock := rfl
@[simp] theorem push_lastRB (p : ProgAddr) (s : State) : (push p s).lastRB = s.lastRB := rfl
@[simp] theorem push_prevRB0 (p : ProgAddr) (s : State) : (push p s).prevRB0 = s.prevRB0 := rfl
@[simp] theorem push_prevT0cki (p : ProgAddr) (s : State) : (push p s).prevT0cki = s.prevT0cki := rfl
@[simp] theorem push_tmr0Hold (p : ProgAddr) (s : State) : (push p s).tmr0Hold = s.tmr0Hold := rfl
@[simp] theorem push_envA (p : ProgAddr) (s : State) : (push p s).envA = s.envA := rfl
@[simp] theorem push_envB (p : ProgAddr) (s : State) : (push p s).envB = s.envB := rfl
@[simp] theorem push_undrivenB (p : ProgAddr) (s : State) : (push p s).undrivenB = s.undrivenB := rfl
@[simp] theorem push_inputs (p : ProgAddr) (s : State) : (push p s).inputs = s.inputs := rfl
@[simp] theorem push_draws (p : ProgAddr) (s : State) : (push p s).draws = s.draws := rfl
@[simp] theorem push_cycles (p : ProgAddr) (s : State) : (push p s).cycles = s.cycles := rfl
@[simp] theorem push_wdtAge (p : ProgAddr) (s : State) : (push p s).wdtAge = s.wdtAge := rfl

/-! ### `pop` -/

@[simp] theorem pop_cfg (s : State) : (pop s).cfg = s.cfg := rfl
@[simp] theorem pop_prog (s : State) : (pop s).prog = s.prog := rfl
@[simp] theorem pop_w (s : State) : (pop s).w = s.w := rfl
@[simp] theorem pop_pc (s : State) : (pop s).pc = s.pc := rfl
@[simp] theorem pop_pclath (s : State) : (pop s).pclath = s.pclath := rfl
@[simp] theorem pop_stack (s : State) : (pop s).stack = s.stack := rfl
@[simp] theorem pop_sp (s : State) : (pop s).sp = s.sp - 1 := rfl
@[simp] theorem pop_status (s : State) : (pop s).status = s.status := rfl
@[simp] theorem pop_fsr (s : State) : (pop s).fsr = s.fsr := rfl
@[simp] theorem pop_tmr0 (s : State) : (pop s).tmr0 = s.tmr0 := rfl
@[simp] theorem pop_option (s : State) : (pop s).option = s.option := rfl
@[simp] theorem pop_intcon (s : State) : (pop s).intcon = s.intcon := rfl
@[simp] theorem pop_latchA (s : State) : (pop s).latchA = s.latchA := rfl
@[simp] theorem pop_latchB (s : State) : (pop s).latchB = s.latchB := rfl
@[simp] theorem pop_trisa (s : State) : (pop s).trisa = s.trisa := rfl
@[simp] theorem pop_trisb (s : State) : (pop s).trisb = s.trisb := rfl
@[simp] theorem pop_eedata (s : State) : (pop s).eedata = s.eedata := rfl
@[simp] theorem pop_eeadr (s : State) : (pop s).eeadr = s.eeadr := rfl
@[simp] theorem pop_eecon1 (s : State) : (pop s).eecon1 = s.eecon1 := rfl
@[simp] theorem pop_ram (s : State) : (pop s).ram = s.ram := rfl
@[simp] theorem pop_eeprom (s : State) : (pop s).eeprom = s.eeprom := rfl
@[simp] theorem pop_prescaler (s : State) : (pop s).prescaler = s.prescaler := rfl
@[simp] theorem pop_wdt (s : State) : (pop s).wdt = s.wdt := rfl
@[simp] theorem pop_asleep (s : State) : (pop s).asleep = s.asleep := rfl
@[simp] theorem pop_holdOff (s : State) : (pop s).holdOff = s.holdOff := rfl
@[simp] theorem pop_inFlight (s : State) : (pop s).inFlight = s.inFlight := rfl
@[simp] theorem pop_unlock (s : State) : (pop s).unlock = s.unlock := rfl
@[simp] theorem pop_lastRB (s : State) : (pop s).lastRB = s.lastRB := rfl
@[simp] theorem pop_prevRB0 (s : State) : (pop s).prevRB0 = s.prevRB0 := rfl
@[simp] theorem pop_prevT0cki (s : State) : (pop s).prevT0cki = s.prevT0cki := rfl
@[simp] theorem pop_tmr0Hold (s : State) : (pop s).tmr0Hold = s.tmr0Hold := rfl
@[simp] theorem pop_envA (s : State) : (pop s).envA = s.envA := rfl
@[simp] theorem pop_envB (s : State) : (pop s).envB = s.envB := rfl
@[simp] theorem pop_undrivenB (s : State) : (pop s).undrivenB = s.undrivenB := rfl
@[simp] theorem pop_inputs (s : State) : (pop s).inputs = s.inputs := rfl
@[simp] theorem pop_draws (s : State) : (pop s).draws = s.draws := rfl
@[simp] theorem pop_cycles (s : State) : (pop s).cycles = s.cycles := rfl
@[simp] theorem pop_wdtAge (s : State) : (pop s).wdtAge = s.wdtAge := rfl

/-! ### `clearWdt` -/

@[simp] theorem clearWdt_cfg (s : State) : (clearWdt s).cfg = s.cfg := rfl
@[simp] theorem clearWdt_prog (s : State) : (clearWdt s).prog = s.prog := rfl
@[simp] theorem clearWdt_w (s : State) : (clearWdt s).w = s.w := rfl
@[simp] theorem clearWdt_pc (s : State) : (clearWdt s).pc = s.pc := rfl
@[simp] theorem clearWdt_pclath (s : State) : (clearWdt s).pclath = s.pclath := rfl
@[simp] theorem clearWdt_stack (s : State) : (clearWdt s).stack = s.stack := rfl
@[simp] theorem clearWdt_sp (s : State) : (clearWdt s).sp = s.sp := rfl
@[simp] theorem clearWdt_status (s : State) : (clearWdt s).status = s.status := rfl
@[simp] theorem clearWdt_fsr (s : State) : (clearWdt s).fsr = s.fsr := rfl
@[simp] theorem clearWdt_tmr0 (s : State) : (clearWdt s).tmr0 = s.tmr0 := rfl
@[simp] theorem clearWdt_option (s : State) : (clearWdt s).option = s.option := rfl
@[simp] theorem clearWdt_intcon (s : State) : (clearWdt s).intcon = s.intcon := rfl
@[simp] theorem clearWdt_latchA (s : State) : (clearWdt s).latchA = s.latchA := rfl
@[simp] theorem clearWdt_latchB (s : State) : (clearWdt s).latchB = s.latchB := rfl
@[simp] theorem clearWdt_trisa (s : State) : (clearWdt s).trisa = s.trisa := rfl
@[simp] theorem clearWdt_trisb (s : State) : (clearWdt s).trisb = s.trisb := rfl
@[simp] theorem clearWdt_eedata (s : State) : (clearWdt s).eedata = s.eedata := rfl
@[simp] theorem clearWdt_eeadr (s : State) : (clearWdt s).eeadr = s.eeadr := rfl
@[simp] theorem clearWdt_eecon1 (s : State) : (clearWdt s).eecon1 = s.eecon1 := rfl
@[simp] theorem clearWdt_ram (s : State) : (clearWdt s).ram = s.ram := rfl
@[simp] theorem clearWdt_eeprom (s : State) : (clearWdt s).eeprom = s.eeprom := rfl
@[simp] theorem clearWdt_prescaler (s : State) : (clearWdt s).prescaler = if s.psa then 0 else s.prescaler := rfl
@[simp] theorem clearWdt_wdt (s : State) : (clearWdt s).wdt = 0 := rfl
@[simp] theorem clearWdt_asleep (s : State) : (clearWdt s).asleep = s.asleep := rfl
@[simp] theorem clearWdt_holdOff (s : State) : (clearWdt s).holdOff = s.holdOff := rfl
@[simp] theorem clearWdt_inFlight (s : State) : (clearWdt s).inFlight = s.inFlight := rfl
@[simp] theorem clearWdt_unlock (s : State) : (clearWdt s).unlock = s.unlock := rfl
@[simp] theorem clearWdt_lastRB (s : State) : (clearWdt s).lastRB = s.lastRB := rfl
@[simp] theorem clearWdt_prevRB0 (s : State) : (clearWdt s).prevRB0 = s.prevRB0 := rfl
@[simp] theorem clearWdt_prevT0cki (s : State) : (clearWdt s).prevT0cki = s.prevT0cki := rfl
@[simp] theorem clearWdt_tmr0Hold (s : State) : (clearWdt s).tmr0Hold = s.tmr0Hold := rfl
@[simp] theorem clearWdt_envA (s : State) : (clearWdt s).envA = s.envA := rfl
@[simp] theorem clearWdt_envB (s : State) : (clearWdt s).envB = s.envB := rfl
@[simp] theorem clearWdt_undrivenB (s : State) : (clearWdt s).undrivenB = s.undrivenB := rfl
@[simp] theorem clearWdt_inputs (s : State) : (clearWdt s).inputs = s.inputs := rfl
@[simp] theorem clearWdt_draws (s : State) : (clearWdt s).draws = s.draws := rfl
@[simp] theorem clearWdt_cycles (s : State) : (clearWdt s).cycles = s.cycles := rfl
@[simp] theorem clearWdt_wdtAge (s : State) : (clearWdt s).wdtAge = 0 := rfl

/-! ### `setToPd` -/

@[simp] theorem setToPd_cfg (p q : Bool) (s : State) : (setToPd p q s).cfg = s.cfg := rfl
@[simp] theorem setToPd_prog (p q : Bool) (s : State) : (setToPd p q s).prog = s.prog := rfl
@[simp] theorem setToPd_w (p q : Bool) (s : State) : (setToPd p q s).w = s.w := rfl
@[simp] theorem setToPd_pc (p q : Bool) (s : State) : (setToPd p q s).pc = s.pc := rfl
@[simp] theorem setToPd_pclath (p q : Bool) (s : State) : (setToPd p q s).pclath = s.pclath := rfl
@[simp] theorem setToPd_stack (p q : Bool) (s : State) : (setToPd p q s).stack = s.stack := rfl
@[simp] theorem setToPd_sp (p q : Bool) (s : State) : (setToPd p q s).sp = s.sp := rfl
@[simp] theorem setToPd_status (p q : Bool) (s : State) : (setToPd p q s).status = putBit (putBit s.status 4 p) 3 q := rfl
@[simp] theorem setToPd_fsr (p q : Bool) (s : State) : (setToPd p q s).fsr = s.fsr := rfl
@[simp] theorem setToPd_tmr0 (p q : Bool) (s : State) : (setToPd p q s).tmr0 = s.tmr0 := rfl
@[simp] theorem setToPd_option (p q : Bool) (s : State) : (setToPd p q s).option = s.option := rfl
@[simp] theorem setToPd_intcon (p q : Bool) (s : State) : (setToPd p q s).intcon = s.intcon := rfl
@[simp] theorem setToPd_latchA (p q : Bool) (s : State) : (setToPd p q s).latchA = s.latchA := rfl
@[simp] theorem setToPd_latchB (p q : Bool) (s : State) : (setToPd p q s).latchB = s.latchB := rfl
@[simp] theorem setToPd_trisa (p q : Bool) (s : State) : (setToPd p q s).trisa = s.trisa := rfl
@[simp] theorem setToPd_trisb (p q : Bool) (s : State) : (setToPd p q s).trisb = s.trisb := rfl
@[simp] theorem setToPd_eedata (p q : Bool) (s : State) : (setToPd p q s).eedata = s.eedata := rfl
@[simp] theorem setToPd_eeadr (p q : Bool) (s : State) : (setToPd p q s).eeadr = s.eeadr := rfl
@[simp] theorem setToPd_eecon1 (p q : Bool) (s : State) : (setToPd p q s).eecon1 = s.eecon1 := rfl
@[simp] theorem setToPd_ram (p q : Bool) (s : State) : (setToPd p q s).ram = s.ram := rfl
@[simp] theorem setToPd_eeprom (p q : Bool) (s : State) : (setToPd p q s).eeprom = s.eeprom := rfl
@[simp] theorem setToPd_prescaler (p q : Bool) (s : State) : (setToPd p q s).prescaler = s.prescaler := rfl
@[simp] theorem setToPd_wdt (p q : Bool) (s : State) : (setToPd p q s).wdt = s.wdt := rfl
@[simp] theorem setToPd_asleep (p q : Bool) (s : State) : (setToPd p q s).asleep = s.asleep := rfl
@[simp] theorem setToPd_holdOff (p q : Bool) (s : State) : (setToPd p q s).holdOff = s.holdOff := rfl
@[simp] theorem setToPd_inFlight (p q : Bool) (s : State) : (setToPd p q s).inFlight = s.inFlight := rfl
@[simp] theorem setToPd_unlock (p q : Bool) (s : State) : (setToPd p q s).unlock = s.unlock := rfl
@[simp] theorem setToPd_lastRB (p q : Bool) (s : State) : (setToPd p q s).lastRB = s.lastRB := rfl
@[simp] theorem setToPd_prevRB0 (p q : Bool) (s : State) : (setToPd p q s).prevRB0 = s.prevRB0 := rfl
@[simp] theorem setToPd_prevT0cki (p q : Bool) (s : State) : (setToPd p q s).prevT0cki = s.prevT0cki := rfl
@[simp] theorem setToPd_tmr0Hold (p q : Bool) (s : State) : (setToPd p q s).tmr0Hold = s.tmr0Hold := rfl
@[simp] theorem setToPd_envA (p q : Bool) (s : State) : (setToPd p q s).envA = s.envA := rfl
@[simp] theorem setToPd_envB (p q : Bool) (s : State) : (setToPd p q s).envB = s.envB := rfl
@[simp] theorem setToPd_undrivenB (p q : Bool) (s : State) : (setToPd p q s).undrivenB = s.undrivenB := rfl
@[simp] theorem setToPd_inputs (p q : Bool) (s : State) : (setToPd p q s).inputs = s.inputs := rfl
@[simp] theorem setToPd_draws (p q : Bool) (s : State) : (setToPd p q s).draws = s.draws := rfl
@[simp] theorem setToPd_cycles (p q : Bool) (s : State) : (setToPd p q s).cycles = s.cycles := rfl
@[simp] theorem setToPd_wdtAge (p q : Bool) (s : State) : (setToPd p q s).wdtAge = s.wdtAge := rfl

/-! ### `tmr0Increment` -/

@[simp] theorem tmr0Increment_cfg (s : State) : (tmr0Increment s).cfg = s.cfg := rfl
@[simp] theorem tmr0Increment_prog (s : State) : (tmr0Increment s).prog = s.prog := rfl
@[simp] theorem tmr0Increment_w (s : State) : (tmr0Increment s).w = s.w := rfl
@[simp] theorem tmr0Increment_pc (s : State) : (tmr0Increment s).pc = s.pc := rfl
@[simp] theorem tmr0Increment_pclath (s : State) : (tmr0Increment s).pclath = s.pclath := rfl
@[simp] theorem tmr0Increment_stack (s : State) : (tmr0Increment s).stack = s.stack := rfl
@[simp] theorem tmr0Increment_sp (s : State) : (tmr0Increment s).sp = s.sp := rfl
@[simp] theorem tmr0Increment_status (s : State) : (tmr0Increment s).status = s.status := rfl
@[simp] theorem tmr0Increment_fsr (s : State) : (tmr0Increment s).fsr = s.fsr := rfl
@[simp] theorem tmr0Increment_tmr0 (s : State) : (tmr0Increment s).tmr0 = s.tmr0 + 1 := rfl
@[simp] theorem tmr0Increment_option (s : State) : (tmr0Increment s).option = s.option := rfl
@[simp] theorem tmr0Increment_intcon (s : State) : (tmr0Increment s).intcon = if s.tmr0 = 0xFF then putBit s.intcon 2 true else s.intcon := rfl
@[simp] theorem tmr0Increment_latchA (s : State) : (tmr0Increment s).latchA = s.latchA := rfl
@[simp] theorem tmr0Increment_latchB (s : State) : (tmr0Increment s).latchB = s.latchB := rfl
@[simp] theorem tmr0Increment_trisa (s : State) : (tmr0Increment s).trisa = s.trisa := rfl
@[simp] theorem tmr0Increment_trisb (s : State) : (tmr0Increment s).trisb = s.trisb := rfl
@[simp] theorem tmr0Increment_eedata (s : State) : (tmr0Increment s).eedata = s.eedata := rfl
@[simp] theorem tmr0Increment_eeadr (s : State) : (tmr0Increment s).eeadr = s.eeadr := rfl
@[simp] theorem tmr0Increment_eecon1 (s : State) : (tmr0Increment s).eecon1 = s.eecon1 := rfl
@[simp] theorem tmr0Increment_ram (s : State) : (tmr0Increment s).ram = s.ram := rfl
@[simp] theorem tmr0Increment_eeprom (s : State) : (tmr0Increment s).eeprom = s.eeprom := rfl
@[simp] theorem tmr0Increment_prescaler (s : State) : (tmr0Increment s).prescaler = s.prescaler := rfl
@[simp] theorem tmr0Increment_wdt (s : State) : (tmr0Increment s).wdt = s.wdt := rfl
@[simp] theorem tmr0Increment_asleep (s : State) : (tmr0Increment s).asleep = s.asleep := rfl
@[simp] theorem tmr0Increment_holdOff (s : State) : (tmr0Increment s).holdOff = s.holdOff := rfl
@[simp] theorem tmr0Increment_inFlight (s : State) : (tmr0Increment s).inFlight = s.inFlight := rfl
@[simp] theorem tmr0Increment_unlock (s : State) : (tmr0Increment s).unlock = s.unlock := rfl
@[simp] theorem tmr0Increment_lastRB (s : State) : (tmr0Increment s).lastRB = s.lastRB := rfl
@[simp] theorem tmr0Increment_prevRB0 (s : State) : (tmr0Increment s).prevRB0 = s.prevRB0 := rfl
@[simp] theorem tmr0Increment_prevT0cki (s : State) : (tmr0Increment s).prevT0cki = s.prevT0cki := rfl
@[simp] theorem tmr0Increment_tmr0Hold (s : State) : (tmr0Increment s).tmr0Hold = s.tmr0Hold := rfl
@[simp] theorem tmr0Increment_envA (s : State) : (tmr0Increment s).envA = s.envA := rfl
@[simp] theorem tmr0Increment_envB (s : State) : (tmr0Increment s).envB = s.envB := rfl
@[simp] theorem tmr0Increment_undrivenB (s : State) : (tmr0Increment s).undrivenB = s.undrivenB := rfl
@[simp] theorem tmr0Increment_inputs (s : State) : (tmr0Increment s).inputs = s.inputs := rfl
@[simp] theorem tmr0Increment_draws (s : State) : (tmr0Increment s).draws = s.draws := rfl
@[simp] theorem tmr0Increment_cycles (s : State) : (tmr0Increment s).cycles = s.cycles := rfl
@[simp] theorem tmr0Increment_wdtAge (s : State) : (tmr0Increment s).wdtAge = s.wdtAge := rfl

/-! ### `afterRead` -/

@[simp] theorem afterRead_cfg (a : DataAddr) (s : State) : (afterRead a s).cfg = s.cfg := rfl
@[simp] theorem afterRead_prog (a : DataAddr) (s : State) : (afterRead a s).prog = s.prog := rfl
@[simp] theorem afterRead_w (a : DataAddr) (s : State) : (afterRead a s).w = s.w := rfl
@[simp] theorem afterRead_pc (a : DataAddr) (s : State) : (afterRead a s).pc = s.pc := rfl
@[simp] theorem afterRead_pclath (a : DataAddr) (s : State) : (afterRead a s).pclath = s.pclath := rfl
@[simp] theorem afterRead_stack (a : DataAddr) (s : State) : (afterRead a s).stack = s.stack := rfl
@[simp] theorem afterRead_sp (a : DataAddr) (s : State) : (afterRead a s).sp = s.sp := rfl
@[simp] theorem afterRead_status (a : DataAddr) (s : State) : (afterRead a s).status = s.status := rfl
@[simp] theorem afterRead_fsr (a : DataAddr) (s : State) : (afterRead a s).fsr = s.fsr := rfl
@[simp] theorem afterRead_tmr0 (a : DataAddr) (s : State) : (afterRead a s).tmr0 = s.tmr0 := rfl
@[simp] theorem afterRead_option (a : DataAddr) (s : State) : (afterRead a s).option = s.option := rfl
@[simp] theorem afterRead_intcon (a : DataAddr) (s : State) : (afterRead a s).intcon = s.intcon := rfl
@[simp] theorem afterRead_latchA (a : DataAddr) (s : State) : (afterRead a s).latchA = s.latchA := rfl
@[simp] theorem afterRead_latchB (a : DataAddr) (s : State) : (afterRead a s).latchB = s.latchB := rfl
@[simp] theorem afterRead_trisa (a : DataAddr) (s : State) : (afterRead a s).trisa = s.trisa := rfl
@[simp] theorem afterRead_trisb (a : DataAddr) (s : State) : (afterRead a s).trisb = s.trisb := rfl
@[simp] theorem afterRead_eedata (a : DataAddr) (s : State) : (afterRead a s).eedata = s.eedata := rfl
@[simp] theorem afterRead_eeadr (a : DataAddr) (s : State) : (afterRead a s).eeadr = s.eeadr := rfl
@[simp] theorem afterRead_eecon1 (a : DataAddr) (s : State) : (afterRead a s).eecon1 = s.eecon1 := rfl
@[simp] theorem afterRead_ram (a : DataAddr) (s : State) : (afterRead a s).ram = s.ram := rfl
@[simp] theorem afterRead_eeprom (a : DataAddr) (s : State) : (afterRead a s).eeprom = s.eeprom := rfl
@[simp] theorem afterRead_prescaler (a : DataAddr) (s : State) : (afterRead a s).prescaler = s.prescaler := rfl
@[simp] theorem afterRead_wdt (a : DataAddr) (s : State) : (afterRead a s).wdt = s.wdt := rfl
@[simp] theorem afterRead_asleep (a : DataAddr) (s : State) : (afterRead a s).asleep = s.asleep := rfl
@[simp] theorem afterRead_holdOff (a : DataAddr) (s : State) : (afterRead a s).holdOff = s.holdOff := rfl
@[simp] theorem afterRead_inFlight (a : DataAddr) (s : State) : (afterRead a s).inFlight = s.inFlight := rfl
@[simp] theorem afterRead_unlock (a : DataAddr) (s : State) : (afterRead a s).unlock = s.unlock := rfl
@[simp] theorem afterRead_lastRB (a : DataAddr) (s : State) : (afterRead a s).lastRB = if s.loc a = .portb then (pinB s).extractLsb' 4 4 else s.lastRB := rfl
@[simp] theorem afterRead_prevRB0 (a : DataAddr) (s : State) : (afterRead a s).prevRB0 = s.prevRB0 := rfl
@[simp] theorem afterRead_prevT0cki (a : DataAddr) (s : State) : (afterRead a s).prevT0cki = s.prevT0cki := rfl
@[simp] theorem afterRead_tmr0Hold (a : DataAddr) (s : State) : (afterRead a s).tmr0Hold = s.tmr0Hold := rfl
@[simp] theorem afterRead_envA (a : DataAddr) (s : State) : (afterRead a s).envA = s.envA := rfl
@[simp] theorem afterRead_envB (a : DataAddr) (s : State) : (afterRead a s).envB = s.envB := rfl
@[simp] theorem afterRead_undrivenB (a : DataAddr) (s : State) : (afterRead a s).undrivenB = s.undrivenB := rfl
@[simp] theorem afterRead_inputs (a : DataAddr) (s : State) : (afterRead a s).inputs = s.inputs := rfl
@[simp] theorem afterRead_draws (a : DataAddr) (s : State) : (afterRead a s).draws = s.draws := rfl
@[simp] theorem afterRead_cycles (a : DataAddr) (s : State) : (afterRead a s).cycles = s.cycles := rfl
@[simp] theorem afterRead_wdtAge (a : DataAddr) (s : State) : (afterRead a s).wdtAge = s.wdtAge := rfl

/-! ### `tmr0Write` -/

@[simp] theorem tmr0Write_cfg (v : Byte) (s : State) : (tmr0Write v s).cfg = s.cfg := rfl
@[simp] theorem tmr0Write_prog (v : Byte) (s : State) : (tmr0Write v s).prog = s.prog := rfl
@[simp] theorem tmr0Write_w (v : Byte) (s : State) : (tmr0Write v s).w = s.w := rfl
@[simp] theorem tmr0Write_pc (v : Byte) (s : State) : (tmr0Write v s).pc = s.pc := rfl
@[simp] theorem tmr0Write_pclath (v : Byte) (s : State) : (tmr0Write v s).pclath = s.pclath := rfl
@[simp] theorem tmr0Write_stack (v : Byte) (s : State) : (tmr0Write v s).stack = s.stack := rfl
@[simp] theorem tmr0Write_sp (v : Byte) (s : State) : (tmr0Write v s).sp = s.sp := rfl
@[simp] theorem tmr0Write_status (v : Byte) (s : State) : (tmr0Write v s).status = s.status := rfl
@[simp] theorem tmr0Write_fsr (v : Byte) (s : State) : (tmr0Write v s).fsr = s.fsr := rfl
@[simp] theorem tmr0Write_tmr0 (v : Byte) (s : State) : (tmr0Write v s).tmr0 = v := rfl
@[simp] theorem tmr0Write_option (v : Byte) (s : State) : (tmr0Write v s).option = s.option := rfl
@[simp] theorem tmr0Write_intcon (v : Byte) (s : State) : (tmr0Write v s).intcon = s.intcon := rfl
@[simp] theorem tmr0Write_latchA (v : Byte) (s : State) : (tmr0Write v s).latchA = s.latchA := rfl
@[simp] theorem tmr0Write_latchB (v : Byte) (s : State) : (tmr0Write v s).latchB = s.latchB := rfl
@[simp] theorem tmr0Write_trisa (v : Byte) (s : State) : (tmr0Write v s).trisa = s.trisa := rfl
@[simp] theorem tmr0Write_trisb (v : Byte) (s : State) : (tmr0Write v s).trisb = s.trisb := rfl
@[simp] theorem tmr0Write_eedata (v : Byte) (s : State) : (tmr0Write v s).eedata = s.eedata := rfl
@[simp] theorem tmr0Write_eeadr (v : Byte) (s : State) : (tmr0Write v s).eeadr = s.eeadr := rfl
@[simp] theorem tmr0Write_eecon1 (v : Byte) (s : State) : (tmr0Write v s).eecon1 = s.eecon1 := rfl
@[simp] theorem tmr0Write_ram (v : Byte) (s : State) : (tmr0Write v s).ram = s.ram := rfl
@[simp] theorem tmr0Write_eeprom (v : Byte) (s : State) : (tmr0Write v s).eeprom = s.eeprom := rfl
@[simp] theorem tmr0Write_prescaler (v : Byte) (s : State) : (tmr0Write v s).prescaler = if s.psa then s.prescaler else 0 := rfl
@[simp] theorem tmr0Write_wdt (v : Byte) (s : State) : (tmr0Write v s).wdt = s.wdt := rfl
@[simp] theorem tmr0Write_asleep (v : Byte) (s : State) : (tmr0Write v s).asleep = s.asleep := rfl
@[simp] theorem tmr0Write_holdOff (v : Byte) (s : State) : (tmr0Write v s).holdOff = s.holdOff := rfl
@[simp] theorem tmr0Write_inFlight (v : Byte) (s : State) : (tmr0Write v s).inFlight = s.inFlight := rfl
@[simp] theorem tmr0Write_unlock (v : Byte) (s : State) : (tmr0Write v s).unlock = s.unlock := rfl
@[simp] theorem tmr0Write_lastRB (v : Byte) (s : State) : (tmr0Write v s).lastRB = s.lastRB := rfl
@[simp] theorem tmr0Write_prevRB0 (v : Byte) (s : State) : (tmr0Write v s).prevRB0 = s.prevRB0 := rfl
@[simp] theorem tmr0Write_prevT0cki (v : Byte) (s : State) : (tmr0Write v s).prevT0cki = s.prevT0cki := rfl
@[simp] theorem tmr0Write_tmr0Hold (v : Byte) (s : State) : (tmr0Write v s).tmr0Hold = if s.cfg.tmr0Model = .exact then .written else s.tmr0Hold := rfl
@[simp] theorem tmr0Write_envA (v : Byte) (s : State) : (tmr0Write v s).envA = s.envA := rfl
@[simp] theorem tmr0Write_envB (v : Byte) (s : State) : (tmr0Write v s).envB = s.envB := rfl
@[simp] theorem tmr0Write_undrivenB (v : Byte) (s : State) : (tmr0Write v s).undrivenB = s.undrivenB := rfl
@[simp] theorem tmr0Write_inputs (v : Byte) (s : State) : (tmr0Write v s).inputs = s.inputs := rfl
@[simp] theorem tmr0Write_draws (v : Byte) (s : State) : (tmr0Write v s).draws = s.draws := rfl
@[simp] theorem tmr0Write_cycles (v : Byte) (s : State) : (tmr0Write v s).cycles = s.cycles := rfl
@[simp] theorem tmr0Write_wdtAge (v : Byte) (s : State) : (tmr0Write v s).wdtAge = s.wdtAge := rfl

/-! ### `applyFlags` -/

@[simp] theorem applyFlags_cfg (u : FlagUpdate) (s : State) : (applyFlags u s).cfg = s.cfg := rfl
@[simp] theorem applyFlags_prog (u : FlagUpdate) (s : State) : (applyFlags u s).prog = s.prog := rfl
@[simp] theorem applyFlags_w (u : FlagUpdate) (s : State) : (applyFlags u s).w = s.w := rfl
@[simp] theorem applyFlags_pc (u : FlagUpdate) (s : State) : (applyFlags u s).pc = s.pc := rfl
@[simp] theorem applyFlags_pclath (u : FlagUpdate) (s : State) : (applyFlags u s).pclath = s.pclath := rfl
@[simp] theorem applyFlags_stack (u : FlagUpdate) (s : State) : (applyFlags u s).stack = s.stack := rfl
@[simp] theorem applyFlags_sp (u : FlagUpdate) (s : State) : (applyFlags u s).sp = s.sp := rfl
@[simp] theorem applyFlags_status (u : FlagUpdate) (s : State) : (applyFlags u s).status = u.onStatus s.status := rfl
@[simp] theorem applyFlags_fsr (u : FlagUpdate) (s : State) : (applyFlags u s).fsr = s.fsr := rfl
@[simp] theorem applyFlags_tmr0 (u : FlagUpdate) (s : State) : (applyFlags u s).tmr0 = s.tmr0 := rfl
@[simp] theorem applyFlags_option (u : FlagUpdate) (s : State) : (applyFlags u s).option = s.option := rfl
@[simp] theorem applyFlags_intcon (u : FlagUpdate) (s : State) : (applyFlags u s).intcon = s.intcon := rfl
@[simp] theorem applyFlags_latchA (u : FlagUpdate) (s : State) : (applyFlags u s).latchA = s.latchA := rfl
@[simp] theorem applyFlags_latchB (u : FlagUpdate) (s : State) : (applyFlags u s).latchB = s.latchB := rfl
@[simp] theorem applyFlags_trisa (u : FlagUpdate) (s : State) : (applyFlags u s).trisa = s.trisa := rfl
@[simp] theorem applyFlags_trisb (u : FlagUpdate) (s : State) : (applyFlags u s).trisb = s.trisb := rfl
@[simp] theorem applyFlags_eedata (u : FlagUpdate) (s : State) : (applyFlags u s).eedata = s.eedata := rfl
@[simp] theorem applyFlags_eeadr (u : FlagUpdate) (s : State) : (applyFlags u s).eeadr = s.eeadr := rfl
@[simp] theorem applyFlags_eecon1 (u : FlagUpdate) (s : State) : (applyFlags u s).eecon1 = s.eecon1 := rfl
@[simp] theorem applyFlags_ram (u : FlagUpdate) (s : State) : (applyFlags u s).ram = s.ram := rfl
@[simp] theorem applyFlags_eeprom (u : FlagUpdate) (s : State) : (applyFlags u s).eeprom = s.eeprom := rfl
@[simp] theorem applyFlags_prescaler (u : FlagUpdate) (s : State) : (applyFlags u s).prescaler = s.prescaler := rfl
@[simp] theorem applyFlags_wdt (u : FlagUpdate) (s : State) : (applyFlags u s).wdt = s.wdt := rfl
@[simp] theorem applyFlags_asleep (u : FlagUpdate) (s : State) : (applyFlags u s).asleep = s.asleep := rfl
@[simp] theorem applyFlags_holdOff (u : FlagUpdate) (s : State) : (applyFlags u s).holdOff = s.holdOff := rfl
@[simp] theorem applyFlags_inFlight (u : FlagUpdate) (s : State) : (applyFlags u s).inFlight = s.inFlight := rfl
@[simp] theorem applyFlags_unlock (u : FlagUpdate) (s : State) : (applyFlags u s).unlock = s.unlock := rfl
@[simp] theorem applyFlags_lastRB (u : FlagUpdate) (s : State) : (applyFlags u s).lastRB = s.lastRB := rfl
@[simp] theorem applyFlags_prevRB0 (u : FlagUpdate) (s : State) : (applyFlags u s).prevRB0 = s.prevRB0 := rfl
@[simp] theorem applyFlags_prevT0cki (u : FlagUpdate) (s : State) : (applyFlags u s).prevT0cki = s.prevT0cki := rfl
@[simp] theorem applyFlags_tmr0Hold (u : FlagUpdate) (s : State) : (applyFlags u s).tmr0Hold = s.tmr0Hold := rfl
@[simp] theorem applyFlags_envA (u : FlagUpdate) (s : State) : (applyFlags u s).envA = s.envA := rfl
@[simp] theorem applyFlags_envB (u : FlagUpdate) (s : State) : (applyFlags u s).envB = s.envB := rfl
@[simp] theorem applyFlags_undrivenB (u : FlagUpdate) (s : State) : (applyFlags u s).undrivenB = s.undrivenB := rfl
@[simp] theorem applyFlags_inputs (u : FlagUpdate) (s : State) : (applyFlags u s).inputs = s.inputs := rfl
@[simp] theorem applyFlags_draws (u : FlagUpdate) (s : State) : (applyFlags u s).draws = s.draws := rfl
@[simp] theorem applyFlags_cycles (u : FlagUpdate) (s : State) : (applyFlags u s).cycles = s.cycles := rfl
@[simp] theorem applyFlags_wdtAge (u : FlagUpdate) (s : State) : (applyFlags u s).wdtAge = s.wdtAge := rfl

/-! ### `interruptWake` -/

@[simp] theorem interruptWake_cfg (s : State) : (interruptWake s).cfg = s.cfg := rfl
@[simp] theorem interruptWake_prog (s : State) : (interruptWake s).prog = s.prog := rfl
@[simp] theorem interruptWake_w (s : State) : (interruptWake s).w = s.w := rfl
@[simp] theorem interruptWake_pc (s : State) : (interruptWake s).pc = s.pc := rfl
@[simp] theorem interruptWake_pclath (s : State) : (interruptWake s).pclath = s.pclath := rfl
@[simp] theorem interruptWake_stack (s : State) : (interruptWake s).stack = s.stack := rfl
@[simp] theorem interruptWake_sp (s : State) : (interruptWake s).sp = s.sp := rfl
@[simp] theorem interruptWake_status (s : State) : (interruptWake s).status = s.status := rfl
@[simp] theorem interruptWake_fsr (s : State) : (interruptWake s).fsr = s.fsr := rfl
@[simp] theorem interruptWake_tmr0 (s : State) : (interruptWake s).tmr0 = s.tmr0 := rfl
@[simp] theorem interruptWake_option (s : State) : (interruptWake s).option = s.option := rfl
@[simp] theorem interruptWake_intcon (s : State) : (interruptWake s).intcon = s.intcon := rfl
@[simp] theorem interruptWake_latchA (s : State) : (interruptWake s).latchA = s.latchA := rfl
@[simp] theorem interruptWake_latchB (s : State) : (interruptWake s).latchB = s.latchB := rfl
@[simp] theorem interruptWake_trisa (s : State) : (interruptWake s).trisa = s.trisa := rfl
@[simp] theorem interruptWake_trisb (s : State) : (interruptWake s).trisb = s.trisb := rfl
@[simp] theorem interruptWake_eedata (s : State) : (interruptWake s).eedata = s.eedata := rfl
@[simp] theorem interruptWake_eeadr (s : State) : (interruptWake s).eeadr = s.eeadr := rfl
@[simp] theorem interruptWake_eecon1 (s : State) : (interruptWake s).eecon1 = s.eecon1 := rfl
@[simp] theorem interruptWake_ram (s : State) : (interruptWake s).ram = s.ram := rfl
@[simp] theorem interruptWake_eeprom (s : State) : (interruptWake s).eeprom = s.eeprom := rfl
@[simp] theorem interruptWake_prescaler (s : State) : (interruptWake s).prescaler = s.prescaler := rfl
@[simp] theorem interruptWake_wdt (s : State) : (interruptWake s).wdt = s.wdt := rfl
@[simp] theorem interruptWake_asleep (s : State) : (interruptWake s).asleep = false := rfl
@[simp] theorem interruptWake_holdOff (s : State) : (interruptWake s).holdOff = true := rfl
@[simp] theorem interruptWake_inFlight (s : State) : (interruptWake s).inFlight = s.inFlight := rfl
@[simp] theorem interruptWake_unlock (s : State) : (interruptWake s).unlock = s.unlock := rfl
@[simp] theorem interruptWake_lastRB (s : State) : (interruptWake s).lastRB = s.lastRB := rfl
@[simp] theorem interruptWake_prevRB0 (s : State) : (interruptWake s).prevRB0 = s.prevRB0 := rfl
@[simp] theorem interruptWake_prevT0cki (s : State) : (interruptWake s).prevT0cki = s.prevT0cki := rfl
@[simp] theorem interruptWake_tmr0Hold (s : State) : (interruptWake s).tmr0Hold = s.tmr0Hold := rfl
@[simp] theorem interruptWake_envA (s : State) : (interruptWake s).envA = s.envA := rfl
@[simp] theorem interruptWake_envB (s : State) : (interruptWake s).envB = s.envB := rfl
@[simp] theorem interruptWake_undrivenB (s : State) : (interruptWake s).undrivenB = s.undrivenB := rfl
@[simp] theorem interruptWake_inputs (s : State) : (interruptWake s).inputs = s.inputs := rfl
@[simp] theorem interruptWake_draws (s : State) : (interruptWake s).draws = s.draws := rfl
@[simp] theorem interruptWake_cycles (s : State) : (interruptWake s).cycles = s.cycles := rfl
@[simp] theorem interruptWake_wdtAge (s : State) : (interruptWake s).wdtAge = s.wdtAge := rfl

/-! ### `resetCommon` -/

@[simp] theorem resetCommon_cfg (k : BitVec 5) (r e : Bool) (x : BitVec 3) (s : State) : (resetCommon k r e x s).cfg = s.cfg := rfl
@[simp] theorem resetCommon_prog (k : BitVec 5) (r e : Bool) (x : BitVec 3) (s : State) : (resetCommon k r e x s).prog = s.prog := rfl
@[simp] theorem resetCommon_w (k : BitVec 5) (r e : Bool) (x : BitVec 3) (s : State) : (resetCommon k r e x s).w = s.w := rfl
@[simp] theorem resetCommon_pc (k : BitVec 5) (r e : Bool) (x : BitVec 3) (s : State) : (resetCommon k r e x s).pc = 0 := rfl
@[simp] theorem resetCommon_pclath (k : BitVec 5) (r e : Bool) (x : BitVec 3) (s : State) : (resetCommon k r e x s).pclath = 0 := rfl
@[simp] theorem resetCommon_stack (k : BitVec 5) (r e : Bool) (x : BitVec 3) (s : State) : (resetCommon k r e x s).stack = s.stack := rfl
@[simp] theorem resetCommon_sp (k : BitVec 5) (r e : Bool) (x : BitVec 3) (s : State) : (resetCommon k r e x s).sp = x := rfl
@[simp] theorem resetCommon_status (k : BitVec 5) (r e : Bool) (x : BitVec 3) (s : State) : (resetCommon k r e x s).status = k.setWidth 8 := rfl
@[simp] theorem resetCommon_fsr (k : BitVec 5) (r e : Bool) (x : BitVec 3) (s : State) : (resetCommon k r e x s).fsr = s.fsr := rfl
@[simp] theorem resetCommon_tmr0 (k : BitVec 5) (r e : Bool) (x : BitVec 3) (s : State) : (resetCommon k r e x s).tmr0 = s.tmr0 := rfl
@[simp] theorem resetCommon_option (k : BitVec 5) (r e : Bool) (x : BitVec 3) (s : State) : (resetCommon k r e x s).option = 0xFF := rfl
@[simp] theorem resetCommon_intcon (k : BitVec 5) (r e : Bool) (x : BitVec 3) (s : State) : (resetCommon k r e x s).intcon = putBit 0 0 r := rfl
@[simp] theorem resetCommon_latchA (k : BitVec 5) (r e : Bool) (x : BitVec 3) (s : State) : (resetCommon k r e x s).latchA = s.latchA := rfl
@[simp] theorem resetCommon_latchB (k : BitVec 5) (r e : Bool) (x : BitVec 3) (s : State) : (resetCommon k r e x s).latchB = s.latchB := rfl
@[simp] theorem resetCommon_trisa (k : BitVec 5) (r e : Bool) (x : BitVec 3) (s : State) : (resetCommon k r e x s).trisa = 0b11111 := rfl
@[simp] theorem resetCommon_trisb (k : BitVec 5) (r e : Bool) (x : BitVec 3) (s : State) : (resetCommon k r e x s).trisb = 0xFF := rfl
@[simp] theorem resetCommon_eedata (k : BitVec 5) (r e : Bool) (x : BitVec 3) (s : State) : (resetCommon k r e x s).eedata = s.eedata := rfl
@[simp] theorem resetCommon_eeadr (k : BitVec 5) (r e : Bool) (x : BitVec 3) (s : State) : (resetCommon k r e x s).eeadr = s.eeadr := rfl
@[simp] theorem resetCommon_eecon1 (k : BitVec 5) (r e : Bool) (x : BitVec 3) (s : State) : (resetCommon k r e x s).eecon1 = putBit 0 3 e := rfl
@[simp] theorem resetCommon_ram (k : BitVec 5) (r e : Bool) (x : BitVec 3) (s : State) : (resetCommon k r e x s).ram = s.ram := rfl
@[simp] theorem resetCommon_eeprom (k : BitVec 5) (r e : Bool) (x : BitVec 3) (s : State) : (resetCommon k r e x s).eeprom = s.eeprom := rfl
@[simp] theorem resetCommon_prescaler (k : BitVec 5) (r e : Bool) (x : BitVec 3) (s : State) : (resetCommon k r e x s).prescaler = 0 := rfl
@[simp] theorem resetCommon_wdt (k : BitVec 5) (r e : Bool) (x : BitVec 3) (s : State) : (resetCommon k r e x s).wdt = 0 := rfl
@[simp] theorem resetCommon_asleep (k : BitVec 5) (r e : Bool) (x : BitVec 3) (s : State) : (resetCommon k r e x s).asleep = false := rfl
@[simp] theorem resetCommon_holdOff (k : BitVec 5) (r e : Bool) (x : BitVec 3) (s : State) : (resetCommon k r e x s).holdOff = false := rfl
@[simp] theorem resetCommon_inFlight (k : BitVec 5) (r e : Bool) (x : BitVec 3) (s : State) : (resetCommon k r e x s).inFlight = s.inFlight := rfl
@[simp] theorem resetCommon_unlock (k : BitVec 5) (r e : Bool) (x : BitVec 3) (s : State) : (resetCommon k r e x s).unlock = .locked := rfl
@[simp] theorem resetCommon_lastRB (k : BitVec 5) (r e : Bool) (x : BitVec 3) (s : State) : (resetCommon k r e x s).lastRB = s.lastRB := rfl
@[simp] theorem resetCommon_prevRB0 (k : BitVec 5) (r e : Bool) (x : BitVec 3) (s : State) : (resetCommon k r e x s).prevRB0 = s.prevRB0 := rfl
@[simp] theorem resetCommon_prevT0cki (k : BitVec 5) (r e : Bool) (x : BitVec 3) (s : State) : (resetCommon k r e x s).prevT0cki = s.prevT0cki := rfl
@[simp] theorem resetCommon_tmr0Hold (k : BitVec 5) (r e : Bool) (x : BitVec 3) (s : State) : (resetCommon k r e x s).tmr0Hold = .none := rfl
@[simp] theorem resetCommon_envA (k : BitVec 5) (r e : Bool) (x : BitVec 3) (s : State) : (resetCommon k r e x s).envA = s.envA := rfl
@[simp] theorem resetCommon_envB (k : BitVec 5) (r e : Bool) (x : BitVec 3) (s : State) : (resetCommon k r e x s).envB = s.envB := rfl
@[simp] theorem resetCommon_undrivenB (k : BitVec 5) (r e : Bool) (x : BitVec 3) (s : State) : (resetCommon k r e x s).undrivenB = s.undrivenB := rfl
@[simp] theorem resetCommon_inputs (k : BitVec 5) (r e : Bool) (x : BitVec 3) (s : State) : (resetCommon k r e x s).inputs = s.inputs := rfl
@[simp] theorem resetCommon_draws (k : BitVec 5) (r e : Bool) (x : BitVec 3) (s : State) : (resetCommon k r e x s).draws = s.draws := rfl
@[simp] theorem resetCommon_cycles (k : BitVec 5) (r e : Bool) (x : BitVec 3) (s : State) : (resetCommon k r e x s).cycles = s.cycles := rfl
@[simp] theorem resetCommon_wdtAge (k : BitVec 5) (r e : Bool) (x : BitVec 3) (s : State) : (resetCommon k r e x s).wdtAge = 0 := rfl

/-! ### `sleepOn` -/

@[simp] theorem sleepOn_cfg (s : State) : (sleepOn s).cfg = s.cfg := rfl
@[simp] theorem sleepOn_prog (s : State) : (sleepOn s).prog = s.prog := rfl
@[simp] theorem sleepOn_w (s : State) : (sleepOn s).w = s.w := rfl
@[simp] theorem sleepOn_pc (s : State) : (sleepOn s).pc = s.pc := rfl
@[simp] theorem sleepOn_pclath (s : State) : (sleepOn s).pclath = s.pclath := rfl
@[simp] theorem sleepOn_stack (s : State) : (sleepOn s).stack = s.stack := rfl
@[simp] theorem sleepOn_sp (s : State) : (sleepOn s).sp = s.sp := rfl
@[simp] theorem sleepOn_status (s : State) : (sleepOn s).status = s.status := rfl
@[simp] theorem sleepOn_fsr (s : State) : (sleepOn s).fsr = s.fsr := rfl
@[simp] theorem sleepOn_tmr0 (s : State) : (sleepOn s).tmr0 = s.tmr0 := rfl
@[simp] theorem sleepOn_option (s : State) : (sleepOn s).option = s.option := rfl
@[simp] theorem sleepOn_intcon (s : State) : (sleepOn s).intcon = s.intcon := rfl
@[simp] theorem sleepOn_latchA (s : State) : (sleepOn s).latchA = s.latchA := rfl
@[simp] theorem sleepOn_latchB (s : State) : (sleepOn s).latchB = s.latchB := rfl
@[simp] theorem sleepOn_trisa (s : State) : (sleepOn s).trisa = s.trisa := rfl
@[simp] theorem sleepOn_trisb (s : State) : (sleepOn s).trisb = s.trisb := rfl
@[simp] theorem sleepOn_eedata (s : State) : (sleepOn s).eedata = s.eedata := rfl
@[simp] theorem sleepOn_eeadr (s : State) : (sleepOn s).eeadr = s.eeadr := rfl
@[simp] theorem sleepOn_eecon1 (s : State) : (sleepOn s).eecon1 = s.eecon1 := rfl
@[simp] theorem sleepOn_ram (s : State) : (sleepOn s).ram = s.ram := rfl
@[simp] theorem sleepOn_eeprom (s : State) : (sleepOn s).eeprom = s.eeprom := rfl
@[simp] theorem sleepOn_prescaler (s : State) : (sleepOn s).prescaler = s.prescaler := rfl
@[simp] theorem sleepOn_wdt (s : State) : (sleepOn s).wdt = s.wdt := rfl
@[simp] theorem sleepOn_asleep (s : State) : (sleepOn s).asleep = s.asleep := rfl
@[simp] theorem sleepOn_holdOff (s : State) : (sleepOn s).holdOff = s.holdOff := rfl
@[simp] theorem sleepOn_inFlight (s : State) : (sleepOn s).inFlight = s.inFlight := rfl
@[simp] theorem sleepOn_unlock (s : State) : (sleepOn s).unlock = s.unlock := rfl
@[simp] theorem sleepOn_lastRB (s : State) : (sleepOn s).lastRB = s.lastRB := rfl
@[simp] theorem sleepOn_prevRB0 (s : State) : (sleepOn s).prevRB0 = s.prevRB0 := rfl
@[simp] theorem sleepOn_prevT0cki (s : State) : (sleepOn s).prevT0cki = s.prevT0cki := rfl
@[simp] theorem sleepOn_tmr0Hold (s : State) : (sleepOn s).tmr0Hold = s.tmr0Hold := rfl
@[simp] theorem sleepOn_envA (s : State) : (sleepOn s).envA = s.envA := rfl
@[simp] theorem sleepOn_envB (s : State) : (sleepOn s).envB = s.envB := rfl
@[simp] theorem sleepOn_undrivenB (s : State) : (sleepOn s).undrivenB = s.undrivenB := rfl
@[simp] theorem sleepOn_inputs (s : State) : (sleepOn s).inputs = s.inputs := rfl
@[simp] theorem sleepOn_draws (s : State) : (sleepOn s).draws = s.draws := rfl
@[simp] theorem sleepOn_cycles (s : State) : (sleepOn s).cycles = s.cycles := rfl
@[simp] theorem sleepOn_wdtAge (s : State) : (sleepOn s).wdtAge = s.wdtAge + 1 := rfl

/-! ### The register file map sees the parameters only -/

@[simp] theorem spend_loc (n : Nat) (s : State) (x : DataAddr) : (spend n s).loc x = s.loc x := rfl
@[simp] theorem advance_loc (s : State) (x : DataAddr) : (advance s).loc x = s.loc x := rfl
@[simp] theorem skipNext_loc (s : State) (x : DataAddr) : (skipNext s).loc x = s.loc x := rfl
@[simp] theorem jump_loc (p : ProgAddr) (s : State) (x : DataAddr) : (jump p s).loc x = s.loc x := rfl
@[simp] theorem push_loc (p : ProgAddr) (s : State) (x : DataAddr) : (push p s).loc x = s.loc x := rfl
@[simp] theorem pop_loc (s : State) (x : DataAddr) : (pop s).loc x = s.loc x := rfl
@[simp] theorem clearWdt_loc (s : State) (x : DataAddr) : (clearWdt s).loc x = s.loc x := rfl
@[simp] theorem setToPd_loc (p q : Bool) (s : State) (x : DataAddr) : (setToPd p q s).loc x = s.loc x := rfl
@[simp] theorem tmr0Increment_loc (s : State) (x : DataAddr) : (tmr0Increment s).loc x = s.loc x := rfl
@[simp] theorem afterRead_loc (a : DataAddr) (s : State) (x : DataAddr) : (afterRead a s).loc x = s.loc x := rfl
@[simp] theorem tmr0Write_loc (v : Byte) (s : State) (x : DataAddr) : (tmr0Write v s).loc x = s.loc x := rfl
@[simp] theorem applyFlags_loc (u : FlagUpdate) (s : State) (x : DataAddr) : (applyFlags u s).loc x = s.loc x := rfl
@[simp] theorem interruptWake_loc (s : State) (x : DataAddr) : (interruptWake s).loc x = s.loc x := rfl
@[simp] theorem resetCommon_loc (k : BitVec 5) (r e : Bool) (y : BitVec 3) (s : State) (x : DataAddr) : (resetCommon k r e y s).loc x = s.loc x := rfl
@[simp] theorem sleepOn_loc (s : State) (x : DataAddr) : (sleepOn s).loc x = s.loc x := rfl

end Sys2Proof.Machine
end

