-- ==== Sys2Proof/Laws/Operations.lean ====
section
/-! SUPPORT. For each shared operation, once, everything it can do. -/

namespace Sys2Proof.Machine

variable {s t : State} {a : DataAddr} {v : Byte} {n : Bool}

/-- A sequence goes on exactly where both parts do. -/
theorem andThen_next {r : Result} {k : State → Result} :
    andThen r k = .next t ↔ ∃ u, r = .next u ∧ k u = .next t := by
  cases r <;> simp [andThen]

@[simp] theorem andThen_of_next (u : State) (k : State → Result) : andThen (.next u) k = k u := rfl

/-! ### The register file map -/

/-- A GPR lies between 0Ch and `GPR_LAST` (R63). -/
theorem locate_gpr {dev : Device} {o : Nat} (h : locate dev a = .gpr o) :
    o = a.toNat % 128 ∧ 0x0C ≤ o ∧ o ≤ dev.gprLast := by
  unfold locate at h
  simp only at h
  split at h <;> (try split at h) <;> cases h
  refine ⟨rfl, ?_, ‹_›⟩
  by_contra hlt
  have hb : a.toNat % 128 < 12 := by omega
  interval_cases hx : a.toNat % 128 <;> simp_all

/-- A GPR lies below 50h on every device. -/
theorem gprLast_le (dev : Device) : dev.gprLast ≤ 0x4F := by cases dev <;> decide

theorem progWords_pos (dev : Device) : 0 < dev.progWords := by cases dev <;> decide

/-! ### The data EEPROM -/

/-- What an EEPROM read changes (R209). -/
theorem eepromRead_next (h : eepromRead s = .next t) :
    s.eeadr.toNat ≤ 0x3F ∧ ∃ d k, t = { s with
      eedata := d, draws := k, eecon1 := putBit s.eecon1 0 false } ∧
      (s.inFlight = none → d = Memory.read s.eeprom s.eeadr.toNat ∧ k = s.draws) := by
  unfold eepromRead at h
  split at h
  · cases h
  · refine ⟨by omega, ?_⟩
    split at h <;> rename_i hf <;> cases h
    · exact ⟨_, _, rfl, fun _ => ⟨rfl, rfl⟩⟩
    · exact ⟨_, _, rfl, fun h => by rw [hf] at h; cases h⟩

/-- What a write request changes (R210): a write starts, or nothing but the unlock position moves. -/
theorem eepromRequestWrite_next (h : eepromRequestWrite s = .next t) :
    (s.unlock = .gotAA ∧ s.wren = true ∧ s.inFlight = none ∧ s.eeadr.toNat ≤ 0x3F ∧ t = { s with
        eecon1 := putBit s.eecon1 1 true
        inFlight := some { addr := s.eeadr.setWidth 6, data := s.eedata }
        unlock := .locked }) ∨
    (¬(s.unlock = .gotAA ∧ s.wren = true ∧ s.inFlight = none) ∧ t = { s with unlock := .locked }) := by
  unfold eepromRequestWrite at h
  split at h
  · rename_i hc
    simp only [Bool.and_eq_true, decide_eq_true_eq, Option.isNone_iff_eq_none] at hc
    split at h
    · cases h
    · cases h
      exact .inl ⟨hc.1.1, hc.1.2, hc.2, by omega, rfl⟩
  · rename_i hc
    simp only [Bool.and_eq_true, decide_eq_true_eq, Option.isNone_iff_eq_none, and_assoc] at hc
    cases h
    exact .inr ⟨hc, rfl⟩

/-- The fields a write of EECON1 can change (R208). -/
theorem eecon1Write_next (h : eecon1Write v s = .next t) :
    ∃ e f u d k, t = { s with eecon1 := e, inFlight := f, unlock := u, eedata := d, draws := k } := by
  unfold eecon1Write at h
  split at h
  · cases h
  · obtain ⟨m, hm, hr⟩ := andThen_next.mp h
    have hm' : ∃ e f u, m = { s with eecon1 := e, inFlight := f, unlock := u } := by
      split at hm
      · rcases eepromRequestWrite_next hm with ⟨-, -, -, -, rfl⟩ | ⟨-, rfl⟩ <;> exact ⟨_, _, _, rfl⟩
      · cases hm; exact ⟨_, _, _, rfl⟩
    obtain ⟨e, f, u, rfl⟩ := hm'
    split at hr
    · obtain ⟨-, d, k, rfl, -⟩ := eepromRead_next hr
      exact ⟨_, _, _, _, _, rfl⟩
    · cases hr
      exact ⟨_, _, _, _, _, rfl⟩

/-! ### The resolved write, place by place (R66) -/

theorem dataWrite_indf (h : s.loc a = .indf) : dataWrite a v n s = .next (s) := by
  simp [dataWrite, h]
theorem dataWrite_tmr0 (h : s.loc a = .tmr0) : dataWrite a v n s = .next (tmr0Write v s) := by
  simp [dataWrite, h]
theorem dataWrite_option (h : s.loc a = .option) : dataWrite a v n s = .next ({ s with option := v }) := by
  simp [dataWrite, h]
theorem dataWrite_pcl (h : s.loc a = .pcl) : dataWrite a v n s = .next ({ s with pc := pclTarget s v }) := by
  simp [dataWrite, h]
theorem dataWrite_status (h : s.loc a = .status) : dataWrite a v n s = .next ({ s with status := statusWrite s.status v n }) := by
  simp [dataWrite, h]
theorem dataWrite_fsr (h : s.loc a = .fsr) : dataWrite a v n s = .next ({ s with fsr := v }) := by
  simp [dataWrite, h]
theorem dataWrite_porta (h : s.loc a = .porta) : dataWrite a v n s = .next ({ s with latchA := v.setWidth 5 }) := by
  simp [dataWrite, h]
theorem dataWrite_trisa (h : s.loc a = .trisa) : dataWrite a v n s = .next ({ s with trisa := v.setWidth 5 }) := by
  simp [dataWrite, h]
theorem dataWrite_portb (h : s.loc a = .portb) : dataWrite a v n s = .next ({ s with latchB := v }) := by
  simp [dataWrite, h]
theorem dataWrite_trisb (h : s.loc a = .trisb) : dataWrite a v n s = .next ({ s with trisb := v }) := by
  simp [dataWrite, h]
theorem dataWrite_eedata (h : s.loc a = .eedata) : dataWrite a v n s = .next ({ s with eedata := v }) := by
  simp [dataWrite, h]
theorem dataWrite_eeadr (h : s.loc a = .eeadr) : dataWrite a v n s = .next ({ s with eeadr := v }) := by
  simp [dataWrite, h]
theorem dataWrite_eecon2 (h : s.loc a = .eecon2) : dataWrite a v n s = .next ({ s with unlock := s.unlock.afterWrite v }) := by
  simp [dataWrite, h]
theorem dataWrite_pclath (h : s.loc a = .pclath) : dataWrite a v n s = .next ({ s with pclath := v.setWidth 5 }) := by
  simp [dataWrite, h]
theorem dataWrite_intcon (h : s.loc a = .intcon) : dataWrite a v n s = .next ({ s with intcon := v }) := by
  simp [dataWrite, h]
theorem dataWrite_unimplemented (h : s.loc a = .unimplemented) : dataWrite a v n s = .next (s) := by
  simp [dataWrite, h]
theorem dataWrite_eecon1 (h : s.loc a = .eecon1) : dataWrite a v n s = eecon1Write v s := by
  simp [dataWrite, h]
theorem dataWrite_gpr {o : Nat} (h : s.loc a = .gpr o) :
    dataWrite a v n s = .next { s with ram := Memory.write s.ram o v } := by
  simp [dataWrite, h]

/-- Every write but one to EECON1 goes on (R180). -/
theorem dataWrite_completes (h : s.loc a ≠ .eecon1) : ∃ t, dataWrite a v n s = .next t := by
  unfold dataWrite
  split <;> first | exact ⟨_, rfl⟩ | exact absurd ‹_› h

/-! ### What a resolved write leaves alone, field by field -/

theorem dataWrite_keeps_cfg (h : dataWrite a v n s = .next t) : t.cfg = s.cfg := by
  unfold dataWrite at h
  split at h <;> first | (cases h; rfl) | (obtain ⟨_, _, _, _, _, rfl⟩ := eecon1Write_next h; rfl)
theorem dataWrite_keeps_prog (h : dataWrite a v n s = .next t) : t.prog = s.prog := by
  unfold dataWrite at h
  split at h <;> first | (cases h; rfl) | (obtain ⟨_, _, _, _, _, rfl⟩ := eecon1Write_next h; rfl)
theorem dataWrite_keeps_w (h : dataWrite a v n s = .next t) : t.w = s.w := by
  unfold dataWrite at h
  split at h <;> first | (cases h; rfl) | (obtain ⟨_, _, _, _, _, rfl⟩ := eecon1Write_next h; rfl)
theorem dataWrite_keeps_stack (h : dataWrite a v n s = .next t) : t.stack = s.stack := by
  unfold dataWrite at h
  split at h <;> first | (cases h; rfl) | (obtain ⟨_, _, _, _, _, rfl⟩ := eecon1Write_next h; rfl)
theorem dataWrite_keeps_sp (h : dataWrite a v n s = .next t) : t.sp = s.sp := by
  unfold dataWrite at h
  split at h <;> first | (cases h; rfl) | (obtain ⟨_, _, _, _, _, rfl⟩ := eecon1Write_next h; rfl)
theorem dataWrite_keeps_eeprom (h : dataWrite a v n s = .next t) : t.eeprom = s.eeprom := by
  unfold dataWrite at h
  split at h <;> first | (cases h; rfl) | (obtain ⟨_, _, _, _, _, rfl⟩ := eecon1Write_next h; rfl)
theorem dataWrite_keeps_wdt (h : dataWrite a v n s = .next t) : t.wdt = s.wdt := by
  unfold dataWrite at h
  split at h <;> first | (cases h; rfl) | (obtain ⟨_, _, _, _, _, rfl⟩ := eecon1Write_next h; rfl)
theorem dataWrite_keeps_asleep (h : dataWrite a v n s = .next t) : t.asleep = s.asleep := by
  unfold dataWrite at h
  split at h <;> first | (cases h; rfl) | (obtain ⟨_, _, _, _, _, rfl⟩ := eecon1Write_next h; rfl)
theorem dataWrite_keeps_holdOff (h : dataWrite a v n s = .next t) : t.holdOff = s.holdOff := by
  unfold dataWrite at h
  split at h <;> first | (cases h; rfl) | (obtain ⟨_, _, _, _, _, rfl⟩ := eecon1Write_next h; rfl)
theorem dataWrite_keeps_lastRB (h : dataWrite a v n s = .next t) : t.lastRB = s.lastRB := by
  unfold dataWrite at h
  split at h <;> first | (cases h; rfl) | (obtain ⟨_, _, _, _, _, rfl⟩ := eecon1Write_next h; rfl)
theorem dataWrite_keeps_prevRB0 (h : dataWrite a v n s = .next t) : t.prevRB0 = s.prevRB0 := by
  unfold dataWrite at h
  split at h <;> first | (cases h; rfl) | (obtain ⟨_, _, _, _, _, rfl⟩ := eecon1Write_next h; rfl)
theorem dataWrite_keeps_prevT0cki (h : dataWrite a v n s = .next t) : t.prevT0cki = s.prevT0cki := by
  unfold dataWrite at h
  split at h <;> first | (cases h; rfl) | (obtain ⟨_, _, _, _, _, rfl⟩ := eecon1Write_next h; rfl)
theorem dataWrite_keeps_envA (h : dataWrite a v n s = .next t) : t.envA = s.envA := by
  unfold dataWrite at h
  split at h <;> first | (cases h; rfl) | (obtain ⟨_, _, _, _, _, rfl⟩ := eecon1Write_next h; rfl)
theorem dataWrite_keeps_envB (h : dataWrite a v n s = .next t) : t.envB = s.envB := by
  unfold dataWrite at h
  split at h <;> first | (cases h; rfl) | (obtain ⟨_, _, _, _, _, rfl⟩ := eecon1Write_next h; rfl)
theorem dataWrite_keeps_undrivenB (h : dataWrite a v n s = .next t) : t.undrivenB = s.undrivenB := by
  unfold dataWrite at h
  split at h <;> first | (cases h; rfl) | (obtain ⟨_, _, _, _, _, rfl⟩ := eecon1Write_next h; rfl)
theorem dataWrite_keeps_inputs (h : dataWrite a v n s = .next t) : t.inputs = s.inputs := by
  unfold dataWrite at h
  split at h <;> first | (cases h; rfl) | (obtain ⟨_, _, _, _, _, rfl⟩ := eecon1Write_next h; rfl)
theorem dataWrite_keeps_cycles (h : dataWrite a v n s = .next t) : t.cycles = s.cycles := by
  unfold dataWrite at h
  split at h <;> first | (cases h; rfl) | (obtain ⟨_, _, _, _, _, rfl⟩ := eecon1Write_next h; rfl)
theorem dataWrite_keeps_wdtAge (h : dataWrite a v n s = .next t) : t.wdtAge = s.wdtAge := by
  unfold dataWrite at h
  split at h <;> first | (cases h; rfl) | (obtain ⟨_, _, _, _, _, rfl⟩ := eecon1Write_next h; rfl)
theorem dataWrite_keeps_pc (h : dataWrite a v n s = .next t) (hl : s.loc a ≠ .pcl) : t.pc = s.pc := by
  unfold dataWrite at h
  split at h <;> first | exact absurd ‹_› hl | (cases h; rfl) | (obtain ⟨_, _, _, _, _, rfl⟩ := eecon1Write_next h; rfl)
theorem dataWrite_keeps_pclath (h : dataWrite a v n s = .next t) (hl : s.loc a ≠ .pclath) : t.pclath = s.pclath := by
  unfold dataWrite at h
  split at h <;> first | exact absurd ‹_› hl | (cases h; rfl) | (obtain ⟨_, _, _, _, _, rfl⟩ := eecon1Write_next h; rfl)
theorem dataWrite_keeps_status (h : dataWrite a v n s = .next t) (hl : s.loc a ≠ .status) : t.status = s.status := by
  unfold dataWrite at h
  split at h <;> first | exact absurd ‹_› hl | (cases h; rfl) | (obtain ⟨_, _, _, _, _, rfl⟩ := eecon1Write_next h; rfl)
theorem dataWrite_keeps_fsr (h : dataWrite a v n s = .next t) (hl : s.loc a ≠ .fsr) : t.fsr = s.fsr := by
  unfold dataWrite at h
  split at h <;> first | exact absurd ‹_› hl | (cases h; rfl) | (obtain ⟨_, _, _, _, _, rfl⟩ := eecon1Write_next h; rfl)
theorem dataWrite_keeps_tmr0 (h : dataWrite a v n s = .next t) (hl : s.loc a ≠ .tmr0) : t.tmr0 = s.tmr0 := by
  unfold dataWrite at h
  split at h <;> first | exact absurd ‹_› hl | (cases h; rfl) | (obtain ⟨_, _, _, _, _, rfl⟩ := eecon1Write_next h; rfl)
theorem dataWrite_keeps_option (h : dataWrite a v n s = .next t) (hl : s.loc a ≠ .option) : t.option = s.option := by
  unfold dataWrite at h
  split at h <;> first | exact absurd ‹_› hl | (cases h; rfl) | (obtain ⟨_, _, _, _, _, rfl⟩ := eecon1Write_next h; rfl)
theorem dataWrite_keeps_intcon (h : dataWrite a v n s = .next t) (hl : s.loc a ≠ .intcon) : t.intcon = s.intcon := by
  unfold dataWrite at h
  split at h <;> first | exact absurd ‹_› hl | (cases h; rfl) | (obtain ⟨_, _, _, _, _, rfl⟩ := eecon1Write_next h; rfl)
theorem dataWrite_keeps_latchA (h : dataWrite a v n s = .next t) (hl : s.loc a ≠ .porta) : t.latchA = s.latchA := by
  unfold dataWrite at h
  split at h <;> first | exact absurd ‹_› hl | (cases h; rfl) | (obtain ⟨_, _, _, _, _, rfl⟩ := eecon1Write_next h; rfl)
theorem dataWrite_keeps_latchB (h : dataWrite a v n s = .next t) (hl : s.loc a ≠ .portb) : t.latchB = s.latchB := by
  unfold dataWrite at h
  split at h <;> first | exact absurd ‹_› hl | (cases h; rfl) | (obtain ⟨_, _, _, _, _, rfl⟩ := eecon1Write_next h; rfl)
theorem dataWrite_keeps_trisa (h : dataWrite a v n s = .next t) (hl : s.loc a ≠ .trisa) : t.trisa = s.trisa := by
  unfold dataWrite at h
  split at h <;> first | exact absurd ‹_› hl | (cases h; rfl) | (obtain ⟨_, _, _, _, _, rfl⟩ := eecon1Write_next h; rfl)
theorem dataWrite_keeps_trisb (h : dataWrite a v n s = .next t) (hl : s.loc a ≠ .trisb) : t.trisb = s.trisb := by
  unfold dataWrite at h
  split at h <;> first | exact absurd ‹_› hl | (cases h; rfl) | (obtain ⟨_, _, _, _, _, rfl⟩ := eecon1Write_next h; rfl)
theorem dataWrite_keeps_eeadr (h : dataWrite a v n s = .next t) (hl : s.loc a ≠ .eeadr) : t.eeadr = s.eeadr := by
  unfold dataWrite at h
  split at h <;> first | exact absurd ‹_› hl | (cases h; rfl) | (obtain ⟨_, _, _, _, _, rfl⟩ := eecon1Write_next h; rfl)
theorem dataWrite_keeps_prescaler (h : dataWrite a v n s = .next t) (hl : s.loc a ≠ .tmr0) : t.prescaler = s.prescaler := by
  unfold dataWrite at h
  split at h <;> first | exact absurd ‹_› hl | (cases h; rfl) | (obtain ⟨_, _, _, _, _, rfl⟩ := eecon1Write_next h; rfl)
theorem dataWrite_keeps_tmr0Hold (h : dataWrite a v n s = .next t) (hl : s.loc a ≠ .tmr0) : t.tmr0Hold = s.tmr0Hold := by
  unfold dataWrite at h
  split at h <;> first | exact absurd ‹_› hl | (cases h; rfl) | (obtain ⟨_, _, _, _, _, rfl⟩ := eecon1Write_next h; rfl)
theorem dataWrite_keeps_eecon1 (h : dataWrite a v n s = .next t) (hl : s.loc a ≠ .eecon1) : t.eecon1 = s.eecon1 := by
  unfold dataWrite at h
  split at h <;> first | exact absurd ‹_› hl | (cases h; rfl)
theorem dataWrite_keeps_inFlight (h : dataWrite a v n s = .next t) (hl : s.loc a ≠ .eecon1) : t.inFlight = s.inFlight := by
  unfold dataWrite at h
  split at h <;> first | exact absurd ‹_› hl | (cases h; rfl)
theorem dataWrite_keeps_draws (h : dataWrite a v n s = .next t) (hl : s.loc a ≠ .eecon1) : t.draws = s.draws := by
  unfold dataWrite at h
  split at h <;> first | exact absurd ‹_› hl | (cases h; rfl)
theorem dataWrite_keeps_ram (h : dataWrite a v n s = .next t) (hl : ∀ o, s.loc a ≠ .gpr o) :
    t.ram = s.ram := by
  unfold dataWrite at h
  split at h <;> first | exact absurd ‹_› (hl _) | (cases h; rfl) | (obtain ⟨_, _, _, _, _, rfl⟩ := eecon1Write_next h; rfl)

/-- A resolved write changes no RAM byte but the one it names. -/
theorem dataWrite_ram_other (hm : Memory.wf s.ram = true) (h : dataWrite a v n s = .next t) {x : Nat}
    (hx : s.loc a ≠ .gpr x) : Memory.read t.ram x = Memory.read s.ram x := by
  by_cases hg : ∃ o, s.loc a = .gpr o
  · obtain ⟨o, ho⟩ := hg
    rw [dataWrite_gpr ho] at h
    cases h
    exact Memory.read_write_other hm (fun e => hx (by rw [ho, e])) v
  · rw [dataWrite_keeps_ram h (fun o ho => hg ⟨o, ho⟩)]

/-! ### The template of R131 -/

/-- With d = 0 the file register is not written and the instruction always completes. -/
theorem modify_w (f : Nat) (op : Byte → AluResult) (k : Byte → Bool) (s : State) :
    modify f .w op k s =
      .next (finish (ea s f) .w (k (op (dataRead s (ea s f))).value)
        (applyFlags (op (dataRead s (ea s f))).flags
          { afterRead (ea s f) s with w := (op (dataRead s (ea s f))).value })) := rfl

/-- With d = 1 the instruction goes on exactly where its write does. -/
theorem modify_f_next {f : Nat} {op : Byte → AluResult} {k : Byte → Bool} :
    modify f .f op k s = .next t ↔ ∃ u,
      dataWrite (ea s f) (op (dataRead s (ea s f))).value (op (dataRead s (ea s f))).flags.affectsNone
        (afterRead (ea s f) s) = .next u ∧
      t = finish (ea s f) .f (k (op (dataRead s (ea s f))).value)
        (applyFlags (op (dataRead s (ea s f))).flags u) := by
  simp only [modify, storeAndFinish, store, andThen_next]
  constructor
  · rintro ⟨m, ⟨u, hu, hm⟩, ht⟩
    cases hm; cases ht
    exact ⟨u, hu, rfl⟩
  · rintro ⟨u, hu, rfl⟩
    exact ⟨_, ⟨u, hu, rfl⟩, rfl⟩

/-- `overwrite` goes on exactly where its write does. -/
theorem overwrite_next {f : Nat} {r : AluResult} :
    overwrite f r s = .next t ↔ ∃ u,
      dataWrite (ea s f) r.value r.flags.affectsNone s = .next u ∧
      t = finish (ea s f) .f false (applyFlags r.flags u) := by
  simp only [overwrite, storeAndFinish, store, andThen_next]
  constructor
  · rintro ⟨m, ⟨u, hu, hm⟩, ht⟩
    cases hm; cases ht
    exact ⟨u, hu, rfl⟩
  · rintro ⟨u, hu, rfl⟩
    exact ⟨_, ⟨u, hu, rfl⟩, rfl⟩

/-- The three ends of an instruction (R131 step 6). -/
theorem finish_cases (a : DataAddr) (d : Dest) (k : Bool) (s : State) :
    (d = .f ∧ s.loc a = .pcl ∧ finish a d k s = spend 2 s) ∨
    (¬(d = .f ∧ s.loc a = .pcl) ∧ k = true ∧ finish a d k s = skipNext s) ∨
    (¬(d = .f ∧ s.loc a = .pcl) ∧ k = false ∧ finish a d k s = advance s) := by
  unfold finish
  split
  · rename_i h; exact .inl ⟨h.1, h.2, rfl⟩
  · rename_i h
    cases k
    · exact .inr (.inr ⟨h, rfl, rfl⟩)
    · exact .inr (.inl ⟨h, rfl, rfl⟩)

/-- The end of an instruction moves the PC and the cycle counts only. -/
theorem finish_eq (a : DataAddr) (d : Dest) (k : Bool) (s : State) :
    finish a d k s = { s with
      pc := (finish a d k s).pc, cycles := (finish a d k s).cycles, wdtAge := (finish a d k s).wdtAge } := by
  rcases finish_cases a d k s with ⟨-, -, h⟩ | ⟨-, -, h⟩ | ⟨-, -, h⟩ <;> rw [h] <;> rfl

/-- A bit test moves the PC and the cycle counts only, and latches RB<7:4> where it reads PORTB. -/
theorem testBit_cases (f b : Nat) (k : Bool) (s : State) :
    ((dataRead s (ea s f)).getLsbD (bitIndex b) = k ∧
      testBit f b k s = .next (skipNext (afterRead (ea s f) s))) ∨
    ((dataRead s (ea s f)).getLsbD (bitIndex b) ≠ k ∧
      testBit f b k s = .next (advance (afterRead (ea s f) s))) := by
  by_cases h : (dataRead s (ea s f)).getLsbD (bitIndex b) = k
  · exact .inl ⟨h, by simp only [testBit, h, if_true]⟩
  · exact .inr ⟨h, by simp only [testBit, h, if_false]⟩

/-! ### The stack, interrupt entry and return -/

/-- TOS right after a push is what was pushed (R17). -/
theorem tos_push (hs : Memory.wf s.stack = true) (p : ProgAddr) : (push p s).tos = p := by
  simp only [State.tos, push_sp, push_stack, BitVec.add_sub_cancel]
  exact Memory.read_write_same hs _ _

/-- A pop after a push puts the pointer back (R17, R18). -/
theorem pop_push_sp (p : ProgAddr) (s : State) : (pop (push p s)).sp = s.sp := by
  simp

/-- Everything taking an interrupt changes (R184). -/
theorem interruptEntry_eq (s : State) : interruptEntry s = { s with
    stack := Memory.write s.stack s.sp.toNat s.pc
    sp := s.sp + 1
    intcon := putBit s.intcon 7 false
    pc := 0x0004
    cycles := s.cycles + 2
    wdtAge := s.wdtAge + 2 } := rfl

/-- Everything returning from an interrupt changes (R158). -/
theorem interruptReturn_eq (s : State) : interruptReturn s = { s with
    sp := s.sp - 1
    intcon := putBit s.intcon 7 true
    pc := s.tos
    cycles := s.cycles + 2
    wdtAge := s.wdtAge + 2 } := rfl

/-- Everything a return changes (R160). -/
theorem returnPop_eq (s : State) : returnPop s = { s with
    sp := s.sp - 1, pc := s.tos, cycles := s.cycles + 2, wdtAge := s.wdtAge + 2 } := rfl

/-! ### Timer0 -/

/-- A tick moves TMR0, its prescaler and T0IF only (R196, R198). -/
theorem tmr0Tick_eq (s : State) : ∃ x p i, tmr0Tick s = { s with tmr0 := x, prescaler := p, intcon := i } := by
  simp only [tmr0Tick, tmr0Increment]
  repeat' split
  all_goals exact ⟨_, _, _, rfl⟩

/-- `n` cycles of Timer0 move TMR0, its prescaler, T0IF and the inhibit only (R196, R197). -/
theorem tmr0Cycles_eq (m : Nat) : ∀ s : State, ∃ x p i h, tmr0Cycles m s =
    { s with tmr0 := x, prescaler := p, intcon := i, tmr0Hold := h } := by
  induction m with
  | zero => intro s; exact ⟨_, _, _, _, rfl⟩
  | succ m ih =>
    intro s
    obtain ⟨x, p, i, h, e⟩ := ih (tmr0Cycle s)
    obtain ⟨x', p', i', e'⟩ := tmr0Tick_eq s
    refine ⟨x, p, i, h, ?_⟩
    rw [tmr0Cycles, e]
    unfold tmr0Cycle
    rw [e']
    split <;> rfl

/-- What Timer0 does beside an instruction (R196, R197). -/
theorem timer0After_eq (s t : State) : ∃ x p i h, timer0After s t =
    { t with tmr0 := x, prescaler := p, intcon := i, tmr0Hold := h } := by
  unfold timer0After
  split
  · exact ⟨_, _, _, _, rfl⟩
  · split
    · exact ⟨_, _, _, _, rfl⟩
    · exact tmr0Cycles_eq _ t

/-- With `TMR0_MODEL` = `free` Timer0 does nothing beside an instruction (R195). -/
theorem timer0After_free (h : t.cfg.tmr0Model = .free) : timer0After s t = t := by
  simp [timer0After, h]

theorem tmr0Cycles_hold (m : Nat) : ∀ s : State, s.tmr0Hold ≠ .written → (tmr0Cycles m s).tmr0Hold ≠ .written := by
  induction m with
  | zero => intro s h; exact h
  | succ m ih =>
    intro s h
    refine ih _ ?_
    simp only [tmr0Cycle]
    generalize (if s.t0cs = true then s else tmr0Tick s).tmr0Hold = x
    cases x <;> simp [TmrHold.next]

/-- The mark of an instruction that writes TMR0 is gone once its cycles are charged (R197). -/
theorem timer0After_hold (h : t.cfg.tmr0Model = .free → t.tmr0Hold ≠ .written) :
    (timer0After s t).tmr0Hold ≠ .written := by
  unfold timer0After
  split
  · rename_i hm; exact h hm
  · split
    · simp
    · rename_i hw; exact tmr0Cycles_hold _ t hw

end Sys2Proof.Machine
end

