-- ==== Sys2Proof/Laws/Environment.lean ====
section
/-! SUPPORT. What the agents beside the CPU, the resets and one step can do, once. -/

namespace Sys2Proof.Machine

variable {s t u : State}

/-- `t` is `s` after moves of the agents beside the CPU: pins, Timer0, watchdog clock, write engine. -/
def AgentsOnly (s t : State) : Prop :=
  ∃ a b c i x p r k e q f d, t = { s with
    envA := a, envB := b, undrivenB := c, intcon := i, tmr0 := x, prescaler := p, prevRB0 := r,
    prevT0cki := k, eeprom := e, eecon1 := q, inFlight := f, wdt := d }

theorem AgentsOnly.refl (s : State) : AgentsOnly s s := ⟨_, _, _, _, _, _, _, _, _, _, _, _, rfl⟩

theorem AgentsOnly.trans (h : AgentsOnly s t) (h' : AgentsOnly t u) : AgentsOnly s u := by
  obtain ⟨_, _, _, _, _, _, _, _, _, _, _, _, rfl⟩ := h
  obtain ⟨_, _, _, _, _, _, _, _, _, _, _, _, rfl⟩ := h'
  exact ⟨_, _, _, _, _, _, _, _, _, _, _, _, rfl⟩

/-- What sampling the pins changes (R199, R218, R219). -/
theorem samplePins_eq (s : State) : ∃ i x p, samplePins s = { s with
    intcon := i, tmr0 := x, prescaler := p
    prevRB0 := (pinB s).getLsbD 0, prevT0cki := (pinA s).getLsbD 4 } := by
  simp only [samplePins]
  split
  · obtain ⟨x, p, i, h⟩ := tmr0Tick_eq { s with
      intcon := raiseIf s.portChange 0 (raiseIf s.intEdge 1 s.intcon)
      prevRB0 := (pinB s).getLsbD 0
      prevT0cki := (pinA s).getLsbD 4 }
    exact ⟨i, x, p, h⟩
  · exact ⟨_, _, _, rfl⟩

theorem samplePins_agents (s : State) : AgentsOnly s (samplePins s) := by
  obtain ⟨i, x, p, h⟩ := samplePins_eq s
  rw [h]; exact ⟨_, _, _, _, _, _, _, _, _, _, _, _, rfl⟩

/-- Without a write in flight, a completion is nothing; with one, R211. -/
theorem eepromComplete_cases (s : State) :
    (s.inFlight = none ∧ eepromComplete s = s) ∨
    ∃ e, s.inFlight = some e ∧ eepromComplete s = { s with
      eeprom := Memory.write s.eeprom e.addr.toNat e.data
      eecon1 := putBit (putBit s.eecon1 1 false) 4 true
      inFlight := none } := by
  unfold eepromComplete
  split <;> rename_i h
  · exact .inl ⟨h, rfl⟩
  · exact .inr ⟨_, h, rfl⟩

/-- Every move of the environment leaves the CPU's own state alone (R8). -/
theorem applyEvent_agents (s : State) (e : EnvEvent) : AgentsOnly s (applyEvent s e) := by
  cases e with
  | pins a b c =>
    exact AgentsOnly.trans (t := { s with envA := a, envB := b, undrivenB := c })
      ⟨_, _, _, _, _, _, _, _, _, _, _, _, rfl⟩ (samplePins_agents _)
  | timer0 n p => simp only [applyEvent, tmr0Free]; split <;> exact ⟨_, _, _, _, _, _, _, _, _, _, _, _, rfl⟩
  | eepromDone =>
    rcases eepromComplete_cases s with ⟨-, h⟩ | ⟨e, -, h⟩ <;> simp only [applyEvent, h] <;>
      exact ⟨_, _, _, _, _, _, _, _, _, _, _, _, rfl⟩
  | wdtClock n p => simp only [applyEvent, wdtMove]; split <;> exact ⟨_, _, _, _, _, _, _, _, _, _, _, _, rfl⟩

theorem applyEvents_agents (es : List EnvEvent) : ∀ s : State, AgentsOnly s (es.foldl applyEvent s) := by
  induction es with
  | nil => exact AgentsOnly.refl
  | cons e es ih => intro s; exact (applyEvent_agents s e).trans (ih _)

/-- A property that sampling and every move of the environment keep holds after the boundary. -/
theorem applyEvents_keeps {P : State → Prop} (hP : ∀ s e, P s → P (applyEvent s e)) (es : List EnvEvent) :
    ∀ s, P s → P (es.foldl applyEvent s) := by
  induction es with
  | nil => exact fun _ h => h
  | cons e es ih => intro s h; exact ih _ (hP s e h)

/-- What a boundary can do: consume at most one entry of the queue and let the agents move. -/
theorem atBoundary_agents (s : State) : ∃ q, AgentsOnly { s with inputs := q } (atBoundary s).1 := by
  unfold atBoundary
  split
  · rename_i h
    refine ⟨[], ?_⟩
    rw [← h]
    exact samplePins_agents s
  · exact ⟨_, (samplePins_agents _).trans (applyEvents_agents _ _)⟩

/-- With nothing queued a boundary only samples the pins. -/
theorem atBoundary_nil (h : s.inputs = []) : atBoundary s = (samplePins s, none) := by
  simp [atBoundary, h]

/-- A boundary that takes nothing over, with its agents' moves. -/
theorem atBoundary_cons {b : Boundary} {rest : List Boundary} (h : s.inputs = b :: rest)
    (hb : b.takeover = none) :
    atBoundary s = (b.events.foldl applyEvent (samplePins { s with inputs := rest }), none) := by
  simp [atBoundary, h, hb]

/-- Abandoning a write touches the array and the write in flight only (R239). -/
theorem abandonWrite_cases (x : Byte) (s : State) :
    (s.inFlight = none ∧ abandonWrite x s = s) ∨
    ∃ e, s.inFlight = some e ∧ abandonWrite x s = { s with
      eeprom := Memory.write s.eeprom e.addr.toNat x, inFlight := none } := by
  unfold abandonWrite
  split <;> rename_i h
  · exact .inl ⟨h, rfl⟩
  · exact .inr ⟨_, h, rfl⟩

/-- The five ways a step can go on. -/
theorem runStep_next (h : runStep s = .next t) :
    (∃ d, (atBoundary s).2 = some (.powerOn d) ∧ t = powerOnReset d (atBoundary s).1) ∨
    (∃ d, (atBoundary s).2 = some (.mclr d) ∧ t = mclrReset d (atBoundary s).1) ∨
    (∃ d, (atBoundary s).2 = some (.wdtTimeout d) ∧ t = wdtTimeout d (atBoundary s).1) ∨
    ((atBoundary s).2 = none ∧ cpuStep (atBoundary s).1 = .next t) := by
  unfold runStep at h
  split at h <;> rename_i hb <;> simp only [hb]
  · cases h; exact .inl ⟨_, rfl, rfl⟩
  · cases h; exact .inr (.inl ⟨_, rfl, rfl⟩)
  · cases h; exact .inr (.inr (.inl ⟨_, rfl, rfl⟩))
  · exact .inr (.inr (.inr ⟨trivial, h⟩))

/-- The ways the CPU's part of a step can go on (R183, R184, R190, R191, R97, R99). -/
theorem cpuStep_next (h : cpuStep s = .next t) :
    (s.asleep = true ∧ s.intPending = true ∧ t = interruptWake s) ∨
    (s.asleep = true ∧ s.intPending = false ∧ t = sleepOn s) ∨
    (s.asleep = false ∧ s.intDue = true ∧ t = timer0After s (interruptEntry s)) ∨
    (s.asleep = false ∧ s.intDue = false ∧ ∃ u, t = timer0After { s with holdOff := false } u ∧
      ((∃ i, decode (fetch s) = .ok i ∧ exec i { s with holdOff := false } = .next u) ∨
       (∃ w, decode (fetch s) = .error (.unassigned w) ∧ s.cfg.unassigned = .nop ∧
          u = advance { s with holdOff := false }))) := by
  unfold cpuStep at h
  by_cases ha : s.asleep = true
  · rw [if_pos ha] at h
    cases h
    cases hp : s.intPending <;> simp [ha]
  · rw [if_neg ha] at h
    rw [Bool.not_eq_true] at ha
    by_cases hd : s.intDue = true
    · rw [if_pos hd] at h
      cases h
      exact .inr (.inr (.inl ⟨ha, hd, rfl⟩))
    · rw [if_neg hd] at h
      rw [Bool.not_eq_true] at hd
      refine .inr (.inr (.inr ⟨ha, hd, ?_⟩))
      obtain ⟨u, hu, ht⟩ := andThen_next.mp h
      cases ht
      refine ⟨u, rfl, ?_⟩
      have hf : fetch { s with holdOff := false } = fetch s := rfl
      rw [hf] at hu
      split at hu <;> rename_i hw
      · exact .inl ⟨_, hw, hu⟩
      · simp only [runUnassigned] at hu
        split at hu
        · cases hu
        · rename_i hn
          cases hu
          exact .inr ⟨_, hw, hn, rfl⟩

end Sys2Proof.Machine
end

