-- ==== Sys2Proof/Laws/PerInstr.lean ====
section
/-! SUPPORT. Statements about all instructions as syntax, one lemma a constructor. -/

namespace Sys2Proof.Laws

/-- The fixed bits of an instruction's row of spec/opcode_table.json: (hi, lo, value) for bits hi to lo. -/
def fixedBits : Instr → List (Nat × Nat × Nat)
  | .addwf _ _ => [(13, 8, 7)]
  | .andwf _ _ => [(13, 8, 5)]
  | .clrf _ => [(13, 7, 3)]
  | .clrw => [(13, 7, 2)]
  | .comf _ _ => [(13, 8, 9)]
  | .decf _ _ => [(13, 8, 3)]
  | .decfsz _ _ => [(13, 8, 11)]
  | .incf _ _ => [(13, 8, 10)]
  | .incfsz _ _ => [(13, 8, 15)]
  | .iorwf _ _ => [(13, 8, 4)]
  | .movf _ _ => [(13, 8, 8)]
  | .movwf _ => [(13, 7, 1)]
  | .nop => [(4, 0, 0), (13, 7, 0)]
  | .rlf _ _ => [(13, 8, 13)]
  | .rrf _ _ => [(13, 8, 12)]
  | .subwf _ _ => [(13, 8, 2)]
  | .swapf _ _ => [(13, 8, 14)]
  | .xorwf _ _ => [(13, 8, 6)]
  | .bcf _ _ => [(13, 10, 4)]
  | .bsf _ _ => [(13, 10, 5)]
  | .btfsc _ _ => [(13, 10, 6)]
  | .btfss _ _ => [(13, 10, 7)]
  | .addlw _ => [(13, 9, 31)]
  | .andlw _ => [(13, 8, 57)]
  | .call _ => [(13, 11, 4)]
  | .clrwdt => [(13, 0, 100)]
  | .goto _ => [(13, 11, 5)]
  | .iorlw _ => [(13, 8, 56)]
  | .movlw _ => [(13, 10, 12)]
  | .retfie => [(13, 0, 9)]
  | .retlw _ => [(13, 10, 13)]
  | .return_ => [(13, 0, 8)]
  | .sleep => [(13, 0, 99)]
  | .sublw _ => [(13, 9, 30)]
  | .xorlw _ => [(13, 8, 58)]
  | .option => [(13, 0, 98)]
  | .tris5 => [(13, 0, 101)]
  | .tris6 => [(13, 0, 102)]
  | .tris7 => [(13, 0, 103)]

/-- The encoded word carries the fixed bits of its row of the opcode table (R96). -/
def OpcodeBits.Statement (i : Instr) : Prop :=
  ∀ x ∈ fixedBits i, field (encode i) x.1 x.2.1 = x.2.2

theorem opcode_bits {w : InstrWord} {hi lo v : Nat} (h : field w hi lo = v) :
    ∀ x ∈ [(hi, lo, v)], field w x.1 x.2.1 = x.2.2 := by
  intro x hx
  simp only [List.mem_singleton] at hx
  subst hx
  exact h

theorem OpcodeBits.addwf (f : Nat) (d : Dest) : OpcodeBits.Statement (.addwf f d) := opcode_bits (byteWord_opcode (by decide) f d)
theorem OpcodeBits.andwf (f : Nat) (d : Dest) : OpcodeBits.Statement (.andwf f d) := opcode_bits (byteWord_opcode (by decide) f d)
theorem OpcodeBits.clrf (f : Nat) : OpcodeBits.Statement (.clrf f) := opcode_bits (byteWord_file_opcode (by decide) f)
theorem OpcodeBits.clrw : OpcodeBits.Statement .clrw := by unfold OpcodeBits.Statement; decide
theorem OpcodeBits.comf (f : Nat) (d : Dest) : OpcodeBits.Statement (.comf f d) := opcode_bits (byteWord_opcode (by decide) f d)
theorem OpcodeBits.decf (f : Nat) (d : Dest) : OpcodeBits.Statement (.decf f d) := opcode_bits (byteWord_opcode (by decide) f d)
theorem OpcodeBits.decfsz (f : Nat) (d : Dest) : OpcodeBits.Statement (.decfsz f d) := opcode_bits (byteWord_opcode (by decide) f d)
theorem OpcodeBits.incf (f : Nat) (d : Dest) : OpcodeBits.Statement (.incf f d) := opcode_bits (byteWord_opcode (by decide) f d)
theorem OpcodeBits.incfsz (f : Nat) (d : Dest) : OpcodeBits.Statement (.incfsz f d) := opcode_bits (byteWord_opcode (by decide) f d)
theorem OpcodeBits.iorwf (f : Nat) (d : Dest) : OpcodeBits.Statement (.iorwf f d) := opcode_bits (byteWord_opcode (by decide) f d)
theorem OpcodeBits.movf (f : Nat) (d : Dest) : OpcodeBits.Statement (.movf f d) := opcode_bits (byteWord_opcode (by decide) f d)
theorem OpcodeBits.movwf (f : Nat) : OpcodeBits.Statement (.movwf f) := opcode_bits (byteWord_file_opcode (by decide) f)
theorem OpcodeBits.nop : OpcodeBits.Statement .nop := by unfold OpcodeBits.Statement; decide
theorem OpcodeBits.rlf (f : Nat) (d : Dest) : OpcodeBits.Statement (.rlf f d) := opcode_bits (byteWord_opcode (by decide) f d)
theorem OpcodeBits.rrf (f : Nat) (d : Dest) : OpcodeBits.Statement (.rrf f d) := opcode_bits (byteWord_opcode (by decide) f d)
theorem OpcodeBits.subwf (f : Nat) (d : Dest) : OpcodeBits.Statement (.subwf f d) := opcode_bits (byteWord_opcode (by decide) f d)
theorem OpcodeBits.swapf (f : Nat) (d : Dest) : OpcodeBits.Statement (.swapf f d) := opcode_bits (byteWord_opcode (by decide) f d)
theorem OpcodeBits.xorwf (f : Nat) (d : Dest) : OpcodeBits.Statement (.xorwf f d) := opcode_bits (byteWord_opcode (by decide) f d)
theorem OpcodeBits.bcf (f : Nat) (b : Nat) : OpcodeBits.Statement (.bcf f b) := opcode_bits (bitWord_opcode (by decide) f b)
theorem OpcodeBits.bsf (f : Nat) (b : Nat) : OpcodeBits.Statement (.bsf f b) := opcode_bits (bitWord_opcode (by decide) f b)
theorem OpcodeBits.btfsc (f : Nat) (b : Nat) : OpcodeBits.Statement (.btfsc f b) := opcode_bits (bitWord_opcode (by decide) f b)
theorem OpcodeBits.btfss (f : Nat) (b : Nat) : OpcodeBits.Statement (.btfss f b) := opcode_bits (bitWord_opcode (by decide) f b)
theorem OpcodeBits.addlw (k : Nat) : OpcodeBits.Statement (.addlw k) := opcode_bits (literalWord_opcode (lo := 9) (by decide) (by decide) (by decide) k)
theorem OpcodeBits.andlw (k : Nat) : OpcodeBits.Statement (.andlw k) := opcode_bits (literalWord_opcode (lo := 8) (by decide) (by decide) (by decide) k)
theorem OpcodeBits.call (k : Nat) : OpcodeBits.Statement (.call k) := opcode_bits (targetWord_opcode (by decide) k)
theorem OpcodeBits.clrwdt : OpcodeBits.Statement .clrwdt := by unfold OpcodeBits.Statement; decide
theorem OpcodeBits.goto (k : Nat) : OpcodeBits.Statement (.goto k) := opcode_bits (targetWord_opcode (by decide) k)
theorem OpcodeBits.iorlw (k : Nat) : OpcodeBits.Statement (.iorlw k) := opcode_bits (literalWord_opcode (lo := 8) (by decide) (by decide) (by decide) k)
theorem OpcodeBits.movlw (k : Nat) : OpcodeBits.Statement (.movlw k) := opcode_bits (literalWord_opcode (lo := 10) (by decide) (by decide) (by decide) k)
theorem OpcodeBits.retfie : OpcodeBits.Statement .retfie := by unfold OpcodeBits.Statement; decide
theorem OpcodeBits.retlw (k : Nat) : OpcodeBits.Statement (.retlw k) := opcode_bits (literalWord_opcode (lo := 10) (by decide) (by decide) (by decide) k)
theorem OpcodeBits.return_ : OpcodeBits.Statement .return_ := by unfold OpcodeBits.Statement; decide
theorem OpcodeBits.sleep : OpcodeBits.Statement .sleep := by unfold OpcodeBits.Statement; decide
theorem OpcodeBits.sublw (k : Nat) : OpcodeBits.Statement (.sublw k) := opcode_bits (literalWord_opcode (lo := 9) (by decide) (by decide) (by decide) k)
theorem OpcodeBits.xorlw (k : Nat) : OpcodeBits.Statement (.xorlw k) := opcode_bits (literalWord_opcode (lo := 8) (by decide) (by decide) (by decide) k)
theorem OpcodeBits.option : OpcodeBits.Statement .option := by unfold OpcodeBits.Statement; decide
theorem OpcodeBits.tris5 : OpcodeBits.Statement .tris5 := by unfold OpcodeBits.Statement; decide
theorem OpcodeBits.tris6 : OpcodeBits.Statement .tris6 := by unfold OpcodeBits.Statement; decide
theorem OpcodeBits.tris7 : OpcodeBits.Statement .tris7 := by unfold OpcodeBits.Statement; decide

end Sys2Proof.Laws
end

