-- ==== Sys2Proof/Tests/Slice0.lean ====
section
/-! SUPPORT. The model's own tests: ill-formed terms, the words of R96, the source's examples, and a state
or operand that meets the hypotheses of each statement. -/

namespace Sys2Proof.Tests

open Sys2Proof.Machine Sys2Proof.Claims

/-- What a result's next state says; false where it stops. -/
def after (r : Result) (p : State → Bool) : Bool :=
  match r with
  | .next t => p t
  | _ => false

/-- The state after reset with one GPR, W and the flag bits Z, DC, C as given. -/
def gprState (addr : Nat) (v w : Byte) (flags : BitVec 3) : State :=
  { State.reset with ram := [(addr, v)], w := w, status := 0b00011#5 ++ flags }

/-- The state after reset with a word where the next step fetches. -/
def placed (word : Nat) : State := State.reset.withFetchWord 14 word

/-! ### WellFormed refuses what is out of range (R95) -/

theorem test_file_address_refused : ¬ (Instr.addwf 128 .w).WellFormed := by decide
theorem test_file_address_refused_without_d : ¬ (Instr.movwf 128).WellFormed := by decide
theorem test_file_address_refused_with_bit : ¬ (Instr.bcf 128 7).WellFormed := by decide
theorem test_bit_number_refused : ¬ (Instr.btfss 127 8).WellFormed := by decide
theorem test_literal_refused : ¬ (Instr.addlw 256).WellFormed := by decide
theorem test_target_refused : ¬ (Instr.call 2048).WellFormed := by decide

/-! ### Each constructor's word, written out from R96 -/

theorem test_decode_addwf : decode 0b00_0111_1_0000100 = .ok (.addwf 4 .f) := by decide
theorem test_decode_andwf : decode 0b00_0101_0_1111111 = .ok (.andwf 127 .w) := by decide
theorem test_decode_clrf : decode 0b00_0001_1_0110000 = .ok (.clrf 0x30) := by decide
theorem test_decode_clrw : decode 0b00_0001_0_1010101 = .ok .clrw := by decide
theorem test_decode_comf : decode 0b00_1001_0_0001101 = .ok (.comf 13 .w) := by decide
theorem test_decode_decf : decode 0b00_0011_1_0001101 = .ok (.decf 13 .f) := by decide
theorem test_decode_decfsz : decode 0b00_1011_1_0001100 = .ok (.decfsz 12 .f) := by decide
theorem test_decode_incf : decode 0b00_1010_1_0000100 = .ok (.incf 4 .f) := by decide
theorem test_decode_incfsz : decode 0b00_1111_0_0001100 = .ok (.incfsz 12 .w) := by decide
theorem test_decode_iorwf : decode 0b00_0100_0_0010011 = .ok (.iorwf 19 .w) := by decide
theorem test_decode_movf : decode 0b00_1000_1_0000110 = .ok (.movf 6 .f) := by decide
theorem test_decode_movwf : decode 0b00_0000_1_0000001 = .ok (.movwf 1) := by decide
theorem test_decode_nop : decode 0b00_0000_0_11_00000 = .ok .nop := by decide
theorem test_decode_rlf : decode 0b00_1101_1_0100000 = .ok (.rlf 32 .f) := by decide
theorem test_decode_rrf : decode 0b00_1100_0_0100001 = .ok (.rrf 33 .w) := by decide
theorem test_decode_subwf : decode 0b00_0010_1_0100010 = .ok (.subwf 34 .f) := by decide
theorem test_decode_swapf : decode 0b00_1110_0_0000011 = .ok (.swapf 3 .w) := by decide
theorem test_decode_xorwf : decode 0b00_0110_1_0101111 = .ok (.xorwf 47 .f) := by decide
theorem test_decode_bcf : decode 0b01_00_101_0000011 = .ok (.bcf 3 5) := by decide
theorem test_decode_bsf : decode 0b01_01_001_0001000 = .ok (.bsf 8 1) := by decide
theorem test_decode_btfsc : decode 0b01_10_000_1111111 = .ok (.btfsc 127 0) := by decide
theorem test_decode_btfss : decode 0b01_11_111_0000100 = .ok (.btfss 4 7) := by decide
theorem test_decode_addlw : decode 0b11_1111_00010101 = .ok (.addlw 0x15) := by decide
theorem test_decode_andlw : decode 0b11_1001_01011111 = .ok (.andlw 0x5F) := by decide
theorem test_decode_call : decode 0b10_0_11111111110 = .ok (.call 2046) := by decide
theorem test_decode_clrwdt : decode 0b00_0000_0110_0100 = .ok .clrwdt := by decide
theorem test_decode_goto : decode 0b10_1_00000000010 = .ok (.goto 2) := by decide
theorem test_decode_iorlw : decode 0b11_1000_00110101 = .ok (.iorlw 0x35) := by decide
theorem test_decode_movlw : decode 0b11_0010_01011010 = .ok (.movlw 0x5A) := by decide
theorem test_decode_retfie : decode 0b00_0000_0000_1001 = .ok .retfie := by decide
theorem test_decode_retlw : decode 0b11_0111_11111111 = .ok (.retlw 255) := by decide
theorem test_decode_return : decode 0b00_0000_0000_1000 = .ok .return_ := by decide
theorem test_decode_sleep : decode 0b00_0000_0110_0011 = .ok .sleep := by decide
theorem test_decode_sublw : decode 0b11_1101_00000010 = .ok (.sublw 2) := by decide
theorem test_decode_xorlw : decode 0b11_1010_10101111 = .ok (.xorlw 0xAF) := by decide
theorem test_decode_option : decode 0b00_0000_0110_0010 = .ok .option := by decide
theorem test_decode_tris5 : decode 0b00_0000_0110_0101 = .ok .tris5 := by decide
theorem test_decode_tris6 : decode 0b00_0000_0110_0110 = .ok .tris6 := by decide
theorem test_decode_tris7 : decode 0b00_0000_0110_0111 = .ok .tris7 := by decide
theorem test_decode_unassigned : decode 0b11_1011_00000000 = .error (.unassigned 0x3B00) := by decide
theorem test_decode_table_word : decodeTableWord 14 0x3E15 = some (.addlw 0x15) := by decide

/-! ### The source's examples, as R113 to R165 give them -/

theorem test_addwf_example : after (exec (.addwf 0x04 .w) { State.reset with w := 0x17, fsr := 0xC2 })
    (fun t => t.w == 0xD9 && t.fsr == 0xC2 && t.status.setWidth 3 == 0b000#3) := by decide
theorem test_andwf_example : after (exec (.andwf 0x04 .f) { State.reset with w := 0x17, fsr := 0xC2 })
    (fun t => t.fsr == 0x02 && t.w == 0x17) := by decide
theorem test_clrf_status : after (exec (.clrf 0x03) { State.reset with status := 0b11111011 })
    (fun t => t.status == 0b00011111) := by decide
theorem test_clrw_example : after (exec .clrw { State.reset with w := 0x5A })
    (fun t => t.w == 0x00 && zero t) := by decide
theorem test_comf_example : after (exec (.comf 0x0C .w) (gprState 0x0C 0x13 0 0))
    (fun t => t.w == 0xEC && Memory.read t.ram 0x0C == 0x13) := by decide
theorem test_decf_example : after (exec (.decf 0x0C .f) (gprState 0x0C 0x01 0 0b011))
    (fun t => Memory.read t.ram 0x0C == 0x00 && t.status.setWidth 3 == 0b111#3) := by decide
theorem test_decfsz_skips : after (exec (.decfsz 0x0C .f) (gprState 0x0C 0x01 0 0))
    (fun t => t.pc == 2 && t.cycles == 2 && !zero t) := by decide
theorem test_decfsz_from_zero_does_not_skip : after (exec (.decfsz 0x0C .f) State.reset)
    (fun t => t.pc == 1 && Memory.read t.ram 0x0C == 0xFF) := by decide
theorem test_incf_example : after (exec (.incf 0x0C .f) (gprState 0x0C 0xFF 0 0))
    (fun t => Memory.read t.ram 0x0C == 0x00 && t.status.setWidth 3 == 0b100#3) := by decide
theorem test_incfsz_skips : after (exec (.incfsz 0x0C .w) (gprState 0x0C 0xFF 5 0))
    (fun t => t.pc == 2 && t.w == 0 && Memory.read t.ram 0x0C == 0xFF) := by decide
theorem test_iorwf_example : after (exec (.iorwf 0x0C .w) (gprState 0x0C 0x13 0x91 0))
    (fun t => t.w == 0x93 && Memory.read t.ram 0x0C == 0x13) := by decide
theorem test_movf_port_writes_pins : after (exec (.movf 0x06 .f)
    { State.reset with latchB := 0xFF, envB := 0x55 }) (fun t => t.latchB == 0x55) := by decide
theorem test_movwf_option_example : after (exec (.movwf 0x01)
    { State.reset with w := 0x4F, status := 0b00111000 }) (fun t => t.option == 0x4F && t.tmr0 == 0) := by
  decide
theorem test_nop : after (exec .nop State.reset) (fun t => t.pc == 1 && t.cycles == 1) := by decide
theorem test_rlf_example : after (exec (.rlf 0x0C .w) (gprState 0x0C 0b11100110 0 0b000))
    (fun t => t.w == 0b11001100 && t.carry) := by decide
theorem test_rrf_example : after (exec (.rrf 0x0C .w) (gprState 0x0C 0b11100110 0 0b000))
    (fun t => t.w == 0b01110011 && !t.carry) := by decide
theorem test_subwf_borrow : after (exec (.subwf 0x0C .f) (gprState 0x0C 0x01 0x02 0b111))
    (fun t => Memory.read t.ram 0x0C == 0xFF && t.status.setWidth 3 == 0b000#3) := by decide
theorem test_subwf_zero : after (exec (.subwf 0x0C .f) (gprState 0x0C 0x02 0x02 0b000))
    (fun t => Memory.read t.ram 0x0C == 0x00 && t.status.setWidth 3 == 0b111#3) := by decide
theorem test_swapf_example : after (exec (.swapf 0x0C .w) (gprState 0x0C 0xA5 0 0))
    (fun t => t.w == 0x5A) := by decide
theorem test_xorwf_example : after (exec (.xorwf 0x0C .f) (gprState 0x0C 0xAF 0xB5 0))
    (fun t => Memory.read t.ram 0x0C == 0x1A && t.w == 0xB5) := by decide
theorem test_bcf_example : after (exec (.bcf 0x0C 7) (gprState 0x0C 0xC7 0 0))
    (fun t => Memory.read t.ram 0x0C == 0x47) := by decide
theorem test_bcf_cannot_clear_pd : after (exec (.bcf 0x03 3) State.reset)
    (fun t => t.status == 0b00011000) := by decide
theorem test_bsf_example : after (exec (.bsf 0x0C 7) (gprState 0x0C 0x0A 0 0))
    (fun t => Memory.read t.ram 0x0C == 0x8A) := by decide
theorem test_btfsc_skips_on_clear : after (exec (.btfsc 0x0C 1) (gprState 0x0C 0xFD 0 0))
    (fun t => t.pc == 2) := by decide
theorem test_btfss_does_not_skip_on_clear : after (exec (.btfss 0x0C 1) (gprState 0x0C 0xFD 0 0))
    (fun t => t.pc == 1) := by decide
theorem test_addlw_example : after (exec (.addlw 0x15) { State.reset with w := 0x10 })
    (fun t => t.w == 0x25 && t.status.setWidth 3 == 0b000#3) := by decide
theorem test_addlw_wraps : after (exec (.addlw 0x01) { State.reset with w := 0xFF })
    (fun t => t.w == 0x00 && t.status.setWidth 3 == 0b111#3) := by decide
theorem test_andlw_example : after (exec (.andlw 0x5F) { State.reset with w := 0xA3 })
    (fun t => t.w == 0x03) := by decide
theorem test_call_example : after (exec (.call 0x123) { State.reset with pc := 0x1FFF, pclath := 0b11111 })
    (fun t => t.pc == 0x1923 && t.tos == 0x0000 && t.sp == 1) := by decide
theorem test_clrwdt_example : after (exec .clrwdt { State.reset with wdt := 9, prescaler := 9, status := 0 })
    (fun t => t.wdt == 0 && t.prescaler == 0 && t.status == 0b00011000) := by decide
theorem test_goto_example : after (exec (.goto 0x7FF) { State.reset with pclath := 0b01111 })
    (fun t => t.pc == 0x0FFF && t.cycles == 2) := by decide
theorem test_iorlw_example : after (exec (.iorlw 0x35) { State.reset with w := 0x9A })
    (fun t => t.w == 0xBF) := by decide
theorem test_movlw_example : after (exec (.movlw 0x00) { State.reset with w := 0x5A })
    (fun t => t.w == 0x00 && !zero t) := by decide
theorem test_retfie_example : after (exec .retfie { State.reset with stack := [(7, 0x155)] })
    (fun t => t.pc == 0x155 && t.sp == 7 && t.gie) := by decide
theorem test_retlw_example : after (exec (.retlw 7) { State.reset with stack := [(0, 0x20)], sp := 1 })
    (fun t => t.pc == 0x20 && t.w == 7 && !t.gie) := by decide
theorem test_return_example : after (exec .return_ { State.reset with stack := [(0, 0x20)], sp := 1 })
    (fun t => t.pc == 0x20 && t.sp == 0 && !t.gie) := by decide
theorem test_sleep_example : after (exec .sleep { State.reset with wdt := 9 })
    (fun t => t.asleep && t.pc == 1 && t.status == 0b00010000 && t.wdt == 0) := by decide
theorem test_sublw_borrow : after (exec (.sublw 0x02) { State.reset with w := 0x03 })
    (fun t => t.w == 0xFF && t.status.setWidth 3 == 0b000#3) := by decide
theorem test_xorlw_example : after (exec (.xorlw 0xAF) { State.reset with w := 0xB5 })
    (fun t => t.w == 0x1A) := by decide
theorem test_option_example : after (exec .option { State.reset with w := 0x4F })
    (fun t => t.option == 0x4F) := by decide
theorem test_tris5 : after (exec .tris5 { State.reset with w := 0xF0 }) (fun t => t.trisa == 0b10000) := by
  decide
theorem test_tris6_example : after (exec .tris6 { State.reset with w := 0xF0 })
    (fun t => t.trisb == 0xF0) := by decide
theorem test_tris7 : after (exec .tris7 { State.reset with w := 0xFF })
    (fun t => t.trisa == 0b11111 && t.pc == 1) := by decide

/-! ### Single steps (R159, R183, R184, R191, R230, R99) -/

theorem test_step_runs_the_placed_word : after (step (placed 0x305A)) (fun t => t.w == 0x5A && t.pc == 1) := by
  decide
theorem test_step_refuses_unassigned : after (step (placed 0x3B00)) (fun _ => true) = false := by decide
theorem test_computed_goto : after (exec (.addwf 0x02 .f) { State.reset with pc := 0x010, w := 7 })
    (fun t => t.pc == 0x018 && t.cycles == 2) := by decide
theorem test_interrupt_entry_step : after (step { State.reset with intcon := 0b10010010, pc := 0x123 })
    (fun t => t.pc == 0x004 && t.intcon == 0b00010010 && t.tos == 0x123) := by decide
theorem test_wake_up_step : after (step { State.reset with asleep := true, intcon := 0b00010010, pc := 0x123 })
    (fun t => !t.asleep && t.pc == 0x123 && t.intcon == 0b00010010) := by decide
theorem test_mclr_step : after (step { State.reset with
      pc := 0x123, w := 7, inputs := [{ events := [], takeover := some (.mclr { sp := 3, eeByte := 0 }) }] })
    (fun t => t.pc == 0x000 && t.w == 7 && t.sp == 3) := by decide

/-! ### States and operands that meet the hypotheses of the statements -/

/-- Bank 1, WREN set, ready for the unlock sequence. -/
def eeState : State :=
  { State.reset with status := 0b00111000, eecon1 := 0b00100, eeadr := 0x3F, eedata := 0xA5 }

/-- The same with EEADR just above the array. -/
def eeStateHigh : State := { eeState with eeadr := 0x40 }

/-- The same with a write in flight. -/
def eeBusy : State := { eeState with eecon1 := 0b00110, inFlight := some { addr := 0x3F, data := 1 } }

/-- An entry of the queue in which the watchdog times out. -/
def wdtEntry : Boundary := { events := [], takeover := some (.wdtTimeout { sp := 7, eeByte := 0xFF }) }

/-- The watchdog enabled with a bound of 10 cycles, of which `age` have passed, and a time-out offered. -/
def wdtState (age : Nat) (asleep : Bool) : State :=
  { State.reset with
    cfg := { Config.default with wdtEnabled := true, wdtMinCycles := some 10 }
    wdtAge := age, asleep := asleep, status := 0b00010000, inputs := [wdtEntry] }

/-- Timer0 counted exactly on the instruction clock, the prescaler assigned to it when `psa` is 0. -/
def timerState (psa : Byte) : State :=
  { State.reset with cfg := { Config.default with tmr0Model := .exact }, option := psa, tmr0 := 0xFF }

theorem test_witness_wellFormed : (Instr.addwf 127 .f).WellFormed ∧ (Instr.btfss 0 7).WellFormed ∧
    (Instr.retlw 255).WellFormed ∧ (Instr.goto 2047).WellFormed := by decide
theorem test_witness_decoded : decode 0x3FFF = .ok (.addlw 255) ∧ decode 0x017F = .ok .clrw ∧
    decode 0x37FF = .ok (.retlw 255) := by decide
theorem test_witness_unassigned : unassignedRange 0x0001 = true ∧ unassignedRange 0x3BFF = true ∧
    unassignedRange 0x0008 = false ∧ decode 0x0007 = .error (.unassigned 0x0007) := by decide
theorem test_witness_map : State.reset.loc 0x8C = .gpr 0x0C ∧ State.reset.loc 0x2F = .gpr 0x2F ∧
    State.reset.loc 0x30 = .unimplemented ∧ State.reset.loc 0xFF = .unimplemented := by decide
theorem test_witness_map_large_device :
    let s := { State.reset with cfg := { Config.default with device := .pic16cr84 } }
    s.loc 0xCF = .gpr 0x4F ∧ s.loc 0x50 = .unimplemented := by decide
theorem test_witness_direct : ea State.reset 127 = 0x7F ∧ ea eeState 1 = 0x81 ∧
    (0b01011000 : Byte).getLsbD 5 = State.reset.status.getLsbD 5 := by decide
theorem test_witness_indirect : ea { State.reset with fsr := 0x7F } 127 = 0x7F ∧
    ({ State.reset with fsr := 0x80 }).fsr.toNat % 128 = 0 := by decide
theorem test_witness_indirect_keeps_pointer :
    ∃ t, exec (FileOp.toFile .incf 0) { State.reset with fsr := 0x0C } = .next t := ⟨_, rfl⟩
theorem test_witness_indirect_read : (∃ t, exec (.movf 0 .w) { State.reset with fsr := 0x04 } = .next t) ∧
    (∃ t, exec (.btfss 0 7) { State.reset with fsr := 0x04 } = .next t) := ⟨⟨_, rfl⟩, ⟨_, rfl⟩⟩
theorem test_witness_plain : Memory.wf State.reset.ram = true ∧ plain (State.reset.loc 0x2F) = true ∧
    plain (State.reset.loc 0x83) = true := by decide
theorem test_witness_toW : FileOp.toW .addwf 127 = some (.addwf 127 .w) := rfl
theorem test_witness_gpr : Memory.wf State.reset.ram = true ∧ State.reset.loc (ea State.reset 0x0C) = .gpr 0x0C ∧
    eeState.loc (ea eeState 0x2F) = .gpr 0x2F := by decide
theorem test_witness_any_register : eeState.loc (ea eeState 0x08) = .eecon1 ∧
    State.reset.loc (ea State.reset 0x04) = .fsr := by decide
theorem test_witness_status : State.reset.loc (ea State.reset 0x03) = .status ∧
    ({ State.reset with fsr := 0x83 }).loc (ea { State.reset with fsr := 0x83 } 0) = .status := by decide
theorem test_witness_pcl : State.reset.loc (ea State.reset 0x02) = .pcl ∧
    FileOp.toW .movf 0x02 = some (.movf 0x02 .w) := by decide
theorem test_witness_addition : ∃ t, exec (.addwf 0x0C .f) (gprState 0x0C 0xFF 0x01 0) = .next t := ⟨_, rfl⟩
theorem test_witness_subtraction : ∃ t, exec (.subwf 0x0C .w) (gprState 0x0C 0xFF 0x00 0) = .next t := ⟨_, rfl⟩
theorem test_witness_bit : (7 : Nat) ≤ 7 ∧ (0 : Nat) ≤ 7 := by decide
theorem test_witness_literal : (255 : Nat) ≤ 255 ∧ (0 : Nat) ≤ 255 := by decide
theorem test_witness_call : (2047 : Nat) ≤ 2047 ∧ Memory.wf State.reset.stack = true := by decide
theorem test_witness_return_forms : ∃ k, Instr.retlw 255 = .retlw k := ⟨255, rfl⟩
theorem test_witness_undo : ({ State.reset with intcon := 0x80 }).gie = true ∧
    Memory.wf ({ State.reset with intcon := 0x80 }).stack = true := by decide
theorem test_witness_circular : Memory.wf State.reset.stack = true ∧
    8 ≤ ([1, 2, 3, 4, 5, 6, 7, 8] : List ProgAddr).length := by decide
theorem test_witness_sleep : State.reset.intPending = false ∧
    ({ State.reset with intcon := 0b00001001 }).intPending = true := by decide
theorem test_witness_eeprom_idle : eeState.loc (ea eeState 0x08) = .eecon1 ∧ eeState.EepromControlOk ∧
    eeState.eeadr.toNat ≤ 0x3F ∧ eeState.inFlight = none := by decide
theorem test_witness_eeprom_busy : eeBusy.loc (ea eeBusy 0x08) = .eecon1 ∧ eeBusy.EepromControlOk ∧
    eeBusy.eeadr.toNat ≤ 0x3F ∧ eeBusy.inFlight ≠ none := by decide
theorem test_witness_eeprom_high : eeStateHigh.loc (ea eeStateHigh 0x08) = .eecon1 ∧
    eeStateHigh.EepromControlOk ∧ 0x3F < eeStateHigh.eeadr.toNat := by decide
theorem test_witness_armed : ({ eeState with unlock := .gotAA }).EepromControlOk ∧
    ({ eeState with unlock := .gotAA }).wren = true ∧ eeState.unlock ≠ .gotAA := by decide
theorem test_witness_armed_high : ({ eeStateHigh with unlock := .gotAA }).wren = true ∧
    0x3F < ({ eeStateHigh with unlock := .gotAA }).eeadr.toNat := by decide
theorem test_witness_unlock_sequence : eeState.rp0 = true ∧ eeState.EepromControlOk ∧
    eeState.inFlight = none ∧ eeState.wren = true ∧ eeState.eeadr.toNat ≤ 0x3F := by decide
theorem test_witness_wr : (∃ t, exec .nop eeBusy = .next t) ∧ eeBusy.wr = true ∧
    eeBusy.eecon1.getLsbD 0 = false := ⟨⟨_, rfl⟩, by decide⟩
theorem test_witness_stop : Instr.movwf 0x08 = FileOp.toFile .movwf 0x08 ∧
    exec (.movwf 0x08) { eeState with w := 0x03 } = .refused (.eepromReadAndWrite 0x03) ∧
    exec (.movwf 0x08) { eeStateHigh with w := 0x01 } = .fault (.eepromAddress 0x40) := ⟨rfl, rfl, rfl⟩
theorem test_witness_eecon1_write :
    (0x1C : Byte).toNat % 4 = 0 ∧ (0x06 : Byte).toNat % 4 = 2 ∧ (0x01 : Byte).toNat % 4 = 1 ∧
    (0x03 : Byte).toNat % 4 = 3 ∧ (0x06 : Byte).getLsbD 2 = true ∧ eeState.unlock = .locked ∧
    ({ eeState with unlock := .gotAA }).inFlight = none ∧ eeState.eeadr.toNat = 0x3F ∧
    eeStateHigh.eeadr.toNat = 0x40 ∧ eeState.wr = false ∧ eeBusy.wr = true ∧ eeBusy.inFlight ≠ none ∧
    ({ eeBusy with eeadr := 0x40 }).eeadr.toNat = 0x40 := by decide
theorem test_witness_completes_elsewhere : ∃ t, exec (.movwf 0x08) { eeState with w := 0x1D } = .next t :=
  ⟨_, rfl⟩
theorem test_witness_completion : Memory.wf eeBusy.eeprom = true ∧
    eeBusy.inFlight = some { addr := 0x3F, data := 1 } ∧
    ({ eeBusy with intcon := 0x40 }).intcon.getLsbD 6 = true ∧ eeState.inFlight = none := by decide
theorem test_witness_step : atBoundary (placed 0x0064) = (placed 0x0064, none) ∧
    (placed 0x0064).asleep = false ∧ (placed 0x0064).intDue = false ∧
    decode (fetch (placed 0x0064)) = .ok .clrwdt := by decide
theorem test_witness_fetch : State.reset.cfg.device = .pic16c84 ∧
    (BitVec.ofNat 13 (0x20 + 7 * 0x400) : ProgAddr) = 0x1C20 ∧
    ({ Config.default with device := .pic16cr83 }).device.progWords = 512 := by decide
theorem test_witness_unassigned_step : atBoundary (placed 0x3BFF) = (placed 0x3BFF, none) ∧
    unassignedRange (fetch (placed 0x3BFF)).toNat = true ∧ (placed 0x3BFF).cfg.unassigned = .refuse ∧
    ({ Config.default with unassigned := .nop }).unassigned = .nop := by decide
theorem test_witness_interrupt :
    let s := { State.reset with intcon := 0b10100100, pc := 0x1FFF }
    atBoundary s = (s, none) ∧ s.asleep = false ∧ s.gie = true ∧ s.intPending = true ∧ s.holdOff = false ∧
    Memory.wf s.stack = true := by decide
theorem test_witness_sleeping :
    let s := { State.reset with asleep := true }
    atBoundary s = (s, none) ∧ s.asleep = true ∧ s.intPending = false := by decide
theorem test_witness_wake :
    let s := { State.reset with asleep := true, intcon := 0b10100100 }
    atBoundary s = (s, none) ∧ s.asleep = true ∧ s.intPending = true := by decide
theorem test_witness_after_wake :
    let s := { State.reset with holdOff := true, intcon := 0b10100100 }
    atBoundary s = (s, none) ∧ s.asleep = false ∧ s.holdOff = true ∧ decode (fetch s) = .ok .nop := by decide
theorem test_witness_watchdog_wake :
    atBoundary (wdtState 10 true) =
      ({ wdtState 10 true with inputs := [] }, some (.wdtTimeout { sp := 7, eeByte := 0xFF })) ∧
    (wdtState 10 true).status.getLsbD 3 = false := by decide
theorem test_witness_watchdog_allowed :
    (wdtState 10 false).inputs = [wdtEntry] ∧ ((atBoundary (wdtState 10 false)).1).wdtMayFire = true ∧
    ((atBoundary (wdtState 9 false)).1).wdtMayFire = false ∧
    ((atBoundary { State.reset with inputs := [wdtEntry] }).1).wdtMayFire = false := by decide
theorem test_witness_reset : atBoundary { eeBusy with
      inputs := [{ events := [], takeover := some (.mclr { sp := 0, eeByte := 2 }) }] } =
    (eeBusy, some (.mclr { sp := 0, eeByte := 2 })) ∧ Memory.wf eeBusy.eeprom = true ∧
    eeBusy.inFlight = some { addr := 0x3F, data := 1 } ∧ State.reset.inFlight = none := by decide
theorem test_witness_watchdog_reset : atBoundary (wdtState 10 false) =
    ({ wdtState 10 false with inputs := [] }, some (.wdtTimeout { sp := 7, eeByte := 0xFF })) ∧
    (wdtState 10 false).asleep = false := by decide

/-- The draw of a power-on with every value at its greatest. -/
def powerOnDraw : PowerOnDraw :=
  { w := 0xFF, tmr0 := 0xFF, fsr := 0xFF, latchA := 0x1F, latchB := 0xFF, eedata := 0xFF, eeadr := 0xFF,
    flags := 7, rbif := true, wrerr := true, gpr := [1, 2], stack := [3], sp := 7, lastRB := 0xF,
    prevRB0 := true, prevT0cki := true, eeByte := 0xEE }

theorem test_witness_power_on : atBoundary { State.reset with
      inputs := [{ events := [], takeover := some (.powerOn powerOnDraw) }] } =
    (State.reset, some (.powerOn powerOnDraw)) ∧ Memory.wf State.reset.eeprom = true := by decide
theorem test_witness_timer : (timerState 0x08).option.getLsbD 5 = false ∧
    (timerState 0x08).tmr0Hold = .none ∧ (timerState 0x07).option.getLsbD 3 = false := by decide
/-- R199: a rising edge of RA4/T0CKI with T0CS = 1, T0SE = 0 and PSA = 1 is one tick; asleep it is none. -/
theorem test_counter_mode :
    let s := { timerState 0x28 with envA := 0b10000 }
    (samplePins s).tmr0 = 0x00 ∧ (samplePins s).intcon = 0b00000100 ∧
    (samplePins { s with asleep := true }).tmr0 = 0xFF := by decide
theorem test_witness_boundary : State.reset.inputs = [] ∧ (wdtState 10 false).inputs = wdtEntry :: [] ∧
    (wdtState 10 false).asleep = false ∧ (wdtState 10 false).cfg.wdtEnabled = true ∧
    (wdtState 10 false).cfg.wdtMinCycles = some 10 ∧ 10 ≤ (wdtState 10 false).wdtAge := by decide
theorem test_witness_queued_resets :
    ({ events := [.eepromDone], takeover := some (.powerOn powerOnDraw) } : Boundary).takeover =
      some (.powerOn powerOnDraw) ∧
    ({ events := [], takeover := some (.mclr { sp := 0, eeByte := 2 }) } : Boundary).takeover =
      some (.mclr { sp := 0, eeByte := 2 }) ∧ ({ events := [], takeover := none } : Boundary).takeover = none := by
  decide
theorem test_witness_ticks : atBoundary (timerState 0x08) = (timerState 0x08, none) ∧
    (timerState 0x08).intDue = false ∧ decode (fetch (timerState 0x08)) = .ok .nop ∧
    ∃ t, exec .nop { timerState 0x08 with holdOff := false } = .next t ∧ t.tmr0Hold ≠ .written := by
  refine ⟨by decide, by decide, by decide, _, rfl, by decide⟩
theorem test_witness_ticks_free : State.reset.cfg.tmr0Model = .free ∧ (timerState 0x08).cfg.tmr0Model = .exact := by
  decide
theorem test_witness_timer_write : (timerState 0x00).loc (ea (timerState 0x00) 0x01) = .tmr0 ∧
    State.reset.loc (ea State.reset 0x01) = .tmr0 := by decide
theorem test_witness_free_timer : State.reset.asleep = false ∧ ({ State.reset with asleep := true }).asleep = true := by
  decide
theorem test_witness_portb : State.reset.loc (ea State.reset 0x06) = .portb ∧
    ({ State.reset with fsr := 0x06 }).loc (ea { State.reset with fsr := 0x06 } 0) = .portb := by decide
theorem test_witness_pins : (4 : Nat) < 5 ∧ (7 : Nat) < 8 ∧
    pinA { State.reset with trisa := 0, latchA := 0b10001, envA := 0b01110 } = 0b00001 := by decide
theorem test_witness_status_bits : (∃ t, exec (.bsf 0x03 7) State.reset = .next t) ∧
    Instr.bsf 0x03 7 ≠ .clrwdt ∧ Instr.bsf 0x03 7 ≠ .sleep := ⟨⟨_, rfl⟩, by decide, by decide⟩
theorem test_witness_pclath : ∃ t, exec (.bsf 0x0A 4) State.reset = .next t ∧ t.pclath ≠ State.reset.pclath :=
  ⟨_, rfl, by decide⟩
theorem test_witness_stack : (∃ t, exec .nop State.reset = .next t) ∧ ∀ k, Instr.nop ≠ .call k :=
  ⟨⟨_, rfl⟩, fun _ h => nomatch h⟩
theorem test_witness_frame : ∃ t, exec (.goto 2047) State.reset = .next t := ⟨_, rfl⟩
theorem test_witness_step_next : ∃ t, step (placed 0x0063) = .next t := ⟨_, rfl⟩
theorem test_witness_invariant : State.reset.Inv ∧ eeBusy.Inv ∧ ∃ t, step State.reset = .next t :=
  ⟨by decide, by decide, _, rfl⟩

end Sys2Proof.Tests
end

/-! What one instruction can do, said once: its arithmetic apart from its meaning, the common
form of the instructions that name f, and an inversion of `exec` for the statements about all instructions. -/

namespace Sys2Proof.Proofs

open Sys2Proof.Machine Sys2Proof.Claims

variable {s t : State} {a : DataAddr} {v : Byte} {n : Bool}

/-! ### The instructions that name a file register -/

/-- The result and flags of an instruction that names f, from the value read (R113 to R130, R141, R142). -/
def fileAlu (op : FileOp) (s : State) (v : Byte) : AluResult :=
  match op with
  | .addwf => aluAdd s.w v
  | .andwf => aluZ (s.w &&& v)
  | .comf => aluZ (~~~v)
  | .decf => aluZ (v - 1)
  | .decfsz => aluPlain (v - 1)
  | .incf => aluZ (v + 1)
  | .incfsz => aluPlain (v + 1)
  | .iorwf => aluZ (s.w ||| v)
  | .movf => aluZ v
  | .rlf => aluRotateLeft s.carry v
  | .rrf => aluRotateRight s.carry v
  | .subwf => aluSub v s.w
  | .swapf => aluSwap v
  | .xorwf => aluZ (s.w ^^^ v)
  | .bcf b => aluPlain (putBit v (bitIndex b) false)
  | .bsf b => aluPlain (putBit v (bitIndex b) true)
  | .clrf => aluZ 0
  | .movwf => aluPlain s.w

/-- The result that makes an instruction skip (R119, R121). -/
def fileSkip (op : FileOp) : Byte → Bool :=
  match op with
  | .decfsz | .incfsz => skipIfZero
  | _ => neverSkip

/-- All eighteen forms that write f are the template of R131 over `fileAlu`. -/
theorem exec_toFile (op : FileOp) (f : Nat) (s : State) :
    exec (op.toFile f) s =
      storeAndFinish (ea s f) .f (fileAlu op s (dataRead s (ea s f)))
        (fileSkip op (fileAlu op s (dataRead s (ea s f))).value) (afterReading op s (ea s f)) := by
  cases op <;> rfl

/-- All fourteen forms that write W are the template of R131 over `fileAlu`. -/
theorem exec_toW {op : FileOp} {f : Nat} {i : Instr} (hi : op.toW f = some i) (s : State) :
    exec i s =
      storeAndFinish (ea s f) .w (fileAlu op s (dataRead s (ea s f)))
        (fileSkip op (fileAlu op s (dataRead s (ea s f))).value) (afterRead (ea s f) s) := by
  cases op <;> cases hi <;> rfl

/-- With d = 1 the template is the resolved write, then the flags and the end. -/
theorem storeAndFinish_f (a : DataAddr) (r : AluResult) (k : Bool) (s : State) :
    storeAndFinish a .f r k s = andThen (dataWrite a r.value r.flags.affectsNone s)
      fun u => .next (finish a .f k (applyFlags r.flags u)) := by
  simp only [storeAndFinish, store]
  cases dataWrite a r.value r.flags.affectsNone s <;> rfl

/-- The read of f touches RB<7:4> as last read only (R219). -/
theorem afterReading_eq (op : FileOp) (s : State) (a : DataAddr) :
    ∃ x, afterReading op s a = { s with lastRB := x } := by
  unfold afterReading
  split
  · exact ⟨_, rfl⟩
  · exact ⟨s.lastRB, rfl⟩

/-! ### What an instruction that goes on has done -/

/-- `t` is what the instruction `i` can make of `s`: one constructor for each kind of effect. -/
inductive Effect (s : State) : Instr → State → Prop
  /-- A form that writes f: RB<7:4> as last read, the resolved write, the flags, the end (R131). -/
  | file (op : FileOp) (f : Nat) (x : BitVec 4) (r : AluResult) (k : Bool) (u : State)
      (h : dataWrite (ea s f) r.value r.flags.affectsNone { s with lastRB := x } = .next u) :
      Effect s (op.toFile f) (finish (ea s f) .f k (applyFlags r.flags u))
  /-- W, the flags, RB<7:4> as last read, the PC and the cycle counts, and nothing else. -/
  | cpu (i : Instr) (w : Byte) (x : BitVec 4) (fl : FlagUpdate) (p : ProgAddr) (c age : Nat) :
      Effect s i { s with
        w := w, lastRB := x, status := fl.onStatus s.status, pc := p, cycles := c, wdtAge := age }
  | call (k : Nat) : Effect s (.call k) (jump (pageTarget s k) (push (s.pc + 1) s))
  /-- RETURN, RETLW and RETFIE: a pop, beside W and INTCON. -/
  | ret (i : Instr) (w intcon : Byte) : Effect s i (returnPop { s with w := w, intcon := intcon })
  /-- OPTION and TRIS (R164, R165). -/
  | portControl (i : Instr) (o : Byte) (ta : BitVec 5) (tb : Byte) :
      Effect s i (advance { s with option := o, trisa := ta, trisb := tb })
  | clrwdt : Effect s .clrwdt (advance (setToPd true true (clearWdt s)))
  | sleep : Effect s .sleep (advance (setToPd true false (clearWdt { s with asleep := true })))

theorem effect_toFile {op : FileOp} {f : Nat} (h : exec (op.toFile f) s = .next t) :
    Effect s (op.toFile f) t := by
  rw [exec_toFile, storeAndFinish_f] at h
  obtain ⟨u, hu, ht⟩ := andThen_next.mp h
  cases ht
  obtain ⟨x, hx⟩ := afterReading_eq op s (ea s f)
  rw [hx] at hu
  exact .file op f x _ _ u hu

theorem effect_toW {op : FileOp} {f : Nat} {i : Instr} (hi : op.toW f = some i)
    (h : exec i s = .next t) : Effect s i t := by
  rw [exec_toW hi] at h
  cases h
  rw [finish_eq]
  exact .cpu i _ _ _ _ _ _

theorem effect_testBit {i : Instr} {f b : Nat} {k : Bool} (h : testBit f b k s = .next t) :
    Effect s i t := by
  rcases testBit_cases f b k s with ⟨-, e⟩ | ⟨-, e⟩ <;> rw [e] at h <;> cases h <;>
    exact .cpu i _ _ {} _ _ _

theorem effect_intoW {i : Instr} {r : AluResult} (h : intoW r s = .next t) : Effect s i t := by
  cases h
  exact .cpu i _ _ r.flags _ _ _

/-- The inversion of `exec`. -/
theorem exec_effect {i : Instr} (h : exec i s = .next t) : Effect s i t := by
  cases i with
  | addwf f d => cases d; exacts [effect_toW (op := .addwf) rfl h, effect_toFile (op := .addwf) h]
  | andwf f d => cases d; exacts [effect_toW (op := .andwf) rfl h, effect_toFile (op := .andwf) h]
  | comf f d => cases d; exacts [effect_toW (op := .comf) rfl h, effect_toFile (op := .comf) h]
  | decf f d => cases d; exacts [effect_toW (op := .decf) rfl h, effect_toFile (op := .decf) h]
  | decfsz f d => cases d; exacts [effect_toW (op := .decfsz) rfl h, effect_toFile (op := .decfsz) h]
  | incf f d => cases d; exacts [effect_toW (op := .incf) rfl h, effect_toFile (op := .incf) h]
  | incfsz f d => cases d; exacts [effect_toW (op := .incfsz) rfl h, effect_toFile (op := .incfsz) h]
  | iorwf f d => cases d; exacts [effect_toW (op := .iorwf) rfl h, effect_toFile (op := .iorwf) h]
  | movf f d => cases d; exacts [effect_toW (op := .movf) rfl h, effect_toFile (op := .movf) h]
  | rlf f d => cases d; exacts [effect_toW (op := .rlf) rfl h, effect_toFile (op := .rlf) h]
  | rrf f d => cases d; exacts [effect_toW (op := .rrf) rfl h, effect_toFile (op := .rrf) h]
  | subwf f d => cases d; exacts [effect_toW (op := .subwf) rfl h, effect_toFile (op := .subwf) h]
  | swapf f d => cases d; exacts [effect_toW (op := .swapf) rfl h, effect_toFile (op := .swapf) h]
  | xorwf f d => cases d; exacts [effect_toW (op := .xorwf) rfl h, effect_toFile (op := .xorwf) h]
  | clrf f => exact effect_toFile (op := .clrf) h
  | movwf f => exact effect_toFile (op := .movwf) h
  | bcf f b => exact effect_toFile (op := .bcf b) h
  | bsf f b => exact effect_toFile (op := .bsf b) h
  | btfsc f b => exact effect_testBit (k := false) h
  | btfss f b => exact effect_testBit (k := true) h
  | clrw => exact effect_intoW (r := aluZ 0) h
  | addlw k => exact effect_intoW (r := aluAdd s.w (lit8 k)) h
  | andlw k => exact effect_intoW (r := aluZ (s.w &&& lit8 k)) h
  | iorlw k => exact effect_intoW (r := aluZ (s.w ||| lit8 k)) h
  | movlw k => exact effect_intoW (r := aluPlain (lit8 k)) h
  | sublw k => exact effect_intoW (r := aluSub (lit8 k) s.w) h
  | xorlw k => exact effect_intoW (r := aluZ (s.w ^^^ lit8 k)) h
  | nop | goto => cases h; exact .cpu _ _ _ {} _ _ _
  | call k => cases h; exact .call k
  | retfie | retlw | return_ => cases h; exact .ret _ _ _
  | clrwdt => cases h; exact .clrwdt
  | sleep =>
    change (if s.intPending = true then _ else _) = _ at h
    split at h <;> cases h
    · exact .cpu _ _ _ {} _ _ _
    · exact .sleep
  | option | tris5 | tris6 | tris7 => cases h; exact .portControl _ _ _ _

/-! ### What the end of an instruction leaves alone -/

@[simp] theorem finish_status (a : DataAddr) (d : Dest) (k : Bool) (s : State) :
    (finish a d k s).status = s.status := by rw [finish_eq]

@[simp] theorem finish_pclath (a : DataAddr) (d : Dest) (k : Bool) (s : State) :
    (finish a d k s).pclath = s.pclath := by rw [finish_eq]

end Sys2Proof.Proofs

/-! The invariant: the resolved write and each instruction keep it up to the mark of a TMR0 write,
which Timer0's charge removes; the agents, the resets and the CPU's part of a step keep it. -/

namespace Sys2Proof.Proofs

open Sys2Proof.Machine Sys2Proof.Claims

variable {s t : State} {a : DataAddr} {v : Byte} {n : Bool}

/-! ### EECON1 -/

/-- Only EEIF, WRERR and WREN of a written value arrive in EECON1 (R208). -/
theorem eecon1Bits_control (old : BitVec 5) (v : Byte) :
    (eecon1Bits old v).getLsbD 0 = old.getLsbD 0 ∧ (eecon1Bits old v).getLsbD 1 = old.getLsbD 1 := by
  simp [eecon1Bits]

theorem eepromRead_keeps_controlOk (hs : s.EepromControlOk) (h : eepromRead s = .next t) :
    t.EepromControlOk := by
  obtain ⟨-, d, k, rfl, -⟩ := eepromRead_next h
  exact ⟨getLsbD_putBit_self _ _ (by decide), (getLsbD_putBit_ne _ _ (by decide)).trans hs.2⟩

theorem eepromRequestWrite_keeps_controlOk (hs : s.EepromControlOk)
    (h : eepromRequestWrite s = .next t) : t.EepromControlOk := by
  rcases eepromRequestWrite_next h with ⟨-, -, -, -, rfl⟩ | ⟨-, rfl⟩
  · exact ⟨(getLsbD_putBit_ne _ _ (by decide)).trans hs.1, getLsbD_putBit_self _ _ (by decide)⟩
  · exact hs

/-- A write of EECON1 keeps RD at 0 and WR in step with the write in flight (R208 to R210). -/
theorem eecon1Write_keeps_controlOk (hs : s.EepromControlOk) (h : eecon1Write v s = .next t) :
    t.EepromControlOk := by
  have taken : State.EepromControlOk { s with eecon1 := eecon1Bits s.eecon1 v } := by
    obtain ⟨hrd, hwr⟩ := eecon1Bits_control s.eecon1 v
    exact ⟨hrd.trans hs.1, hwr.trans hs.2⟩
  unfold eecon1Write at h
  split at h
  · cases h
  · obtain ⟨m, hm, hr⟩ := andThen_next.mp h
    have requested : m.EepromControlOk := by
      split at hm
      · exact eepromRequestWrite_keeps_controlOk taken hm
      · cases hm; exact taken
    split at hr
    · exact eepromRead_keeps_controlOk requested hr
    · cases hr; exact requested

/-! ### The resolved write -/

theorem dataWrite_keeps_memoriesOk (hs : s.MemoriesOk) (h : dataWrite a v n s = .next t) :
    t.MemoriesOk := by
  by_cases hg : ∃ o, s.loc a = .gpr o
  · obtain ⟨o, ho⟩ := hg
    obtain ⟨-, hlo, hhi⟩ := locate_gpr ho
    obtain ⟨hprog, ⟨hwf, hin⟩, heeprom, hstack⟩ := hs
    rw [dataWrite_gpr ho] at h
    cases h
    exact ⟨hprog, ⟨Memory.wf_write hwf o v, Memory.within_write hin hlo hhi v⟩, heeprom, hstack⟩
  · have hram := dataWrite_keeps_ram h fun o ho => hg ⟨o, ho⟩
    rwa [State.MemoriesOk, dataWrite_keeps_prog h, dataWrite_keeps_cfg h, hram,
      dataWrite_keeps_eeprom h, dataWrite_keeps_stack h]

theorem dataWrite_keeps_controlOk (hs : s.EepromControlOk) (h : dataWrite a v n s = .next t) :
    t.EepromControlOk := by
  by_cases hl : s.loc a = .eecon1
  · rw [dataWrite_eecon1 hl] at h
    exact eecon1Write_keeps_controlOk hs h
  · rwa [State.EepromControlOk, State.wr, dataWrite_keeps_eecon1 h hl, dataWrite_keeps_inFlight h hl]

/-- Only the counting Timer0 marks a write of TMR0 (R197). -/
theorem dataWrite_free_keeps_tmr0Hold (hf : s.cfg.tmr0Model = .free) (h : dataWrite a v n s = .next t) :
    t.tmr0Hold = s.tmr0Hold := by
  by_cases hl : s.loc a = .tmr0
  · rw [dataWrite_tmr0 hl] at h
    cases h
    simp [hf]
  · exact dataWrite_keeps_tmr0Hold h hl

/-! ### One instruction -/

/-- The invariant between an instruction and Timer0's charge for it: a counting Timer0 may bear the mark of
a TMR0 write. -/
def InvBeforeTimer (s : State) : Prop :=
  s.MemoriesOk ∧ s.EepromControlOk ∧ s.SleepOk ∧ (s.cfg.tmr0Model = .free → s.tmr0Hold ≠ .written)

theorem invBeforeTimer_of_inv (h : s.Inv) : InvBeforeTimer s := by
  obtain ⟨hm, he, hs, ht⟩ := h
  exact ⟨hm, he, hs, fun _ => ht⟩

/-- Timer0's charge restores the invariant. -/
theorem timer0After_inv (h : InvBeforeTimer t) : (timer0After s t).Inv := by
  obtain ⟨hm, he, hs, ht⟩ := h
  have hold := timer0After_hold (s := s) ht
  obtain ⟨x, p, i, q, e⟩ := timer0After_eq s t
  rw [e] at hold ⊢
  exact ⟨hm, he, hs, hold⟩

theorem sleepOk_of_awake (h : s.asleep = false) : s.SleepOk := fun ha => by simp [h] at ha

/-- A push lands on one of the eight entries (R17). -/
theorem push_keeps_memoriesOk (hs : s.MemoriesOk) (p : ProgAddr) : (push p s).MemoriesOk := by
  obtain ⟨hprog, hram, heeprom, hwf, hin⟩ := hs
  have hsp : s.sp.toNat ≤ 7 := Nat.le_of_lt_succ s.sp.isLt
  exact ⟨hprog, hram, heeprom, Memory.wf_write hwf _ p, Memory.within_write hin (Nat.zero_le _) hsp p⟩

/-- A resolved write by a running CPU, before the flags and the end of its instruction. -/
theorem dataWrite_invBeforeTimer (hs : s.Inv) (ha : s.asleep = false)
    (h : dataWrite a v n s = .next t) : InvBeforeTimer t := by
  obtain ⟨hm, he, -, ht⟩ := hs
  refine ⟨dataWrite_keeps_memoriesOk hm h, dataWrite_keeps_controlOk he h,
    sleepOk_of_awake ((dataWrite_keeps_asleep h).trans ha), fun hf => ?_⟩
  rw [dataWrite_keeps_cfg h] at hf
  rwa [dataWrite_free_keeps_tmr0Hold hf h]

/-- After SLEEP TO = 1 and PD = 0 (R161, R235). -/
theorem setToPd_bits (p q : Bool) (s : State) :
    (setToPd p q s).status.getLsbD 4 = p ∧ (setToPd p q s).status.getLsbD 3 = q :=
  ⟨(getLsbD_putBit_ne _ q (by decide)).trans (getLsbD_putBit_self _ p (by decide)),
    getLsbD_putBit_self _ q (by decide)⟩

/-- An instruction run by an awake CPU keeps the invariant but for the mark of a TMR0 write. -/
theorem exec_invBeforeTimer {i : Instr} (hs : s.Inv) (ha : s.asleep = false) (hh : s.holdOff = false)
    (h : exec i s = .next t) : InvBeforeTimer t := by
  have hw := invBeforeTimer_of_inv hs
  obtain ⟨hm, he, hsl, ht⟩ := hs
  cases exec_effect h with
  | file op f x r k u hu =>
    obtain ⟨um, ue, -, ut⟩ := dataWrite_invBeforeTimer (s := { s with lastRB := x }) ⟨hm, he, hsl, ht⟩ ha hu
    have ua : u.asleep = false := (dataWrite_keeps_asleep hu).trans ha
    rw [finish_eq]
    exact ⟨um, ue, sleepOk_of_awake ua, ut⟩
  | cpu => exact ⟨hm, he, sleepOk_of_awake ha, fun _ => ht⟩
  | call k => exact ⟨push_keeps_memoriesOk hm _, he, sleepOk_of_awake ha, fun _ => ht⟩
  | ret => exact ⟨hm, he, sleepOk_of_awake ha, fun _ => ht⟩
  | portControl => exact ⟨hm, he, sleepOk_of_awake ha, fun _ => ht⟩
  | clrwdt => exact ⟨hm, he, sleepOk_of_awake ha, fun _ => ht⟩
  | sleep =>
    obtain ⟨hto, hpd⟩ := setToPd_bits true false (clearWdt { s with asleep := true })
    exact ⟨hm, he, fun _ => ⟨hto, hpd, hh⟩, fun _ => ht⟩

/-! ### The agents beside the CPU -/

theorem samplePins_keeps_inv (hs : s.Inv) : (samplePins s).Inv := by
  obtain ⟨i, x, p, e⟩ := samplePins_eq s
  rw [e]
  exact hs

/-- The write engine writes an implemented address and clears WR (R211). -/
theorem eepromComplete_keeps_inv (hs : s.Inv) : (eepromComplete s).Inv := by
  rcases eepromComplete_cases s with ⟨-, e⟩ | ⟨w, -, e⟩ <;> rw [e]
  · exact hs
  · obtain ⟨⟨hprog, hram, ⟨hwf, hin⟩, hstack⟩, ⟨hrd, -⟩, hsl, ht⟩ := hs
    have haddr : w.addr.toNat ≤ 0x3F := Nat.le_of_lt_succ w.addr.isLt
    refine ⟨⟨hprog, hram, ⟨Memory.wf_write hwf _ _, Memory.within_write hin (Nat.zero_le _) haddr _⟩,
      hstack⟩, ⟨?_, ?_⟩, hsl, ht⟩
    · exact ((getLsbD_putBit_ne _ _ (by decide)).trans (getLsbD_putBit_ne _ _ (by decide))).trans hrd
    · exact (getLsbD_putBit_ne _ _ (by decide)).trans (getLsbD_putBit_self _ _ (by decide))

theorem applyEvent_keeps_inv (s : State) (e : EnvEvent) (hs : s.Inv) : (applyEvent s e).Inv := by
  cases e with
  | pins a b c => exact samplePins_keeps_inv hs
  | timer0 m p =>
    simp only [applyEvent, tmr0Free]
    split <;> exact hs
  | eepromDone => exact eepromComplete_keeps_inv hs
  | wdtClock m p =>
    simp only [applyEvent, wdtMove]
    split <;> exact hs

theorem atBoundary_keeps_inv (hs : s.Inv) : (atBoundary s).1.Inv := by
  unfold atBoundary
  split
  · exact samplePins_keeps_inv hs
  · exact applyEvents_keeps applyEvent_keeps_inv _ _ (samplePins_keeps_inv hs)

/-! ### The resets and wake-ups -/

/-- A write cut short leaves its byte at an implemented address and nothing in flight (R239). -/
theorem abandonWrite_storage (x : Byte) (hs : s.MemoriesOk) :
    (abandonWrite x s).MemoriesOk ∧ (abandonWrite x s).inFlight = none := by
  rcases abandonWrite_cases x s with ⟨hn, e⟩ | ⟨w, -, e⟩ <;> rw [e]
  · exact ⟨hs, hn⟩
  · obtain ⟨hprog, hram, ⟨hwf, hin⟩, hstack⟩ := hs
    have haddr : w.addr.toNat ≤ 0x3F := Nat.le_of_lt_succ w.addr.isLt
    exact ⟨⟨hprog, hram, ⟨Memory.wf_write hwf _ _, Memory.within_write hin (Nat.zero_le _) haddr _⟩,
      hstack⟩, rfl⟩

/-- What every reset forces gives the invariant back once no write is in flight (R231). -/
theorem resetCommon_inv (hs : s.MemoriesOk) (hf : s.inFlight = none) (kept : BitVec 5)
    (rbif wrerr : Bool) (sp : BitVec 3) : (resetCommon kept rbif wrerr sp s).Inv := by
  have control : ∀ j, j ≠ 3 → (resetCommon kept rbif wrerr sp s).eecon1.getLsbD j = false :=
    fun j hj => (getLsbD_putBit_ne _ _ hj).trans BitVec.getLsbD_zero
  refine ⟨hs, ⟨control 0 (by decide), ?_⟩, sleepOk_of_awake rfl, by simp⟩
  rw [State.wr, control 1 (by decide), resetCommon_inFlight, hf, Option.isSome_none]

/-- A power-on reset fills the GPRs and the stack within their addresses (R46, R232). -/
theorem powerOnReset_inv (d : PowerOnDraw) (hs : s.MemoriesOk) : (powerOnReset d s).Inv := by
  obtain ⟨hm, hf⟩ := abandonWrite_storage d.eeByte hs
  obtain ⟨⟨hprog, -, heeprom, -⟩, he, hsl, ht⟩ :=
    resetCommon_inv hm hf (0b11#2 ++ d.flags) d.rbif d.wrerr d.sp
  refine ⟨⟨hprog, ⟨Memory.wf_fill _ rfl _, Memory.within_fill _ rfl _ le_rfl ?_⟩, heeprom,
    ⟨Memory.wf_fill _ rfl _, Memory.within_fill _ rfl _ le_rfl ?_⟩⟩, he, sleepOk_of_awake rfl, ht⟩
  · have hlen := List.length_take_le (abandonWrite d.eeByte s).cfg.device.gprBytes d.gpr
    have hcfg : (powerOnReset d s).cfg = (abandonWrite d.eeByte s).cfg := rfl
    rw [hcfg, resetCommon_cfg, Device.gprLast]
    omega
  · have hlen := List.length_take_le 8 d.stack
    omega

theorem mclrReset_inv (d : ResetDraw) (hs : s.MemoriesOk) : (mclrReset d s).Inv := by
  obtain ⟨hm, hf⟩ := abandonWrite_storage d.eeByte hs
  exact resetCommon_inv hm hf _ _ _ _

/-- A watchdog time-out resets a running CPU and wakes a sleeping one (R202). -/
theorem wdtTimeout_inv (d : ResetDraw) (hs : s.Inv) : (wdtTimeout d s).Inv := by
  obtain ⟨hm, he, -, ht⟩ := hs
  unfold wdtTimeout
  split
  · exact ⟨hm, he, sleepOk_of_awake rfl, ht⟩
  · obtain ⟨hm', hf⟩ := abandonWrite_storage d.eeByte hm
    exact resetCommon_inv hm' hf _ _ _ _

/-! ### One step -/

theorem interruptEntry_inv (hs : s.Inv) (ha : s.asleep = false) : (interruptEntry s).Inv := by
  obtain ⟨hm, he, -, ht⟩ := hs
  exact ⟨push_keeps_memoriesOk hm s.pc, he, sleepOk_of_awake ha, ht⟩

theorem cpuStep_keeps_inv (hs : s.Inv) (h : cpuStep s = .next t) : t.Inv := by
  rcases cpuStep_next h with ⟨-, -, rfl⟩ | ⟨-, -, rfl⟩ | ⟨ha, -, rfl⟩ | ⟨ha, -, u, rfl, hu⟩
  · obtain ⟨hm, he, -, ht⟩ := hs
    exact ⟨hm, he, sleepOk_of_awake rfl, ht⟩
  · exact hs
  · exact timer0After_inv (invBeforeTimer_of_inv (interruptEntry_inv hs ha))
  · obtain ⟨hm, he, -, ht⟩ := hs
    have running : State.Inv { s with holdOff := false } := ⟨hm, he, sleepOk_of_awake ha, ht⟩
    rcases hu with ⟨i, -, hi⟩ | ⟨w, -, -, rfl⟩
    · exact timer0After_inv (exec_invBeforeTimer running ha rfl hi)
    · exact timer0After_inv (invBeforeTimer_of_inv running)

theorem step_keeps_inv (hs : s.Inv) (h : step s = .next t) : t.Inv := by
  have hb := atBoundary_keeps_inv hs
  rcases runStep_next h with ⟨d, -, rfl⟩ | ⟨d, -, rfl⟩ | ⟨d, -, rfl⟩ | ⟨-, hc⟩
  · exact powerOnReset_inv d hb.1
  · exact mclrReset_inv d hb.1
  · exact wdtTimeout_inv d hb
  · exact cpuStep_keeps_inv hb hc

/-- Settles O59: the invariant holds after the boundary, and each of the five ways a step goes on keeps it. -/
theorem everyStepKeepsInv : Obligations.EveryStepKeepsInv := fun _ _ => step_keeps_inv

end Sys2Proof.Proofs

/-! The results and flags of the instructions that name f, against the unbounded arithmetic of the
statements; STATUS as the destination. -/

namespace Sys2Proof.Proofs

open Sys2Proof.Machine Sys2Proof.Claims

/-! ### The result byte -/

theorem putBit_false_eq (v : Byte) {i : Nat} (hi : i < 8) :
    putBit v i false = BitVec.ofNat 8 (v.toNat &&& (255 - 2 ^ i)) := by
  have hmask : ~~~(1#8 <<< i) = BitVec.ofNat 8 (255 - 2 ^ i) := by interval_cases i <;> rfl
  rw [BitVec.ofNat_and, BitVec.ofNat_toNat, BitVec.setWidth_eq, ← hmask]
  rfl

theorem putBit_true_eq (v : Byte) {i : Nat} (hi : i < 8) :
    putBit v i true = BitVec.ofNat 8 (v.toNat ||| 2 ^ i) := by
  have hmask : 1#8 <<< i = BitVec.ofNat 8 (2 ^ i) := by interval_cases i <;> rfl
  rw [BitVec.ofNat_or, BitVec.ofNat_toNat, BitVec.setWidth_eq, ← hmask]
  rfl

/-- The result of an instruction that names f is the one its pseudocode gives. -/
theorem fileAlu_value (op : FileOp) (s : State) (v : Byte) : (fileAlu op s v).value = op.value s v := by
  cases op with
  | bcf b => exact putBit_false_eq v (Nat.mod_lt b (by decide))
  | bsf b => exact putBit_true_eq v (Nat.mod_lt b (by decide))
  | rlf | rrf | swapf | clrf => rfl
  | movf | movwf | andwf | iorwf | xorwf =>
    apply BitVec.eq_of_toNat_eq
    simp [fileAlu, aluZ, aluPlain, FileOp.value, FileOp.result]
  | addwf | incf | incfsz =>
    apply BitVec.eq_of_toNat_eq
    simp [fileAlu, aluZ, aluPlain, aluAdd, FileOp.value, FileOp.result]
  | comf | decf | decfsz | subwf =>
    apply BitVec.eq_of_toNat_eq
    simp [fileAlu, aluZ, aluPlain, aluSub, FileOp.value, FileOp.result]
    omega

/-- The pseudocode's result is a byte. -/
theorem result_lt (op : FileOp) {w v : Nat} (hw : w < 256) (hv : v < 256) (c : Bool) :
    op.result w v c < 256 := by
  have hc : c.toNat ≤ 1 := Bool.toNat_le c
  cases op with
  | andwf | bcf => exact Nat.lt_of_le_of_lt Nat.and_le_left ‹_›
  | iorwf => exact Nat.or_lt_two_pow (n := 8) hw hv
  | xorwf => exact Nat.xor_lt_two_pow (n := 8) hw hv
  | bsf b =>
    have hb : 2 ^ (b % 8) < 2 ^ 8 := Nat.pow_lt_pow_right (by decide) (Nat.mod_lt b (by decide))
    exact Nat.or_lt_two_pow (n := 8) hv hb
  | _ => simp only [FileOp.result]; omega

theorem value_eq_zero_iff (op : FileOp) (s : State) (v : Byte) :
    op.value s v = 0 ↔ op.result s.w.toNat v.toNat s.carry = 0 := by
  have hlt := result_lt op s.w.isLt v.isLt s.carry
  rw [FileOp.value, BitVec.ofNat_eq_ofNat, ← BitVec.toNat_inj, BitVec.toNat_ofNat, BitVec.toNat_ofNat,
    Nat.zero_mod, Nat.mod_eq_of_lt hlt]

/-- A skip is decided by the result byte (R119, R121). -/
theorem fileSkip_value (op : FileOp) (s : State) (v : Byte) :
    fileSkip op (op.value s v) = op.skips (op.result s.w.toNat v.toNat s.carry) := by
  cases op with
  | decfsz | incfsz => exact decide_eq_decide.mpr (value_eq_zero_iff _ s v)
  | _ => rfl

/-- Away from PCL an instruction ends by moving on (R14, R15, R131). -/
theorem finish_fileSkip (op : FileOp) (s : State) (v : Byte) {t : State} {a : DataAddr} {d : Dest}
    (h : ¬(d = .f ∧ t.loc a = .pcl)) :
    finish a d (fileSkip op (op.value s v)) t = onBy (op.moves s v) t := by
  rw [fileSkip_value, finish, if_neg h, FileOp.moves]
  split <;> rfl

/-! ### The flags -/

theorem fileAlu_affectsNone (op : FileOp) (s : State) (v : Byte) :
    (fileAlu op s v).flags.affectsNone = op.affectsNone := by cases op <;> rfl

theorem fileAlu_zero (op : FileOp) (s : State) (v : Byte) (old : Bool) :
    (fileAlu op s v).flags.z.getD old = op.zeroAfter (op.result s.w.toNat v.toNat s.carry) old := by
  have byResult : decide ((fileAlu op s v).value = 0) =
      decide (op.result s.w.toNat v.toNat s.carry = 0) := by
    rw [fileAlu_value]
    exact decide_eq_decide.mpr (value_eq_zero_iff op s v)
  cases op with
  | addwf | andwf | comf | decf | incf | iorwf | movf | subwf | xorwf | clrf => exact byResult
  | _ => rfl

theorem fileAlu_digitCarry (op : FileOp) (s : State) (v : Byte) (old : Bool) :
    (fileAlu op s v).flags.dc.getD old = op.digitCarryAfter s.w.toNat v.toNat old := by
  cases op with
  | subwf =>
    apply decide_eq_decide.mpr
    omega
  | _ => rfl

theorem fileAlu_carry (op : FileOp) (s : State) (v : Byte) (old : Bool) :
    (fileAlu op s v).flags.c.getD old = op.carryAfter s.w.toNat v.toNat old := by
  have hw := s.w.isLt
  have hv := v.isLt
  cases op with
  | subwf =>
    apply decide_eq_decide.mpr
    omega
  | rlf =>
    change v.toNat.testBit 7 = decide (v.toNat ≥ 128)
    rw [Nat.testBit_eq_decide_div_mod_eq]
    apply decide_eq_decide.mpr
    omega
  | rrf => exact Nat.testBit_zero v.toNat
  | _ => rfl

/-! ### STATUS, bit by bit -/

/-- A byte put together from its low three bits and the rest. -/
theorem getLsbD_ofNat_split (hi : Nat) {lo : Nat} (hlo : lo < 8) {j : Nat} (hj : j < 8) :
    (BitVec.ofNat 8 (hi * 8 + lo)).getLsbD j = if j < 3 then lo.testBit j else hi.testBit (j - 3) := by
  rw [BitVec.getLsbD_ofNat, Nat.mul_comm, Nat.testBit_two_pow_mul_add (i := 3) hi hlo]
  simp [hj]

/-- The bits of a byte above a shift. -/
theorem testBit_toNat_div (x : Byte) {i j : Nat} (h : i ≤ j) :
    (x.toNat / 2 ^ i).testBit (j - i) = x.getLsbD j := by
  rw [Nat.testBit_div_two_pow, Nat.sub_add_cancel h]
  rfl

/-- The bits of a byte below a mask. -/
theorem testBit_toNat_mod (x : Byte) {i j : Nat} (h : j < i) :
    (x.toNat % 2 ^ i).testBit j = x.getLsbD j := by
  rw [Nat.testBit_mod_two_pow, decide_eq_true h, Bool.true_and]
  rfl

/-- Z is bit 2, DC bit 1, C bit 0, and the other bits stay (R22). -/
theorem getLsbD_flagsInto (status : Byte) (z dc c : Bool) {j : Nat} (hj : j < 8) :
    (flagsInto status z dc c).getLsbD j =
      if j = 0 then c else if j = 1 then dc else if j = 2 then z else status.getLsbD j := by
  have hlo : z.toNat * 4 + dc.toNat * 2 + c.toNat < 8 := by
    have := Bool.toNat_le z; have := Bool.toNat_le dc; have := Bool.toNat_le c; omega
  have flags : ∀ k, k < 3 → (z.toNat * 4 + dc.toNat * 2 + c.toNat).testBit k =
      if k = 0 then c else if k = 1 then dc else z := by
    revert z dc c; decide
  rw [flagsInto, Nat.add_assoc, Nat.add_assoc, ← Nat.add_assoc (z.toNat * 4), getLsbD_ofNat_split _ hlo hj]
  by_cases h3 : j < 3
  · rw [if_pos h3, flags j h3]
    have : ¬ j = 0 → ¬ j = 1 → j = 2 := by omega
    split_ifs <;> first | rfl | exact absurd (this ‹_› ‹_›) ‹_›
  · rw [if_neg h3, if_neg (by omega), if_neg (by omega), if_neg (by omega)]
    exact testBit_toNat_div status (i := 3) (by omega)

/-- The flag logic of an instruction that names f (R24, R110 to R112). -/
theorem fileAlu_status (op : FileOp) (s : State) (v : Byte) :
    (fileAlu op s v).flags.onStatus s.status = op.statusAfter s v := by
  apply BitVec.eq_of_getLsbD_eq
  intro j hj
  rw [getLsbD_onStatus, FileOp.statusAfter, getLsbD_flagsInto _ _ _ _ hj, fileAlu_zero,
    fileAlu_digitCarry, fileAlu_carry]
  rfl

/-- R23, bit by bit. -/
theorem getLsbD_statusAsDestination (op : FileOp) (s : State) (r : Byte) {j : Nat} (hj : j < 8) :
    (op.statusAsDestination s r).getLsbD j =
      if 5 ≤ j then r.getLsbD j else if 3 ≤ j then s.status.getLsbD j
      else if op.affectsNone then r.getLsbD j else (op.statusAfter s s.status).getLsbD j := by
  have join : ∀ lo, r.toNat / 32 * 32 + s.status.toNat / 8 % 4 * 8 + lo =
      (2 ^ 2 * (r.toNat / 32) + s.status.toNat / 8 % 4) * 8 + lo := by omega
  rw [FileOp.statusAsDestination, join, getLsbD_ofNat_split _ (by split <;> omega) hj]
  by_cases h3 : 3 ≤ j
  · rw [if_neg (show ¬ j < 3 by omega), if_pos h3, Nat.testBit_two_pow_mul_add _ (by omega)]
    by_cases h5 : 5 ≤ j
    · rw [if_neg (show ¬ j - 3 < 2 by omega), if_pos h5, Nat.sub_sub]
      exact testBit_toNat_div r (i := 5) h5
    · rw [if_pos (show j - 3 < 2 by omega), if_neg h5, Nat.testBit_mod_two_pow (j := 2),
        decide_eq_true (show j - 3 < 2 by omega), Bool.true_and]
      exact testBit_toNat_div s.status (i := 3) h3
  · rw [if_pos (show j < 3 by omega), if_neg h3, if_neg (show ¬ 5 ≤ j by omega)]
    split
    · exact testBit_toNat_mod r (i := 3) (by omega)
    · exact testBit_toNat_mod _ (i := 3) (by omega)

/-- The masked write of STATUS and then the flag logic (R23). -/
theorem fileAlu_statusWrite (op : FileOp) (s : State) (r : Byte) :
    (fileAlu op s s.status).flags.onStatus (statusWrite s.status r op.affectsNone) =
      op.statusAsDestination s r := by
  apply BitVec.eq_of_getLsbD_eq
  intro j hj
  rw [getLsbD_statusAsDestination op s r hj]
  cases hn : op.affectsNone with
  | true =>
    have hu := (fileAlu_affectsNone op s s.status).trans hn
    rw [onStatus_of_affectsNone hu, getLsbD_statusWrite _ _ _ _ hj]
    rfl
  | false =>
    rw [← fileAlu_status, getLsbD_onStatus, getLsbD_onStatus]
    simp only [getLsbD_statusWrite _ _ _ _ hj, getLsbD_statusWrite _ _ _ _ (show 0 < 8 by decide),
      getLsbD_statusWrite _ _ _ _ (show 1 < 8 by decide), getLsbD_statusWrite _ _ _ _ (show 2 < 8 by decide)]
    interval_cases j <;> rfl

/-! ### STATUS as the destination -/

/-- Only a read of PORTB leaves a trace (R219). -/
theorem afterReading_of_ne_portb {op : FileOp} {s : State} {a : DataAddr} (h : s.loc a ≠ .portb) :
    afterReading op s a = s := by
  simp only [afterReading, lastRBAfterRead, if_neg h, ite_self]

theorem dataRead_status {s : State} {a : DataAddr} (h : s.loc a = .status) :
    dataRead s a = s.status := by simp [dataRead, h]

/-- Settles O14: the masked write and the flag logic together, then the end away from PCL. -/
theorem statusAsDestination : Obligations.StatusAsDestination := by
  intro op f s hl
  have hr : afterReading op s (ea s f) = s := afterReading_of_ne_portb (by rw [hl]; decide)
  rw [exec_toFile, storeAndFinish_f, dataRead_status hl, fileAlu_value, fileAlu_affectsNone, hr,
    dataWrite_status hl, andThen_of_next, finish_fileSkip]
  · rw [applyFlags, fileAlu_statusWrite]
  · rintro ⟨-, hp⟩
    exact absurd (hl.symm.trans hp) (by decide)

end Sys2Proof.Proofs

/-! The statements over all instructions: TO and PD, PCLATH. -/

namespace Sys2Proof.Proofs

open Sys2Proof.Machine Sys2Proof.Claims

/-- TO and PD as they were (R22). -/
def SameToPd (old new : Byte) : Prop :=
  new.getLsbD 4 = old.getLsbD 4 ∧ new.getLsbD 3 = old.getLsbD 3

/-- The flag logic writes Z, DC and C only (R24). -/
theorem onStatus_sameToPd (u : FlagUpdate) (v : Byte) : SameToPd v (u.onStatus v) :=
  ⟨getLsbD_onStatus u v 4, getLsbD_onStatus u v 3⟩

/-- A resolved write reaches neither TO nor PD, at STATUS itself by the mask of R23. -/
theorem dataWrite_sameToPd {s t : State} {a : DataAddr} {v : Byte} {n : Bool}
    (h : dataWrite a v n s = .next t) : SameToPd s.status t.status := by
  by_cases hl : s.loc a = .status
  · rw [dataWrite_status hl] at h
    cases h
    exact statusWrite_toPd s.status v n
  · rw [dataWrite_keeps_status h hl]
    exact ⟨rfl, rfl⟩

/-- Settles O54: TO and PD survive the resolved write and the flag logic, and no other effect but those of
CLRWDT and SLEEP reaches STATUS. -/
theorem onlyClrwdtAndSleepChangeToPd : Obligations.OnlyClrwdtAndSleepChangeToPd := by
  intro i s t h hclrwdt hsleep
  cases exec_effect h with
  | file op f x r k u hu =>
    obtain ⟨hto, hpd⟩ := dataWrite_sameToPd hu
    obtain ⟨fto, fpd⟩ := onStatus_sameToPd r.flags u.status
    rw [finish_status]
    exact ⟨fto.trans hto, fpd.trans hpd⟩
  | cpu _ _ _ fl => exact onStatus_sameToPd fl s.status
  | call | ret | portControl => exact ⟨rfl, rfl⟩
  | clrwdt => exact absurd rfl hclrwdt
  | sleep => exact absurd rfl hsleep

/-- Settles O55: of all effects only the resolved write at PCLATH reaches it. -/
theorem pclathOnlyByDestination : Obligations.PclathOnlyByDestination := by
  refine ⟨fun i s t h hne => ?_, fun _ => rfl⟩
  cases exec_effect h with
  | file op f x r k u hu =>
    refine ⟨op, f, rfl, ?_⟩
    by_contra hl
    rw [finish_pclath] at hne
    have hkept := dataWrite_keeps_pclath hu hl
    exact hne hkept
  | cpu | call | ret | portControl | clrwdt | sleep => exact absurd rfl hne

end Sys2Proof.Proofs

/-! The return stack: pops, and the circular buffer of eight. -/

namespace Sys2Proof.Proofs

open Sys2Proof.Machine Sys2Proof.Claims

/-- The entry below the pointer, modulo 8 (R18). -/
theorem toNat_sp_sub_one (sp : BitVec 3) : (sp - 1).toNat = (sp.toNat + 7) % 8 := by
  rw [BitVec.toNat_sub]
  exact congrArg (· % 8) (Nat.add_comm 7 _)

/-- Settles O23: each of the three is `returnPop` beside W and INTCON. -/
theorem popDoesNotErase : Obligations.PopDoesNotErase := by
  rintro i s (rfl | rfl | ⟨k, rfl⟩) <;> exact ⟨_, rfl, toNat_sp_sub_one s.sp, rfl, rfl⟩

/-- The `k`-th newest entry, counted from 0: TOS after `k` pops. -/
def entryBelow (s : State) (k : BitVec 3) : ProgAddr := Memory.read s.stack (s.sp - 1 - k).toNat

/-- Pops move the pointer only, so modulo 8 (R18, R19). -/
theorem tos_pops (k : Nat) (s : State) : (pops k s).tos = entryBelow s (BitVec.ofNat 3 k) := by
  induction k generalizing s with
  | zero => simp [pops, State.tos, entryBelow]
  | succ k ih =>
    have hsp : s.sp - 1 - 1 - BitVec.ofNat 3 k = s.sp - 1 - BitVec.ofNat 3 (k + 1) := by bv_omega
    rw [pops, ih, entryBelow, entryBelow, pop_sp, pop_stack, hsp]

/-- A push makes the pushed value the newest. -/
theorem entryBelow_push_zero {s : State} (hs : Memory.wf s.stack = true) (v : ProgAddr) :
    entryBelow (push v s) 0 = v := by
  have hsp : s.sp + 1 - 1 - 0 = s.sp := by bv_omega
  rw [entryBelow, push_sp, push_stack, hsp, Memory.read_write_same hs]

/-- A push makes the entries below one older, but for the one it overwrites (R19). -/
theorem entryBelow_push_succ {s : State} (hs : Memory.wf s.stack = true) (v : ProgAddr) {k : Nat}
    (hk : k < 7) : entryBelow (push v s) (BitVec.ofNat 3 (k + 1)) = entryBelow s (BitVec.ofNat 3 k) := by
  have hsp : s.sp + 1 - 1 - BitVec.ofNat 3 (k + 1) = s.sp - 1 - BitVec.ofNat 3 k := by bv_omega
  have hne : s.sp.toNat ≠ (s.sp - 1 - BitVec.ofNat 3 k).toNat := by bv_omega
  rw [entryBelow, push_sp, push_stack, hsp, Memory.read_write_other hs hne, entryBelow]

theorem pushes_append (vs : List ProgAddr) (v : ProgAddr) (s : State) :
    pushes (vs ++ [v]) s = push v (pushes vs s) := by simp [pushes]

theorem pushes_wf {s : State} (hs : Memory.wf s.stack = true) (vs : List ProgAddr) :
    Memory.wf (pushes vs s).stack = true := by
  induction vs using List.reverseRecOn with
  | nil => exact hs
  | append_singleton vs v ih =>
    rw [pushes_append]
    exact Memory.wf_write ih _ v

/-- After pushes the newest entries, eight at most, are the newest values pushed (R17, R19). -/
theorem entryBelow_pushes {s : State} (hs : Memory.wf s.stack = true) (vs : List ProgAddr) :
    ∀ k, k < 8 → k < vs.length →
      entryBelow (pushes vs s) (BitVec.ofNat 3 k) = vs.reverse.getD k 0 := by
  induction vs using List.reverseRecOn with
  | nil => intro k _ hk; exact absurd hk (Nat.not_lt_zero k)
  | append_singleton vs v ih =>
    intro k h8 hk
    have hwf := pushes_wf hs vs
    rw [pushes_append, List.reverse_append, List.reverse_singleton, List.singleton_append]
    cases k with
    | zero => exact entryBelow_push_zero hwf v
    | succ k =>
      rw [entryBelow_push_succ hwf v (by omega), List.getD_cons_succ]
      exact ih k (by omega) (by simpa using hk)

/-- Settles O25: pops count modulo 8, and the eight newest entries are the eight newest values. -/
theorem stackIsCircular : Obligations.StackIsCircular := by
  intro vs k s hs hlen
  have h8 : k % 8 < 8 := Nat.mod_lt k (by decide)
  have hmod : BitVec.ofNat 3 k = BitVec.ofNat 3 (k % 8) :=
    BitVec.eq_of_toNat_eq (Nat.mod_mod k 8).symm
  rw [tos_pops, hmod]
  exact entryBelow_pushes hs vs (k % 8) h8 (Nat.lt_of_lt_of_le h8 hlen)

end Sys2Proof.Proofs

/-! The register file map and the resolved read, place by place (R63, R66), and the fetch address (R61). -/

namespace Sys2Proof.Proofs

open Sys2Proof.Machine Sys2Proof.Claims

/-! ### Which place an address names -/

/-- Bit 7 of a data address is its bank (R62). -/
theorem getLsbD_seven_eq (a : DataAddr) : a.getLsbD 7 = decide (128 ≤ a.toNat) :=
  (BitVec.msb_eq_getLsbD_last a).symm.trans (BitVec.msb_eq_decide a)

/-- Every device has its GPRs up to 2Fh (R11). -/
theorem le_gprLast (dev : Device) : 0x2F ≤ dev.gprLast := by cases dev <;> decide

/-- From offset 0Ch up an address names the bank-0 byte, as far as the device has GPRs (R11, D9). -/
theorem locate_above {dev : Device} {a : DataAddr} (h : 0x0C ≤ a.toNat % 128) :
    locate dev a = if a.toNat % 128 ≤ dev.gprLast then .gpr (a.toNat % 128) else .unimplemented := by
  unfold locate
  simp only
  split
  case h_13 => rfl
  all_goals omega

theorem loc_gpr {s : State} {a : DataAddr} (hlo : 0x0C ≤ a.toNat % 128)
    (hhi : a.toNat % 128 ≤ s.cfg.device.gprLast) : s.loc a = .gpr (a.toNat % 128) := by
  rw [State.loc, locate_above hlo, if_pos hhi]

theorem loc_above_gprLast {s : State} {a : DataAddr} (h : s.cfg.device.gprLast < a.toNat % 128) :
    s.loc a = .unimplemented := by
  have := le_gprLast s.cfg.device
  rw [State.loc, locate_above (by omega), if_neg (by omega)]

/-! ### The resolved read, place by place (R66) -/

variable {s : State} {a : DataAddr}

theorem dataRead_indf (h : s.loc a = .indf) : dataRead s a = 0x00 := by simp [dataRead, h]
theorem dataRead_tmr0 (h : s.loc a = .tmr0) : dataRead s a = s.tmr0 := by simp [dataRead, h]
theorem dataRead_option (h : s.loc a = .option) : dataRead s a = s.option := by simp [dataRead, h]
theorem dataRead_pcl (h : s.loc a = .pcl) : dataRead s a = pclRead s := by simp [dataRead, h]
theorem dataRead_fsr (h : s.loc a = .fsr) : dataRead s a = s.fsr := by simp [dataRead, h]
theorem dataRead_porta (h : s.loc a = .porta) : dataRead s a = (pinA s).setWidth 8 := by simp [dataRead, h]
theorem dataRead_trisa (h : s.loc a = .trisa) : dataRead s a = s.trisa.setWidth 8 := by simp [dataRead, h]
theorem dataRead_portb (h : s.loc a = .portb) : dataRead s a = pinB s := by simp [dataRead, h]
theorem dataRead_trisb (h : s.loc a = .trisb) : dataRead s a = s.trisb := by simp [dataRead, h]
theorem dataRead_eedata (h : s.loc a = .eedata) : dataRead s a = s.eedata := by simp [dataRead, h]
theorem dataRead_eecon1 (h : s.loc a = .eecon1) : dataRead s a = s.eecon1.setWidth 8 := by simp [dataRead, h]
theorem dataRead_eeadr (h : s.loc a = .eeadr) : dataRead s a = s.eeadr := by simp [dataRead, h]
theorem dataRead_eecon2 (h : s.loc a = .eecon2) : dataRead s a = 0x00 := by simp [dataRead, h]
theorem dataRead_pclath (h : s.loc a = .pclath) : dataRead s a = s.pclath.setWidth 8 := by simp [dataRead, h]
theorem dataRead_intcon (h : s.loc a = .intcon) : dataRead s a = s.intcon := by simp [dataRead, h]
theorem dataRead_unimplemented (h : s.loc a = .unimplemented) : dataRead s a = 0x00 := by simp [dataRead, h]
theorem dataRead_gpr {o : Nat} (h : s.loc a = .gpr o) : dataRead s a = Memory.read s.ram o := by
  simp [dataRead, h]

/-! ### The map and the fetch -/

/-- Settles O6: the rows below 0Ch are the map's own, the others those of `locate_above`. -/
theorem registerFileMap : Obligations.RegisterFileMap := by
  intro s a o bank1
  have row (k : Nat) (h : o = k) : a.toNat % 128 = k := h
  have bank : a.getLsbD 7 = bank1 := getLsbD_seven_eq a
  have unimplemented (h : s.loc a = .unimplemented) : s.loc a = .unimplemented ∧ dataRead s a = 0x00 :=
    ⟨h, dataRead_unimplemented h⟩
  refine ⟨?_, ?_, ?_, ?_, ?_, ?_, ?_, fun h => unimplemented ?hole, ?_, ?_, ?_, ?_, loc_gpr,
    fun h => unimplemented (loc_above_gprLast h)⟩
  case hole => simp only [State.loc, locate, row _ h]
  all_goals
    intro h
    simp only [State.loc, locate, row _ h, bank]

/-- Settles O37: `progWords` by device, and 400h steps are a multiple of it. -/
theorem fetchWraps : Obligations.FetchWraps := by
  refine ⟨fun s a => ⟨?_, ?_⟩, fun s n hd hn => ?_⟩
  · rintro (hd | hd) <;> rw [progRead, hd] <;> rfl
  · rintro (hd | hd | hd) <;> rw [progRead, hd] <;> rfl
  · have hmod : (BitVec.ofNat 13 (0x20 + n * 0x400)).toNat % 1024 = 0x20 := by
      rw [BitVec.toNat_ofNat]
      omega
    rw [progRead, progRead, hd]
    exact congrArg (Memory.read s.prog) hmod

end Sys2Proof.Proofs

/-! The addresses that f names (R64, R65): direct, and through INDF. -/

namespace Sys2Proof.Proofs

open Sys2Proof.Machine Sys2Proof.Claims

/-! ### Direct addresses -/

theorem ea_direct {f : Nat} (hf : f ≤ 127) (h0 : f ≠ 0) (s : State) :
    ea s f = BitVec.ofBool s.rp0 ++ BitVec.ofNat 7 f := by
  rw [ea, if_neg (by omega)]

theorem toNat_ea_direct {f : Nat} (hf : f ≤ 127) (h0 : f ≠ 0) (s : State) :
    (ea s f).toNat = s.rp0.toNat * 128 + f := by
  have hlow : (BitVec.ofNat 7 f).toNat = f := Nat.mod_eq_of_lt (by omega)
  rw [ea_direct hf h0, BitVec.toNat_append, hlow, ← Nat.shiftLeft_add_eq_or_of_lt (by omega),
    Nat.shiftLeft_eq, BitVec.toNat_ofBool]

/-- STATUS is reached from both banks (R63). -/
theorem loc_ea_status (s : State) : s.loc (ea s 0x03) = .status := by
  rw [ea_direct (by decide) (by decide)]
  cases s.rp0 <;> rfl

/-- BSF STATUS,5 changes STATUS only, and sets RP0 there (R23, R142). -/
theorem exec_bsf_rp0 (s : State) :
    ∃ st : Byte, st.getLsbD 5 = true ∧ exec (.bsf 0x03 5) s = .next (onBy 1 { s with status := st }) := by
  refine ⟨_, ?_, statusAsDestination (.bsf 5) 0x03 s (loc_ea_status s)⟩
  rw [getLsbD_statusAsDestination _ _ _ (by decide), if_pos le_rfl, ← fileAlu_value]
  exact getLsbD_putBit_self _ true (by decide)

/-- MOVWF 05h in bank 1 writes TRISA (R63, R124). -/
theorem exec_movwf_trisa {s : State} (h : s.rp0 = true) :
    exec (.movwf 0x05) s = .next (advance { s with trisa := s.w.setWidth 5 }) := by
  have ha : ea s 0x05 = 0x85 := by rw [ea_direct (by decide) (by decide), h]; rfl
  change exec (FileOp.movwf.toFile 0x05) s = _
  rw [exec_toFile, ha]
  rfl

/-- Settles O7: RP0 is all of STATUS that a direct address reads, at the time the instruction executes. -/
theorem directAddress : Obligations.DirectAddress := by
  refine ⟨fun s f hf h0 => toNat_ea_direct hf h0 s, fun s status f hf h0 h => ?_, fun s => ?_⟩
  · rw [ea_direct hf h0, ea_direct hf h0]
    exact congrArg (fun b => BitVec.ofBool b ++ BitVec.ofNat 7 f) h
  · obtain ⟨st, hrp0, hbsf⟩ := exec_bsf_rp0 s
    have run : execAll [.bsf 0x03 5, .movwf 0x05] s =
        .next (advance { onBy 1 { s with status := st } with trisa := s.w.setWidth 5 }) := by
      rw [execAll, hbsf, andThen_of_next, execAll, exec_movwf_trisa (s := onBy 1 { s with status := st }) hrp0,
        andThen_of_next]
      rfl
    exact ⟨_, run, BitVec.toNat_setWidth 5 s.w, rfl⟩

/-! ### Through INDF -/

/-- With FSR<6:0> = 0 INDF names itself (R65, D21). -/
theorem loc_ea_indf {s : State} (h : s.fsr.toNat % 128 = 0) : s.loc (ea s 0) = .indf := by
  change locate s.cfg.device s.fsr = .indf
  simp only [locate, h]

/-- FSR is reached at the offset 04h only (R63). -/
theorem locate_fsr {dev : Device} {a : DataAddr} (h : locate dev a = .fsr) : a.toNat % 128 = 0x04 := by
  unfold locate at h
  simp only at h
  split at h
  case h_5 ho => exact ho
  all_goals first | (split at h <;> cases h) | cases h

/-- The fourteen forms that write W change W, the flags, RB<7:4> as last read, and move on (R131). -/
theorem exec_toW_next {op : FileOp} {f : Nat} {i : Instr} (hi : op.toW f = some i) (s : State) :
    exec i s = .next (onBy (op.moves s (dataRead s (ea s f))) { s with
      w := op.value s (dataRead s (ea s f))
      status := op.statusAfter s (dataRead s (ea s f))
      lastRB := lastRBAfterRead s (ea s f) }) := by
  rw [exec_toW hi, ← fileAlu_status, storeAndFinish, store, andThen_of_next, fileAlu_value,
    finish_fileSkip op s]
  · rfl
  · rintro ⟨hd, -⟩
    cases hd

/-- Where f names INDF itself the eighteen forms that write f read 00h and write only the flags (R65). -/
theorem exec_toFile_indf (op : FileOp) {f : Nat} {s : State} (hl : s.loc (ea s f) = .indf) :
    exec (op.toFile f) s = .next (onBy (op.moves s 0x00) { s with status := op.statusAfter s 0x00 }) := by
  have hr : afterReading op s (ea s f) = s := afterReading_of_ne_portb (by rw [hl]; decide)
  rw [exec_toFile, ← fileAlu_status, storeAndFinish_f, hr, dataRead_indf hl, dataWrite_indf hl,
    andThen_of_next, fileAlu_value, finish_fileSkip op s]
  · rfl
  · rintro ⟨-, hp⟩
    exact absurd (hl.symm.trans hp) (by decide)

/-- A bit test leaves FSR alone (R143, R144). -/
theorem testBit_keeps_fsr {s t : State} {f b : Nat} {k : Bool} (h : testBit f b k s = .next t) :
    t.fsr = s.fsr := by
  rcases testBit_cases f b k s with ⟨-, e⟩ | ⟨-, e⟩ <;> rw [e] at h <;> cases h <;> rfl

/-- A form that writes f leaves FSR alone unless it names FSR. -/
theorem exec_toFile_keeps_fsr {op : FileOp} {f : Nat} {s t : State} (hl : s.loc (ea s f) ≠ .fsr)
    (h : exec (op.toFile f) s = .next t) : t.fsr = s.fsr := by
  rw [exec_toFile, storeAndFinish_f] at h
  obtain ⟨u, hu, ht⟩ := andThen_next.mp h
  cases ht
  obtain ⟨x, hx⟩ := afterReading_eq op s (ea s f)
  rw [hx] at hu
  rw [finish_eq]
  exact (dataWrite_keeps_fsr hu hl :)

/-- Settles O8: an access sees f through its resolved address alone; INDF through itself is a place that
reads 00h and ignores writes; and FSR is written at its own address only. -/
theorem indirectAddress : Obligations.IndirectAddress := by
  refine ⟨fun _ => rfl, fun s f _ _ ha => ⟨fun op => ?_, fun op i j hi hj => ?_, fun b => ⟨?_, ?_⟩⟩,
    fun s h => ⟨fun op => exec_toFile_indf op (loc_ea_indf h), fun op i hi => ?_⟩,
    fun s t => ⟨fun op hne h => ?_, fun op i hi h => ?_, fun b h => ?_⟩⟩
  · rw [exec_toFile, exec_toFile, ha]
    rfl
  · rw [exec_toW hi, exec_toW hj, ha]
    rfl
  · change testBit 0 b false s = testBit f b false s
    rw [testBit, testBit, ha]
    rfl
  · change testBit 0 b true s = testBit f b true s
    rw [testBit, testBit, ha]
    rfl
  · have hl := loc_ea_indf h
    rw [exec_toW_next hi, dataRead_indf hl, lastRBAfterRead, hl]
    rfl
  · exact exec_toFile_keeps_fsr (f := 0) (fun hl => hne (locate_fsr hl)) h
  · rw [exec_toW_next hi] at h
    cases h
    rfl
  · rcases h with h | h
    · exact testBit_keeps_fsr (k := false) h
    · exact testBit_keeps_fsr (k := true) h

end Sys2Proof.Proofs

/-! The resolved read and write over the register file (R66): read after write, and the rows one by one. -/

namespace Sys2Proof.Proofs

open Sys2Proof.Machine Sys2Proof.Claims

variable {s t : State} {a b : DataAddr} {v : Byte} {n : Bool}

/-! ### Read after write -/

/-- A resolved write moves no place (R63). -/
theorem dataWrite_keeps_loc (h : dataWrite a v n s = .next t) (b : DataAddr) : t.loc b = s.loc b := by
  rw [State.loc, State.loc, dataWrite_keeps_cfg h]

/-- EEDATA is written at its own address and by a read that EECON1 starts (R209). -/
theorem dataWrite_keeps_eedata (h : dataWrite a v n s = .next t) (hd : s.loc a ≠ .eedata)
    (hc : s.loc a ≠ .eecon1) : t.eedata = s.eedata := by
  unfold dataWrite at h
  split at h <;> first | exact absurd ‹_› hd | exact absurd ‹_› hc | (cases h; rfl)

/-- The levels of PORTA follow its latch and TRISA (R216). -/
theorem dataWrite_keeps_pinA (h : dataWrite a v n s = .next t) (hp : s.loc a ≠ .porta)
    (ht : s.loc a ≠ .trisa) : pinA t = pinA s := by
  rw [pinA, pinA, dataWrite_keeps_latchA h hp, dataWrite_keeps_trisa h ht, dataWrite_keeps_envA h]

/-- The levels of PORTB follow its latch, TRISB and the pull-ups (R216, R219). -/
theorem dataWrite_keeps_pinB (h : dataWrite a v n s = .next t) (hp : s.loc a ≠ .portb)
    (ht : s.loc a ≠ .trisb) (ho : s.loc a ≠ .option) : pinB t = pinB s := by
  rw [pinB, pinB, suppliedB, suppliedB, State.pullUps, State.pullUps, dataWrite_keeps_latchB h hp,
    dataWrite_keeps_trisb h ht, dataWrite_keeps_option h ho, dataWrite_keeps_envB h,
    dataWrite_keeps_undrivenB h]

/-- What the five bits of PCLATH keep of a byte (R13). -/
theorem setWidth_setWidth_five (v : Byte) :
    (v.setWidth 5).setWidth 8 = BitVec.ofNat 8 (v.toNat % 32) := by
  apply BitVec.eq_of_toNat_eq
  simp

/-- A place that only stores reads back what it keeps of the value (R66, R75). -/
theorem dataRead_written (hm : Memory.wf s.ram = true) (hp : plain (s.loc a) = true)
    (h : dataWrite a v n s = .next t) (hb : s.loc b = s.loc a) :
    dataRead t b = readBack s v n (s.loc a) := by
  have ht := (dataWrite_keeps_loc h b).trans hb
  cases hl : s.loc a with
  | option | pcl | porta | trisa | portb | trisb | eecon1 => simp [hl, plain] at hp
  | indf => exact dataRead_indf (ht.trans hl)
  | eecon2 => exact dataRead_eecon2 (ht.trans hl)
  | unimplemented => exact dataRead_unimplemented (ht.trans hl)
  | tmr0 =>
    cases (dataWrite_tmr0 hl).symm.trans h
    exact dataRead_tmr0 (ht.trans hl)
  | status =>
    cases (dataWrite_status hl).symm.trans h
    exact dataRead_status (ht.trans hl)
  | fsr =>
    cases (dataWrite_fsr hl).symm.trans h
    exact dataRead_fsr (ht.trans hl)
  | eedata =>
    cases (dataWrite_eedata hl).symm.trans h
    exact dataRead_eedata (ht.trans hl)
  | eeadr =>
    cases (dataWrite_eeadr hl).symm.trans h
    exact dataRead_eeadr (ht.trans hl)
  | intcon =>
    cases (dataWrite_intcon hl).symm.trans h
    exact dataRead_intcon (ht.trans hl)
  | pclath =>
    cases (dataWrite_pclath hl).symm.trans h
    rw [dataRead_pclath (ht.trans hl)]
    exact setWidth_setWidth_five v
  | gpr o =>
    cases (dataWrite_gpr hl).symm.trans h
    rw [dataRead_gpr (ht.trans hl)]
    exact Memory.read_write_same hm o v

/-- A write to a place that only stores changes what no other place reads. -/
theorem dataRead_elsewhere (hm : Memory.wf s.ram = true) (hp : plain (s.loc a) = true)
    (h : dataWrite a v n s = .next t) (hb : s.loc b ≠ s.loc a) : dataRead t b = dataRead s b := by
  have notPlain {l : Loc} (hl : plain l = false) : s.loc a ≠ l := fun e => by simp [e, hl] at hp
  have other {l : Loc} (hl : s.loc b = l) : s.loc a ≠ l := fun e => hb (hl.trans e.symm)
  have ht := dataWrite_keeps_loc h b
  cases hl : s.loc b with
  | indf => rw [dataRead_indf (ht.trans hl), dataRead_indf hl]
  | eecon2 => rw [dataRead_eecon2 (ht.trans hl), dataRead_eecon2 hl]
  | unimplemented => rw [dataRead_unimplemented (ht.trans hl), dataRead_unimplemented hl]
  | tmr0 => rw [dataRead_tmr0 (ht.trans hl), dataRead_tmr0 hl, dataWrite_keeps_tmr0 h (other hl)]
  | option => rw [dataRead_option (ht.trans hl), dataRead_option hl, dataWrite_keeps_option h (other hl)]
  | status => rw [dataRead_status (ht.trans hl), dataRead_status hl, dataWrite_keeps_status h (other hl)]
  | fsr => rw [dataRead_fsr (ht.trans hl), dataRead_fsr hl, dataWrite_keeps_fsr h (other hl)]
  | trisa => rw [dataRead_trisa (ht.trans hl), dataRead_trisa hl, dataWrite_keeps_trisa h (other hl)]
  | trisb => rw [dataRead_trisb (ht.trans hl), dataRead_trisb hl, dataWrite_keeps_trisb h (other hl)]
  | eecon1 => rw [dataRead_eecon1 (ht.trans hl), dataRead_eecon1 hl, dataWrite_keeps_eecon1 h (other hl)]
  | eeadr => rw [dataRead_eeadr (ht.trans hl), dataRead_eeadr hl, dataWrite_keeps_eeadr h (other hl)]
  | pclath => rw [dataRead_pclath (ht.trans hl), dataRead_pclath hl, dataWrite_keeps_pclath h (other hl)]
  | intcon => rw [dataRead_intcon (ht.trans hl), dataRead_intcon hl, dataWrite_keeps_intcon h (other hl)]
  | eedata =>
    rw [dataRead_eedata (ht.trans hl), dataRead_eedata hl,
      dataWrite_keeps_eedata h (other hl) (notPlain rfl)]
  | pcl =>
    rw [dataRead_pcl (ht.trans hl), dataRead_pcl hl, pclRead, pclRead, dataWrite_keeps_cfg h,
      dataWrite_keeps_pc h (other hl)]
  | porta =>
    rw [dataRead_porta (ht.trans hl), dataRead_porta hl,
      dataWrite_keeps_pinA h (other hl) (notPlain rfl)]
  | portb =>
    rw [dataRead_portb (ht.trans hl), dataRead_portb hl,
      dataWrite_keeps_pinB h (other hl) (notPlain rfl) (notPlain rfl)]
  | gpr o =>
    rw [dataRead_gpr (ht.trans hl), dataRead_gpr hl]
    exact dataWrite_ram_other hm h (other hl)

/-- Settles O10: the place written by what it stores, every other by its own field, which the write keeps. -/
theorem readAfterWrite : Obligations.ReadAfterWrite := by
  intro s a v n hm hp
  have hc : s.loc a ≠ .eecon1 := fun e => by simp [e, plain] at hp
  obtain ⟨t, h⟩ := dataWrite_completes (v := v) (n := n) hc
  refine ⟨t, h, fun b => ?_⟩
  split
  · exact dataRead_written hm hp h ‹_›
  · exact dataRead_elsewhere hm hp h ‹_›

end Sys2Proof.Proofs

/-! EECON1 and the rows of R66: what each write of EECON1 does (R208 to R210), then every address. -/

namespace Sys2Proof.Proofs

open Sys2Proof.Machine Sys2Proof.Claims

variable {s : State} {v : Byte}

/-! ### The written value -/

/-- The low two bits of a value written to EECON1 are RD and WR (R40). -/
theorem rd_wr_of_mod_four {rd wr : Bool} (h : v.toNat % 4 = wr.toNat * 2 + rd.toNat) :
    v.getLsbD 0 = rd ∧ v.getLsbD 1 = wr := by
  have low {j : Nat} (hj : j < 2) : v.getLsbD j = (wr.toNat * 2 + rd.toNat).testBit j := by
    rw [← h]
    exact (testBit_toNat_mod v (i := 2) hj).symm
  rw [low (j := 0) (by decide), low (j := 1) (by decide)]
  cases rd <;> cases wr <;> exact ⟨rfl, rfl⟩

/-- EEIF, WRERR and WREN arrive, WR and RD stay (R208). -/
theorem eecon1Bits_eq (old : BitVec 5) (v : Byte) : eecon1Bits old v = eecon1Taking old v := by
  apply BitVec.eq_of_getLsbD_eq
  intro j hj
  have hlow : old.toNat % 4 < 2 ^ 2 := Nat.mod_lt _ (by decide)
  rw [eecon1Taking, BitVec.getLsbD_ofNat, Nat.mul_comm _ 4, Nat.testBit_two_pow_mul_add (i := 2) _ hlow,
    Nat.testBit_mod_two_pow (j := 2), Nat.testBit_mod_two_pow (j := 3), Nat.testBit_div_two_pow (n := 2)]
  simp only [BitVec.testBit_toNat]
  interval_cases j <;> simp [eecon1Bits]

/-- RD as a read leaves it (R209). -/
theorem putBit_rd (x : BitVec 5) : putBit x 0 false = x &&& 0b11110 := rfl

/-! ### The read and the write request, case by case (R209, R210) -/

theorem eepromRead_high (h : 0x3F < s.eeadr.toNat) : eepromRead s = .fault (.eepromAddress s.eeadr) := by
  rw [eepromRead, if_pos h]

theorem eepromRead_idle (h : s.eeadr.toNat ≤ 0x3F) (hf : s.inFlight = none) :
    eepromRead s = .next { s with
      eedata := Memory.read s.eeprom s.eeadr.toNat, eecon1 := s.eecon1 &&& 0b11110 } := by
  simp only [eepromRead, if_neg (Nat.not_lt.mpr h), hf, putBit_rd]

theorem eepromRead_busy (h : s.eeadr.toNat ≤ 0x3F) (hf : s.inFlight ≠ none) :
    eepromRead s = .next { s with
      eedata := Config.freeByte s.draws, draws := s.draws + 1, eecon1 := s.eecon1 &&& 0b11110 } := by
  obtain ⟨e, he⟩ := Option.ne_none_iff_exists'.mp hf
  simp only [eepromRead, if_neg (Nat.not_lt.mpr h), he, putBit_rd]

/-- The unlock sequence done, WREN set and no write in flight (R210). -/
def Armed (s : State) : Prop := s.unlock = .gotAA ∧ s.wren = true ∧ s.inFlight = none

theorem armed_iff (s : State) :
    Armed s ↔ (decide (s.unlock = .gotAA) && s.wren && s.inFlight.isNone) = true := by
  simp [Armed, and_assoc]

theorem eepromRequestWrite_not_armed (h : ¬ Armed s) :
    eepromRequestWrite s = .next { s with unlock := .locked } := by
  rw [eepromRequestWrite, if_neg fun e => h ((armed_iff s).mpr e)]

theorem eepromRequestWrite_armed (h : Armed s) (ha : s.eeadr.toNat ≤ 0x3F) :
    eepromRequestWrite s = .next { s with
      eecon1 := s.eecon1 ||| 0b00010
      inFlight := some { addr := BitVec.ofNat 6 s.eeadr.toNat, data := s.eedata }
      unlock := .locked } := by
  rw [eepromRequestWrite, if_pos ((armed_iff s).mp h), if_neg (Nat.not_lt.mpr ha)]
  rfl

theorem eepromRequestWrite_high (h : Armed s) (ha : 0x3F < s.eeadr.toNat) :
    eepromRequestWrite s = .fault (.eepromAddress s.eeadr) := by
  rw [eepromRequestWrite, if_pos ((armed_iff s).mp h), if_pos ha]

/-! ### The write of EECON1 by the RD and WR of the value (R208) -/

/-- `s` with EEIF, WRERR and WREN from a written value (R208). -/
def eecon1Taken (v : Byte) (s : State) : State := { s with eecon1 := eecon1Taking s.eecon1 v }

/-- The write of EECON1 with its two requests known (R208). -/
theorem eecon1Write_of_mod_four {rd wr : Bool} (h : v.toNat % 4 = wr.toNat * 2 + rd.toNat) :
    eecon1Write v s =
      if rd && wr && !s.wr then .refused (.eepromReadAndWrite v)
      else andThen (if wr then eepromRequestWrite (eecon1Taken v s) else .next (eecon1Taken v s))
        fun t => if rd then eepromRead t else .next t := by
  obtain ⟨hrd, hwr⟩ := rd_wr_of_mod_four h
  rw [eecon1Write, hrd, hwr, eecon1Bits_eq]
  rfl

theorem eecon1Write_neither (h : v.toNat % 4 = 0) : eecon1Write v s = .next (eecon1Taken v s) :=
  eecon1Write_of_mod_four (rd := false) (wr := false) h

theorem eecon1Write_rd (h : v.toNat % 4 = 1) : eecon1Write v s = eepromRead (eecon1Taken v s) :=
  eecon1Write_of_mod_four (rd := true) (wr := false) h

theorem eecon1Write_wr (h : v.toNat % 4 = 2) : eecon1Write v s = eepromRequestWrite (eecon1Taken v s) := by
  refine (eecon1Write_of_mod_four (rd := false) (wr := true) h).trans ?_
  show andThen (eepromRequestWrite (eecon1Taken v s)) .next = _
  cases eepromRequestWrite (eecon1Taken v s) <;> rfl

theorem eecon1Write_both_refused (h : v.toNat % 4 = 3) (hs : s.wr = false) :
    eecon1Write v s = .refused (.eepromReadAndWrite v) := by
  rw [eecon1Write_of_mod_four (rd := true) (wr := true) h, hs]
  rfl

/-- Over a WR that is already 1 the read follows a request that is not taken (log 13). -/
theorem eecon1Write_both_busy (h : v.toNat % 4 = 3) (hs : s.wr = true) (hf : s.inFlight ≠ none) :
    eecon1Write v s = eepromRead { eecon1Taken v s with unlock := .locked } := by
  have notArmed : ¬ Armed (eecon1Taken v s) := fun ⟨_, _, hn⟩ => hf hn
  rw [eecon1Write_of_mod_four (rd := true) (wr := true) h, hs]
  show andThen (eepromRequestWrite (eecon1Taken v s)) eepromRead = _
  rw [eepromRequestWrite_not_armed notArmed, andThen_of_next]

/-- WREN counts as the written value has it (R208, R210). -/
theorem armed_eecon1Taken :
    Armed (eecon1Taken v s) ↔ v.getLsbD 2 = true ∧ s.unlock = .gotAA ∧ s.inFlight = none := by
  have hwren : (eecon1Taken v s).wren = v.getLsbD 2 := by
    rw [eecon1Taken, ← eecon1Bits_eq]
    simp [State.wren, eecon1Bits]
  rw [Armed, hwren]
  exact and_left_comm

/-! ### PCL -/

theorem pclTarget_eq (s : State) (v : Byte) :
    pclTarget s v = BitVec.ofNat 13 (s.pclath.toNat * 256 + v.toNat) := by
  have := s.pclath.isLt
  have hv := v.isLt
  apply BitVec.eq_of_toNat_eq
  rw [pclTarget, BitVec.toNat_append, ← Nat.shiftLeft_add_eq_or_of_lt hv, Nat.shiftLeft_eq,
    BitVec.toNat_ofNat, Nat.mod_eq_of_lt (by omega)]

theorem pclRead_eq (s : State) : pclRead s = pclValue s := by
  apply BitVec.eq_of_toNat_eq
  cases h : s.cfg.pclReadsNext <;> simp [pclRead, pclValue, h]

/-! ### The rows -/

/-- Settles O9: each row is the resolved read and write of the place its address names. -/
theorem resolvedReadAndWrite : Obligations.ResolvedReadAndWrite := by
  intro s v n
  refine ⟨⟨rfl, rfl⟩, ⟨rfl, rfl⟩, ?pcl, ?status, ?fsr, ⟨rfl, rfl⟩, ⟨rfl, rfl⟩, ⟨rfl, rfl⟩, ⟨rfl, rfl⟩,
    ?ignored, ⟨rfl, rfl⟩, ⟨rfl, rfl⟩, ⟨rfl, ?eecon1⟩, ⟨rfl, ?eecon2⟩, ?pclath, ?intcon, ?gpr, ?above⟩
  case pcl =>
    rw [← pclRead_eq, ← pclTarget_eq]
    rintro a (rfl | rfl) <;> exact ⟨rfl, rfl⟩
  case status | fsr | pclath | intcon => rintro a (rfl | rfl) <;> exact ⟨rfl, rfl⟩
  case ignored => rintro a (rfl | rfl | rfl | rfl) <;> exact ⟨rfl, rfl⟩
  case gpr =>
    intro a hlo hhi
    have hl := loc_gpr hlo hhi
    exact ⟨dataRead_gpr hl, dataWrite_gpr hl⟩
  case above =>
    intro a h
    have hl := loc_above_gprLast h
    exact ⟨dataRead_unimplemented hl, dataWrite_unimplemented hl⟩
  case eecon2 =>
    refine (dataWrite_eecon2 rfl).trans ?_
    simp only [Unlock.afterWrite, Bool.and_eq_true, decide_eq_true_eq]
  case eecon1 =>
    intro bits armed
    have hw : dataWrite 0x88 v n s = eecon1Write v s := rfl
    rw [hw]
    refine ⟨eecon1Write_neither, fun h ha => ?_, fun h ha hlow => ?_, fun h hlow hf => ?_,
      fun h hlow hf => ?_, fun h hhigh => ?_, eecon1Write_both_refused, fun h hs hf hlow => ?_,
      fun h hs hf hhigh => ?_⟩
    · have notArmed : ¬ Armed (eecon1Taken v s) := fun e => ha (armed_eecon1Taken.mp e)
      exact (eecon1Write_wr h).trans (eepromRequestWrite_not_armed notArmed)
    · exact (eecon1Write_wr h).trans (eepromRequestWrite_armed (armed_eecon1Taken.mpr ha) hlow)
    · exact (eecon1Write_rd h).trans (eepromRead_idle hlow hf)
    · exact (eecon1Write_rd h).trans (eepromRead_busy hlow hf)
    · rcases h with ⟨h, ha⟩ | h
      · exact (eecon1Write_wr h).trans (eepromRequestWrite_high (armed_eecon1Taken.mpr ha) hhigh)
      · exact (eecon1Write_rd h).trans (eepromRead_high hhigh)
    · exact (eecon1Write_both_busy h hs hf).trans (eepromRead_busy hlow hf)
    · exact (eecon1Write_both_busy h hs hf).trans (eepromRead_high hhigh)

end Sys2Proof.Proofs

/-! The frames: what no instruction changes, who reaches the return stack, and the program under a step. -/

namespace Sys2Proof.Proofs

open Sys2Proof.Machine Sys2Proof.Claims

variable {s t : State}

/-! ### The stack pointer -/

/-- The template of R131 leaves the stack pointer alone. -/
theorem modify_keeps_sp {f : Nat} {d : Dest} {op : Byte → AluResult} {k : Byte → Bool}
    (h : modify f d op k s = .next t) : t.sp = s.sp := by
  cases d with
  | w =>
    rw [modify_w] at h
    cases h
    rw [finish_eq]
    rfl
  | f =>
    obtain ⟨u, hu, rfl⟩ := modify_f_next.mp h
    rw [finish_eq]
    exact (dataWrite_keeps_sp hu :)

theorem overwrite_keeps_sp {f : Nat} {r : AluResult} (h : overwrite f r s = .next t) : t.sp = s.sp := by
  obtain ⟨u, hu, rfl⟩ := overwrite_next.mp h
  rw [finish_eq]
  exact (dataWrite_keeps_sp hu :)

theorem testBit_keeps_sp {f b : Nat} {k : Bool} (h : testBit f b k s = .next t) : t.sp = s.sp := by
  rcases testBit_cases f b k s with ⟨-, e⟩ | ⟨-, e⟩ <;> rw [e] at h <;> cases h <;> rfl

/-- An instruction that moves the stack pointer is CALL or one of the three returns (R17, R18). -/
theorem exec_keeps_sp {i : Instr} (h : exec i s = .next t) (hcall : ∀ k, i ≠ .call k)
    (hreturn : i ≠ .return_) (hretfie : i ≠ .retfie) (hretlw : ∀ k, i ≠ .retlw k) : t.sp = s.sp := by
  cases i with
  | addwf | andwf | comf | decf | decfsz | incf | incfsz | iorwf | movf | rlf | rrf | subwf | swapf
  | xorwf | bcf | bsf =>
    unfold exec at h
    exact modify_keeps_sp h
  | clrf | movwf => exact overwrite_keeps_sp h
  | btfsc | btfss => exact testBit_keeps_sp h
  | clrw | nop | addlw | andlw | iorlw | movlw | sublw | xorlw | goto | clrwdt | option | tris5 | tris6
  | tris7 =>
    cases h
    rfl
  | sleep =>
    change (if s.intPending = true then _ else _) = _ at h
    split at h <;> cases h <;> rfl
  | call k => exact absurd rfl (hcall k)
  | return_ => exact absurd rfl hreturn
  | retfie => exact absurd rfl hretfie
  | retlw k => exact absurd rfl (hretlw k)

/-- Only CALL writes an entry: a return pops without erasing (R18). -/
theorem exec_keeps_stack {i : Instr} (h : exec i s = .next t) (hcall : ∀ k, i ≠ .call k) :
    t.stack = s.stack := by
  cases exec_effect h with
  | file op f x r k u hu =>
    rw [finish_eq]
    exact (dataWrite_keeps_stack hu :)
  | call k => exact absurd rfl (hcall k)
  | cpu | ret | portControl | clrwdt | sleep => rfl

/-- Settles O56: the entries by the effect of an instruction, the pointer by its meaning. -/
theorem stackOnlyByCallAndReturns : Obligations.StackOnlyByCallAndReturns :=
  fun _ _ _ h => ⟨exec_keeps_stack h, exec_keeps_sp h⟩

/-! ### What no instruction changes -/

/-- Settles O57: the resolved write keeps each of these fields, and every other effect names its own. -/
theorem instructionFrame : Obligations.InstructionFrame := by
  intro i s t h
  cases exec_effect h with
  | file op f x r k u hu =>
    rw [finish_eq]
    exact ⟨(dataWrite_keeps_prog hu :), (dataWrite_keeps_cfg hu :), (dataWrite_keeps_eeprom hu :),
      (dataWrite_keeps_envA hu :), (dataWrite_keeps_envB hu :), (dataWrite_keeps_undrivenB hu :),
      (dataWrite_keeps_inputs hu :), (dataWrite_keeps_prevRB0 hu :), (dataWrite_keeps_prevT0cki hu :),
      (dataWrite_keeps_holdOff hu :), fun _ => (dataWrite_keeps_asleep hu :)⟩
  | cpu | call | ret | portControl | clrwdt =>
    exact ⟨rfl, rfl, rfl, rfl, rfl, rfl, rfl, rfl, rfl, rfl, fun _ => rfl⟩
  | sleep => exact ⟨rfl, rfl, rfl, rfl, rfl, rfl, rfl, rfl, rfl, rfl, fun hne => absurd rfl hne⟩

/-! ### The program and the parameters under a step -/

/-- `t` has the program and the parameters of `s` (R8, R79). -/
def SameProgram (s t : State) : Prop := t.prog = s.prog ∧ t.cfg = s.cfg

theorem SameProgram.trans {u : State} (h : SameProgram s t) (h' : SameProgram t u) : SameProgram s u := by
  obtain ⟨hprog, hcfg⟩ := h
  obtain ⟨hprog', hcfg'⟩ := h'
  exact ⟨hprog'.trans hprog, hcfg'.trans hcfg⟩

theorem exec_sameProgram {i : Instr} (h : exec i s = .next t) : SameProgram s t := by
  obtain ⟨hprog, hcfg, -⟩ := instructionFrame i s t h
  exact ⟨hprog, hcfg⟩

theorem timer0After_sameProgram (s t : State) : SameProgram t (timer0After s t) := by
  obtain ⟨x, p, i, q, e⟩ := timer0After_eq s t
  rw [e]
  exact ⟨rfl, rfl⟩

theorem atBoundary_sameProgram (s : State) : SameProgram s (atBoundary s).1 := by
  obtain ⟨q, a, b, c, i, x, p, r, k, e, f, g, d, h⟩ := atBoundary_agents s
  rw [h]
  exact ⟨rfl, rfl⟩

theorem abandonWrite_sameProgram (x : Byte) (s : State) : SameProgram s (abandonWrite x s) := by
  rcases abandonWrite_cases x s with ⟨-, e⟩ | ⟨w, -, e⟩ <;> rw [e] <;> exact ⟨rfl, rfl⟩

/-- A time-out resets or wakes; neither reaches the program (R202). -/
theorem wdtTimeout_sameProgram (d : ResetDraw) (s : State) : SameProgram s (wdtTimeout d s) := by
  unfold wdtTimeout
  split
  · exact ⟨rfl, rfl⟩
  · exact abandonWrite_sameProgram d.eeByte s

theorem cpuStep_sameProgram (h : cpuStep s = .next t) : SameProgram s t := by
  rcases cpuStep_next h with ⟨-, -, rfl⟩ | ⟨-, -, rfl⟩ | ⟨-, -, rfl⟩ | ⟨-, -, u, rfl, hu⟩
  · exact ⟨rfl, rfl⟩
  · exact ⟨rfl, rfl⟩
  · exact timer0After_sameProgram s (interruptEntry s)
  · have run : SameProgram s u := by
      rcases hu with ⟨i, -, hi⟩ | ⟨w, -, -, rfl⟩
      · exact (exec_sameProgram hi :)
      · exact ⟨rfl, rfl⟩
    exact run.trans (timer0After_sameProgram _ u)

/-- Settles O58: the boundary keeps the program, and so does each of the five ways a step goes on. -/
theorem programMemoryIsImmutable : Obligations.ProgramMemoryIsImmutable := by
  intro s t h
  have boundary := atBoundary_sameProgram s
  rcases runStep_next h with ⟨d, -, rfl⟩ | ⟨d, -, rfl⟩ | ⟨d, -, rfl⟩ | ⟨-, hc⟩
  · exact boundary.trans (abandonWrite_sameProgram d.eeByte _)
  · exact boundary.trans (abandonWrite_sameProgram d.eeByte _)
  · exact boundary.trans (wdtTimeout_sameProgram d _)
  · exact boundary.trans (cpuStep_sameProgram hc)

end Sys2Proof.Proofs

/-! The decoder against the encoder (R96 to R98): what the tree of R97 reads from each layout, and the word
of what it answers. -/

namespace Sys2Proof.Proofs

variable {w : InstrWord} {op : Nat}

/-! ### The fields by which the tree of R97 branches -/

/-- A field within bits 13 to `base` is read from their number. -/
theorem field_within {hi lo base : Nat} (hbase : base ≤ lo) (hlo : lo ≤ hi) (hhi : hi ≤ 13) :
    field w hi lo = field w 13 base / 2 ^ (lo - base) % 2 ^ (hi + 1 - lo) := by
  have hsize : (2 : Nat) ^ 14 = 2 ^ base * 2 ^ (14 - base) := by rw [← pow_add]; congr 1; omega
  have hopcode : field w 13 base = w.toNat / 2 ^ base :=
    Nat.mod_eq_of_lt (Nat.div_lt_of_lt_mul (hsize ▸ w.isLt))
  rw [hopcode, field, Nat.div_div_eq_div_mul, ← pow_add, Nat.add_sub_cancel' hbase]

@[simp] theorem byteWord_top (h : op < 64) (f : Nat) (d : Dest) :
    field (byteWord op f d) 13 12 = op / 16 := by
  rw [field_within (base := 8) (by decide) (by decide) (by decide), byteWord_opcode h]
  exact Nat.mod_eq_of_lt (Nat.div_lt_of_lt_mul h)

@[simp] theorem byteWord_select (h : op < 64) (f : Nat) (d : Dest) :
    field (byteWord op f d) 11 8 = op % 16 := by
  rw [field_within (base := 8) (by decide) (by decide) (by decide), byteWord_opcode h]
  exact congrArg (· % 16) (Nat.div_one op)

@[simp] theorem byteWord_bit7 (h : op < 64) (f : Nat) (d : Dest) :
    field (byteWord op f d) 7 7 = destBit d := by
  have := destBit_le d
  rw [field, toNat_byteWord h]
  simp only [Nat.reducePow, Nat.reduceAdd, Nat.reduceSub]
  omega

@[simp] theorem bitWord_top (h : op < 16) (f b : Nat) : field (bitWord op f b) 13 12 = op / 4 := by
  rw [field_within (base := 10) (by decide) (by decide) (by decide), bitWord_opcode h]
  exact Nat.mod_eq_of_lt (Nat.div_lt_of_lt_mul h)

@[simp] theorem bitWord_select (h : op < 16) (f b : Nat) : field (bitWord op f b) 11 10 = op % 4 := by
  rw [field_within (base := 10) (by decide) (by decide) (by decide), bitWord_opcode h]
  exact congrArg (· % 4) (Nat.div_one op)

theorem literalWord_bits_from_8 (h : op < 64) (k : Nat) : field (literalWord op k) 13 8 = op :=
  (literalWord_opcode h (by decide) (by decide) k).trans (Nat.div_one op)

@[simp] theorem literalWord_top (h : op < 64) (k : Nat) : field (literalWord op k) 13 12 = op / 16 := by
  rw [field_within (base := 8) (by decide) (by decide) (by decide), literalWord_bits_from_8 h]
  exact Nat.mod_eq_of_lt (Nat.div_lt_of_lt_mul h)

@[simp] theorem literalWord_select (h : op < 64) (k : Nat) :
    field (literalWord op k) 11 8 = op % 16 := by
  rw [field_within (base := 8) (by decide) (by decide) (by decide), literalWord_bits_from_8 h]
  exact congrArg (· % 16) (Nat.div_one op)

@[simp] theorem targetWord_top (h : op < 8) (k : Nat) : field (targetWord op k) 13 12 = op / 2 := by
  rw [field_within (base := 11) (by decide) (by decide) (by decide), targetWord_opcode h]
  exact Nat.mod_eq_of_lt (Nat.div_lt_of_lt_mul h)

@[simp] theorem targetWord_select (h : op < 8) (k : Nat) :
    field (targetWord op k) 11 11 = op % 2 := by
  rw [field_within (base := 11) (by decide) (by decide) (by decide), targetWord_opcode h]
  exact congrArg (· % 2) (Nat.div_one op)

/-! ### Which part of the tree answers -/

/-- Bits 13:12, the first branching of R97. -/
theorem top_cases (w : InstrWord) :
    field w 13 12 = 0 ∨ field w 13 12 = 1 ∨ field w 13 12 = 2 ∨ field w 13 12 = 3 := by
  have : field w 13 12 < 4 := Nat.mod_lt _ (by decide)
  omega

theorem decode_byte (h : field w 13 12 = 0) : decode w = decodeByte w := by simp [decode, h]

theorem decode_bit (h : field w 13 12 = 1) : decode w = decodeBit w := by simp [decode, h]

theorem decode_target (h : field w 13 12 = 2) :
    decode w = if field w 11 11 = 0 then .ok (.call (fieldK11 w)) else .ok (.goto (fieldK11 w)) := by
  simp [decode, h]

theorem decode_literal (h : field w 13 12 = 3) : decode w = decodeLiteral w := by simp [decode, h]

theorem decode_byteWord (h : op < 16) (f : Nat) (d : Dest) :
    decode (byteWord op f d) = decodeByte (byteWord op f d) :=
  decode_byte ((byteWord_top (by omega) f d).trans (Nat.div_eq_of_lt h))

theorem decode_bitWord (h : op / 4 = 1) (f b : Nat) : decode (bitWord op f b) = decodeBit (bitWord op f b) :=
  decode_bit ((bitWord_top (by omega) f b).trans h)

theorem decode_targetWord (h : op / 2 = 2) (k : Nat) : decode (targetWord op k) =
    if op % 2 = 0 then .ok (.call (k % 2048)) else .ok (.goto (k % 2048)) := by
  rw [decode_target ((targetWord_top (by omega) k).trans h), targetWord_select (by omega),
    targetWord_operand (by omega)]

theorem decode_literalWord (h : op / 16 = 3) (k : Nat) :
    decode (literalWord op k) = decodeLiteral (literalWord op k) :=
  decode_literal ((literalWord_top (by omega) k).trans h)

/-! ### Operands in range fit their fields (R95) -/

theorem mod_of_fileOk {f : Nat} (h : fileOk f = true) : f % 128 = f :=
  Nat.mod_eq_of_lt (Nat.lt_succ_of_le (of_decide_eq_true h))

theorem mod_of_bitOk {b : Nat} (h : bitOk b = true) : b % 8 = b :=
  Nat.mod_eq_of_lt (Nat.lt_succ_of_le (of_decide_eq_true h))

theorem mod_of_literalOk {k : Nat} (h : literalOk k = true) : k % 256 = k :=
  Nat.mod_eq_of_lt (Nat.lt_succ_of_le (of_decide_eq_true h))

theorem mod_of_targetOk {k : Nat} (h : targetOk k = true) : k % 2048 = k :=
  Nat.mod_eq_of_lt (Nat.lt_succ_of_le (of_decide_eq_true h))

/-! ### Decoding what the encoder writes -/

/-- Settles O1: each layout's word carries its opcode to the branch of the tree, and its operands, in range,
to the fields. -/
theorem decodeInvertsEncode : Obligations.DecodeInvertsEncode := by
  intro i hi
  cases i with
  | addwf f d | andwf f d | comf f d | decf f d | decfsz f d | incf f d | incfsz f d | iorwf f d | movf f d
  | rlf f d | rrf f d | subwf f d | swapf f d | xorwf f d =>
    simp [encode, decode_byteWord, decodeByte, byteWord_operands, mod_of_fileOk hi]
  | clrf f | movwf f =>
    simp [encode, decode_byteWord, decodeByte, byteWord_operands, destBit, mod_of_fileOk hi]
  | bcf f b | bsf f b | btfsc f b | btfss f b =>
    obtain ⟨hf, hb⟩ := Bool.and_eq_true_iff.mp hi
    simp [encode, decode_bitWord, decodeBit, bitWord_operands, mod_of_fileOk hf, mod_of_bitOk hb]
  | addlw k | andlw k | iorlw k | movlw k | retlw k | sublw k | xorlw k =>
    simp [encode, decode_literalWord, decodeLiteral, literalWord_operand, mod_of_literalOk hi]
  | call k | goto k =>
    simp [encode, decode_targetWord, mod_of_targetOk hi]
  | clrw | nop | clrwdt | retfie | return_ | sleep | option | tris5 | tris6 | tris7 => rfl

/-- Settles O5: each word is the encoding of its instruction, which decoding inverts. -/
theorem exampleWordsDecode : Obligations.ExampleWordsDecode := by
  have row {w : InstrWord} {i : Instr} (hi : i.WellFormed) (hw : encode i = w) :
      decode w = .ok i ∧ encode i = w := ⟨hw ▸ decodeInvertsEncode i hi, hw⟩
  exact ⟨row rfl rfl, row rfl rfl, row rfl rfl, row rfl rfl, row rfl rfl, row rfl rfl⟩

/-! ### Every value of the x bits (R98) -/

theorem decode_clrw {x : Nat} (h : x < 128) : decode (BitVec.ofNat 14 (0x0100 + x)) = .ok .clrw := by
  have hx : BitVec.ofNat 14 (0x0100 + x) = byteWord 1 x .w := by
    rw [byteWord, Nat.mod_eq_of_lt h]
    rfl
  rw [hx, decode_byteWord (by decide)]
  simp [decodeByte, destBit]

/-- The opcodes 11 00xx of MOVLW. -/
theorem decode_movlw {x : Nat} (h : x < 4) (k : Nat) :
    decode (literalWord (0x30 + x) k) = .ok (.movlw (k % 256)) := by
  rw [decode_literalWord (by omega), decodeLiteral, literalWord_operand (by omega)]
  interval_cases x <;> simp

/-- The opcodes 11 01xx of RETLW. -/
theorem decode_retlw {x : Nat} (h : x < 4) (k : Nat) :
    decode (literalWord (0x34 + x) k) = .ok (.retlw (k % 256)) := by
  rw [decode_literalWord (by omega), decodeLiteral, literalWord_operand (by omega)]
  interval_cases x <;> simp

/-- The opcodes 11 110x of SUBLW. -/
theorem decode_sublw {x : Nat} (h : x < 2) (k : Nat) :
    decode (literalWord (0x3C + x) k) = .ok (.sublw (k % 256)) := by
  rw [decode_literalWord (by omega), decodeLiteral, literalWord_operand (by omega)]
  interval_cases x <;> simp

/-- The opcodes 11 111x of ADDLW. -/
theorem decode_addlw {x : Nat} (h : x < 2) (k : Nat) :
    decode (literalWord (0x3E + x) k) = .ok (.addlw (k % 256)) := by
  rw [decode_literalWord (by omega), decodeLiteral, literalWord_operand (by omega)]
  interval_cases x <;> simp

/-- The literal layout as R98 writes it out: the opcode `base`, x bits, and k in range. -/
theorem literalWord_written {k : Nat} (hk : k ≤ 255) (base x : Nat) :
    BitVec.ofNat 14 (base * 256 + x * 256 + k) = literalWord (base + x) k := by
  rw [literalWord, Nat.mod_eq_of_lt (by omega), Nat.add_mul]

/-- Settles O3: CLRW's x bits are the byte layout's f, the literals' are opcode bits, and NOP has four words. -/
theorem dontCareBitsSelectTheSameInstruction : Obligations.DontCareBitsSelectTheSameInstruction := by
  refine ⟨fun x hx => decode_clrw hx, rfl, fun x hx => ?_, rfl, fun k hk => ?_⟩
  · interval_cases x <;> rfl
  · have hmod : k % 256 = k := mod_of_literalOk (decide_eq_true hk)
    have assembled (base : Nat) : literalWord base k = BitVec.ofNat 14 (base * 256 + k) := by
      rw [literalWord, hmod]
    refine ⟨fun x hx => ?_, assembled 0x30, fun x hx => ?_, assembled 0x34, fun x hx => ?_, assembled 0x3C,
      fun x hx => ?_, assembled 0x3E⟩
    · rw [literalWord_written hk 0x30 x, decode_movlw hx, hmod]
    · rw [literalWord_written hk 0x34 x, decode_retlw hx, hmod]
    · rw [literalWord_written hk 0x3C x, decode_sublw hx, hmod]
    · rw [literalWord_written hk 0x3E x, decode_addlw hx, hmod]

end Sys2Proof.Proofs

/-! From a word back to the encoder (R96, R98): each layout is put together again from its fields, and the
don't-care bits are what the assembled word lacks. -/

namespace Sys2Proof.Proofs

open Sys2Proof.Claims

variable {w : InstrWord} {i : Instr} {op n : Nat}

/-! ### The operands read from a word are in range (R95) -/

theorem fileOk_fieldF (w : InstrWord) : fileOk (fieldF w) = true :=
  decide_eq_true (Nat.le_of_lt_succ (Nat.mod_lt _ (by decide)))

theorem bitOk_fieldB (w : InstrWord) : bitOk (fieldB w) = true :=
  decide_eq_true (Nat.le_of_lt_succ (Nat.mod_lt _ (by decide)))

theorem literalOk_fieldK8 (w : InstrWord) : literalOk (fieldK8 w) = true :=
  decide_eq_true (Nat.le_of_lt_succ (Nat.mod_lt _ (by decide)))

theorem targetOk_fieldK11 (w : InstrWord) : targetOk (fieldK11 w) = true :=
  decide_eq_true (Nat.le_of_lt_succ (Nat.mod_lt _ (by decide)))

theorem destBit_fieldD (w : InstrWord) : destBit (fieldD w) = field w 7 7 := by
  have : field w 7 7 < 2 := Nat.mod_lt _ (by decide)
  unfold fieldD
  split <;> simp only [destBit] <;> omega

/-! ### A word is its layout's fields put together -/

theorem byteWord_of_fields (htop : field w 13 12 = 0) (h : field w 11 8 = op) :
    byteWord op (fieldF w) (fieldD w) = w := by
  apply BitVec.eq_of_toNat_eq
  have : op < 16 := h ▸ Nat.mod_lt _ (by decide)
  rw [toNat_byteWord (by omega), destBit_fieldD]
  simp only [fieldF, field, Nat.reducePow, Nat.reduceAdd, Nat.reduceSub] at *
  omega

/-- The forms whose d bit is fixed at 1 (R91). -/
theorem byteWord_file_of_fields (htop : field w 13 12 = 0) (h : field w 11 8 = op)
    (hd : field w 7 7 = 1) : byteWord op (fieldF w) .f = w := by
  have hdest : fieldD w = .f := if_neg (by omega)
  exact hdest ▸ byteWord_of_fields htop h

theorem bitWord_of_fields (htop : field w 13 12 = 1) (h : field w 11 10 = n) (hop : op = 4 + n) :
    bitWord op (fieldF w) (fieldB w) = w := by
  apply BitVec.eq_of_toNat_eq
  have : n < 4 := h ▸ Nat.mod_lt _ (by decide)
  rw [toNat_bitWord (by omega)]
  simp only [fieldF, fieldB, field, Nat.reducePow, Nat.reduceAdd, Nat.reduceSub] at *
  omega

theorem targetWord_of_fields (htop : field w 13 12 = 2) (h : field w 11 11 = n) (hop : op = 4 + n) :
    targetWord op (fieldK11 w) = w := by
  apply BitVec.eq_of_toNat_eq
  have : n < 2 := h ▸ Nat.mod_lt _ (by decide)
  rw [toNat_targetWord (by omega)]
  simp only [fieldK11, field, Nat.reducePow, Nat.reduceAdd, Nat.reduceSub] at *
  omega

theorem literalWord_of_fields (htop : field w 13 12 = 3) (h : field w 11 8 = n) (hop : op = 48 + n) :
    literalWord op (fieldK8 w) = w := by
  apply BitVec.eq_of_toNat_eq
  have : n < 16 := h ▸ Nat.mod_lt _ (by decide)
  rw [toNat_literalWord (by omega)]
  simp only [fieldK8, field, Nat.reducePow, Nat.reduceAdd, Nat.reduceSub] at *
  omega

/-- A control word is 0000h to 007Fh (R97). -/
theorem control_of_fields (htop : field w 13 12 = 0) (h : field w 11 8 = 0) (hd : field w 7 7 ≠ 1)
    (hn : field w 6 0 = n) : w = BitVec.ofNat 14 n := by
  apply BitVec.eq_of_toNat_eq
  rw [BitVec.toNat_ofNat]
  simp only [field, Nat.reducePow, Nat.reduceAdd, Nat.reduceSub] at *
  omega

/-! ### Clearing don't-care bits (R98) -/

theorem literalWord_eq_append (op k : Nat) : literalWord op k = BitVec.ofNat 6 op ++ BitVec.ofNat 8 k := by
  apply BitVec.eq_of_toNat_eq
  rw [BitVec.toNat_append, BitVec.toNat_ofNat, BitVec.toNat_ofNat,
    ← Nat.shiftLeft_add_eq_or_of_lt (Nat.mod_lt _ (by decide)), Nat.shiftLeft_eq, literalWord,
    BitVec.toNat_ofNat]
  omega

/-- The x bits of the literal layout are opcode bits: the mask `m` clears them there and leaves k. -/
theorem literalWord_clear {op' m : Nat} (h : BitVec.ofNat 6 op &&& ~~~BitVec.ofNat 6 m = BitVec.ofNat 6 op')
    (k : Nat) : literalWord op k &&& ~~~literalWord m 0 = literalWord op' k := by
  have hparts := BitVec.and_append (x₁ := BitVec.ofNat 6 op) (x₂ := ~~~BitVec.ofNat 6 m)
    (y₁ := BitVec.ofNat 8 k) (y₂ := ~~~0#8)
  rw [← BitVec.not_append, h, BitVec.not_zero, BitVec.and_allOnes] at hparts
  simpa only [literalWord_eq_append] using hparts

/-- Clearing bits 6 to 0 leaves the bits from 7 up. -/
theorem clear_low7 {hi : Nat} (h : field w 13 7 = hi) : w &&& ~~~0x007F#14 = BitVec.ofNat 14 (hi * 128) := by
  have hmask : ~~~0x007F#14 = BitVec.allOnes 14 <<< 7 := by decide
  apply BitVec.eq_of_toNat_eq
  rw [hmask, ← BitVec.shiftLeft_ushiftRight, BitVec.toNat_shiftLeft, BitVec.toNat_ushiftRight,
    Nat.shiftLeft_eq, Nat.shiftRight_eq_div_pow, BitVec.toNat_ofNat]
  simp only [field, Nat.reducePow, Nat.reduceAdd, Nat.reduceSub] at *
  omega

/-! ### What each part of the tree answers with -/

/-- `w` is a word of the well-formed `i`: `i`'s encoding, whatever the don't-care bits. -/
def IsWordOf (w : InstrWord) (i : Instr) : Prop := i.WellFormed ∧ encode i = w &&& ~~~dontCareBits i

/-- Where the pattern has no don't-care bit, the word is the encoding itself. -/
theorem isWordOf_of_eq (hi : i.WellFormed) (hx : dontCareBits i = 0) (h : encode i = w) : IsWordOf w i :=
  ⟨hi, by rw [h, hx, BitVec.ofNat_eq_ofNat, BitVec.not_zero, BitVec.and_allOnes]⟩

theorem decodeControl_isWordOf (htop : field w 13 12 = 0) (hsel : field w 11 8 = 0) (hd : field w 7 7 ≠ 1)
    (h : decodeControl w = .ok i) : IsWordOf w i := by
  unfold decodeControl at h
  split at h
  case h_13 => cases h
  all_goals
    rename_i hn
    cases h
    rw [control_of_fields htop hsel hd hn]
    exact ⟨rfl, rfl⟩

theorem decodeByte_isWordOf (htop : field w 13 12 = 0) (h : decodeByte w = .ok i) : IsWordOf w i := by
  unfold decodeByte at h
  simp only at h
  split at h
  case h_1 hsel =>
    split at h
    · next hd =>
      cases h
      exact isWordOf_of_eq (fileOk_fieldF w) rfl (byteWord_file_of_fields htop hsel hd)
    · next hd => exact decodeControl_isWordOf htop hsel hd h
  case h_2 hsel =>
    split at h <;> rename_i hd <;> cases h
    · exact isWordOf_of_eq (fileOk_fieldF w) rfl (byteWord_file_of_fields htop hsel hd)
    · have h7 : field w 13 7 = 2 := by
        simp only [field, Nat.reducePow, Nat.reduceAdd, Nat.reduceSub] at *
        omega
      exact ⟨rfl, (clear_low7 h7).symm⟩
  case h_17 => cases h
  all_goals
    rename_i hsel
    cases h
    exact isWordOf_of_eq (fileOk_fieldF w) rfl (byteWord_of_fields htop hsel)

theorem decodeBit_isWordOf (htop : field w 13 12 = 1) (h : decodeBit w = .ok i) : IsWordOf w i := by
  unfold decodeBit at h
  simp only at h
  split at h
  case h_5 => cases h
  all_goals
    rename_i hsel
    cases h
    exact isWordOf_of_eq (Bool.and_eq_true_iff.mpr ⟨fileOk_fieldF w, bitOk_fieldB w⟩) rfl
      (bitWord_of_fields htop hsel rfl)

theorem decodeTarget_isWordOf (htop : field w 13 12 = 2) (h : decode w = .ok i) : IsWordOf w i := by
  rw [decode_target htop] at h
  split at h <;> rename_i hsel <;> cases h
  · exact isWordOf_of_eq (targetOk_fieldK11 w) rfl (targetWord_of_fields htop hsel rfl)
  · have : field w 11 11 < 2 := Nat.mod_lt _ (by decide)
    exact isWordOf_of_eq (targetOk_fieldK11 w) rfl (targetWord_of_fields (n := 1) htop (by omega) rfl)

/-- The literal forms, with `m` for the x bits among their opcode bits (R93, R98). -/
theorem literal_isWordOf (m : Nat) (htop : field w 13 12 = 3) (hsel : field w 11 8 = n)
    (hi : i.WellFormed) (hx : dontCareBits i = literalWord m 0) (he : encode i = literalWord op (fieldK8 w))
    (hop : BitVec.ofNat 6 (48 + n) &&& ~~~BitVec.ofNat 6 m = BitVec.ofNat 6 op) : IsWordOf w i := by
  have hw := literalWord_clear hop (fieldK8 w)
  rw [literalWord_of_fields htop hsel rfl, ← hx, ← he] at hw
  exact ⟨hi, hw.symm⟩

theorem decodeLiteral_isWordOf (htop : field w 13 12 = 3) (h : decodeLiteral w = .ok i) : IsWordOf w i := by
  have hk := literalOk_fieldK8 w
  unfold decodeLiteral at h
  simp only at h
  split at h
  case h_1 hsel | h_2 hsel | h_3 hsel | h_4 hsel | h_5 hsel | h_6 hsel | h_7 hsel | h_8 hsel =>
    cases h
    exact literal_isWordOf 3 htop hsel hk rfl rfl (by decide)
  case h_9 hsel | h_10 hsel | h_11 hsel =>
    cases h
    exact isWordOf_of_eq hk rfl (literalWord_of_fields htop hsel rfl)
  case h_12 hsel | h_13 hsel | h_14 hsel | h_15 hsel =>
    cases h
    exact literal_isWordOf 1 htop hsel hk rfl rfl (by decide)
  case h_16 => cases h

/-- Settles O2: each part of the tree answers with the instruction whose word it was given. -/
theorem decodedWordIsEncodingUpToDontCares : Obligations.DecodedWordIsEncodingUpToDontCares := by
  intro w i h
  rcases top_cases w with h0 | h1 | h2 | h3
  · exact decodeByte_isWordOf h0 (decode_byte h0 ▸ h)
  · exact decodeBit_isWordOf h1 (decode_bit h1 ▸ h)
  · exact decodeTarget_isWordOf h2 h
  · exact decodeLiteral_isWordOf h3 (decode_literal h3 ▸ h)

end Sys2Proof.Proofs

/-! The words without an instruction (R99): the decoder's rejections, and a step at one of them. -/

namespace Sys2Proof.Proofs

open Sys2Proof.Machine Sys2Proof.Claims

/-! ### What each part of the tree rejects -/

section
variable {w : InstrWord} {e : DecodeError}

theorem unassignedRange_iff {n : Nat} : unassignedRange n = true ↔
    (0x0001 ≤ n ∧ n ≤ 0x0007) ∨ (0x000A ≤ n ∧ n ≤ 0x001F) ∨ (0x0021 ≤ n ∧ n ≤ 0x003F) ∨
    (0x0041 ≤ n ∧ n ≤ 0x005F) ∨ n = 0x0061 ∨ (0x0068 ≤ n ∧ n ≤ 0x007F) ∨ (0x3B00 ≤ n ∧ n ≤ 0x3BFF) := by
  simp only [unassignedRange, Bool.or_eq_true, Bool.and_eq_true, decide_eq_true_eq, beq_iff_eq, or_assoc]

/-- The first six ranges of R99 are the control words that are not listed exactly. -/
theorem decodeControl_error_iff :
    decodeControl w = .error e ↔ unassignedRange (field w 6 0) = true ∧ e = .unassigned w := by
  have hlt : field w 6 0 < 128 := Nat.mod_lt _ (by decide)
  unfold decodeControl
  split
  case h_13 =>
    simp only [imp_false] at *
    have hr : unassignedRange (field w 6 0) = true := unassignedRange_iff.mpr (by omega)
    simp [hr, eq_comm]
  all_goals
    rename_i hn
    rw [hn]
    simp [unassignedRange]

theorem decodeByte_error_iff : decodeByte w = .error e ↔
    (field w 11 8 = 0 ∧ field w 7 7 ≠ 1) ∧ decodeControl w = .error e := by
  have hlt : field w 11 8 < 16 := Nat.mod_lt _ (by decide)
  unfold decodeByte
  simp only
  split
  case h_17 =>
    simp only [imp_false] at *
    omega
  case h_1 hsel | h_2 hsel => split <;> rename_i hd <;> simp [hsel, hd]
  all_goals
    rename_i hsel
    simp [hsel]

theorem decodeBit_ne_error : decodeBit w ≠ .error e := by
  have hlt : field w 11 10 < 4 := Nat.mod_lt _ (by decide)
  unfold decodeBit
  simp only
  split
  case h_5 =>
    simp only [imp_false] at *
    omega
  all_goals exact nofun

/-- 11 1011 is the one literal opcode without an instruction. -/
theorem decodeLiteral_error_iff : decodeLiteral w = .error e ↔ field w 11 8 = 0xB ∧ e = .unassigned w := by
  have hlt : field w 11 8 < 16 := Nat.mod_lt _ (by decide)
  unfold decodeLiteral
  simp only
  split
  case h_16 =>
    simp only [imp_false] at *
    have hsel : field w 11 8 = 0xB := by omega
    simp [hsel, eq_comm]
  all_goals
    rename_i hsel
    simp [hsel]

/-- The tree rejects the words of R99, each by its name, and no other. -/
theorem decode_error_iff : decode w = .error e ↔ unassignedRange w.toNat = true ∧ e = .unassigned w := by
  rcases top_cases w with h0 | h1 | h2 | h3
  · rw [decode_byte h0, decodeByte_error_iff, decodeControl_error_iff, ← and_assoc]
    refine and_congr_left fun _ => ?_
    rw [unassignedRange_iff, unassignedRange_iff]
    simp only [field, Nat.reducePow, Nat.reduceAdd, Nat.reduceSub] at *
    omega
  · rw [decode_bit h1]
    refine iff_of_false decodeBit_ne_error fun ⟨h, _⟩ => ?_
    rw [unassignedRange_iff] at h
    simp only [field, Nat.reducePow, Nat.reduceAdd, Nat.reduceSub] at *
    omega
  · rw [decode_target h2]
    refine iff_of_false (by split <;> exact nofun) fun ⟨h, _⟩ => ?_
    rw [unassignedRange_iff] at h
    simp only [field, Nat.reducePow, Nat.reduceAdd, Nat.reduceSub] at *
    omega
  · rw [decode_literal h3, decodeLiteral_error_iff]
    refine and_congr_left fun _ => ?_
    rw [unassignedRange_iff]
    simp only [field, Nat.reducePow, Nat.reduceAdd, Nat.reduceSub] at *
    omega

end

/-- Settles O4: both clauses are the tree's rejections. -/
theorem unassignedWordsAreExactlyTheListedOnes : Obligations.UnassignedWordsAreExactlyTheListedOnes :=
  ⟨fun _ => decode_error_iff.trans (and_iff_left rfl), fun _ _ h => (decode_error_iff.mp h).2, rfl⟩

/-! ### A step at such a word -/

variable {s u : State}

theorem step_of_boundary (h : atBoundary s = (u, none)) : step s = cpuStep u := by
  rw [step, runStep, h]

theorem cpuStep_running (ha : u.asleep = false) (hd : u.intDue = false) :
    cpuStep u = runInstr { u with holdOff := false } := by
  simp [cpuStep, ha, hd]

theorem runInstr_unassigned {w : InstrWord} (h : decode (fetch s) = .error (.unassigned w)) :
    runInstr s = andThen (runUnassigned w s) fun t => .next (timer0After s t) := by
  rw [runInstr, h]

/-- Settles O38: the boundary hands over to the CPU, whose fetch is the rejected word. -/
theorem unassignedWordStep : Obligations.UnassignedWordStep := by
  intro s u hb ha hd hw
  have hdecode : decode (fetch { u with holdOff := false }) = .error (.unassigned (fetch u)) :=
    decode_error_iff.mpr ⟨hw, rfl⟩
  have hstep := (step_of_boundary hb).trans ((cpuStep_running ha hd).trans (runInstr_unassigned hdecode))
  constructor <;> intro hcfg <;> rw [hstep, runUnassigned, hcfg] <;> rfl

end Sys2Proof.Proofs

/-! The byte-oriented instructions: at every place as the resolved write and the flags, on a GPR and on PCL
in full; CLRW and NOP; and the flags of addition and subtraction. -/

namespace Sys2Proof.Proofs

open Sys2Proof.Machine Sys2Proof.Claims

variable {s t : State} {a : DataAddr} {v : Byte} {op : FileOp} {f : Nat} {i : Instr}

/-! ### The forms that write f -/

/-- What follows a result matters only where the result goes on. -/
theorem andThen_congr {r : Result} {k k' : State → Result} (h : ∀ u, r = .next u → k u = k' u) :
    andThen r k = andThen r k' := by
  cases r with
  | next u => exact h u rfl
  | fault | refused => rfl

@[simp] theorem afterReading_loc (op : FileOp) (s : State) (a b : DataAddr) :
    (afterReading op s a).loc b = s.loc b := by
  obtain ⟨x, hx⟩ := afterReading_eq op s a
  rw [hx]
  rfl

@[simp] theorem afterReading_status (op : FileOp) (s : State) (a : DataAddr) :
    (afterReading op s a).status = s.status := by
  obtain ⟨x, hx⟩ := afterReading_eq op s a
  rw [hx]

/-- The template of R131 with the result of the pseudocode in it. -/
theorem exec_toFile_value (op : FileOp) (f : Nat) (s : State) :
    exec (op.toFile f) s =
      andThen (dataWrite (ea s f) (op.value s (dataRead s (ea s f))) op.affectsNone
          (afterReading op s (ea s f)))
        fun u => .next (finish (ea s f) .f (fileSkip op (op.value s (dataRead s (ea s f))))
          (applyFlags (fileAlu op s (dataRead s (ea s f))).flags u)) := by
  rw [exec_toFile, storeAndFinish_f, fileAlu_value, fileAlu_affectsNone]

/-- The flag logic after a write that left STATUS alone (R24). -/
theorem applyFlags_fileAlu (op : FileOp) (v : Byte) (h : t.status = s.status) :
    applyFlags (fileAlu op s v).flags t = { t with status := op.statusAfter s v } := by
  rw [applyFlags, h, fileAlu_status]

/-- Settles O11: the form that writes W never ends at PCL. -/
theorem fileOpIntoW : Obligations.FileOpIntoW := fun _ _ _ s hi => exec_toW_next hi s

/-- Settles O13: away from STATUS the write leaves the flag logic its input, away from PCL the end is
to move on. -/
theorem fileOpIntoAnyRegister : Obligations.FileOpIntoAnyRegister := by
  intro op f s hstatus hpcl a v
  rw [exec_toFile_value]
  refine andThen_congr fun u hu => ?_
  have hloc : u.loc a = s.loc a := (dataWrite_keeps_loc hu a).trans (afterReading_loc op s a a)
  have hu_status : u.status = s.status :=
    (dataWrite_keeps_status hu (by rwa [afterReading_loc])).trans (afterReading_status op s a)
  rw [applyFlags_fileAlu op v hu_status, finish_fileSkip op s]
  rintro ⟨-, hp⟩
  exact hpcl (hloc.symm.trans hp)

/-- A write of one byte of a canonical memory changes that byte alone. -/
theorem onlyCell_write {m : Memory 8} (hm : Memory.wf m = true) (o : Nat) (v : Byte) :
    OnlyCell m (Memory.write m o v) o v :=
  ⟨Memory.read_write_same hm o v, fun _ hx => Memory.read_write_other hm (Ne.symm hx) v⟩

/-- Settles O12: the rule for any register, at a place whose write is a write of one byte of RAM. -/
theorem fileOpIntoGpr : Obligations.FileOpIntoGpr := by
  intro op f o s hm hl v
  refine ⟨_, onlyCell_write hm o (op.value s v), ?_⟩
  have hr : afterReading op s (ea s f) = s := afterReading_of_ne_portb (by simp [hl])
  rw [fileOpIntoAnyRegister op f s (by simp [hl]) (by simp [hl]), dataRead_gpr hl, hr, dataWrite_gpr hl,
    andThen_of_next]

/-! ### PCL as the destination -/

/-- A write of PCL ends the instruction, skip or no skip (R132, D17). -/
theorem finish_pcl (hl : s.loc a = .pcl) (k : Bool) : finish a .f k s = spend 2 s := by
  rw [finish, if_pos ⟨rfl, hl⟩]

/-- Settles O15: the write loads the PC, the end spends two cycles; with d = 0 the end is that of O11. -/
theorem pclAsDestination : Obligations.PclAsDestination := by
  intro op f s hl v
  have hv : dataRead s (ea s f) = v := (dataRead_pcl hl).trans (pclRead_eq s)
  have hnb : s.loc (ea s f) ≠ .portb := by simp [hl]
  constructor
  · rw [exec_toFile_value, hv, afterReading_of_ne_portb hnb, dataWrite_pcl hl, andThen_of_next,
      finish_pcl, applyFlags_fileAlu (s := s) op v (by rfl), pclTarget_eq]
    · rfl
    · exact hl
  · intro i hi
    rw [exec_toW_next hi, hv, lastRBAfterRead, if_neg hnb]

/-! ### The instructions on W alone -/

/-- An instruction on W with the arithmetic of one that names f. -/
theorem intoW_fileAlu (op : FileOp) (s : State) (v : Byte) :
    intoW (fileAlu op s v) s =
      .next (onBy 1 { s with w := op.value s v, status := op.statusAfter s v }) := by
  rw [intoW, applyFlags_fileAlu (s := s) op v (by rfl), fileAlu_value]
  rfl

/-- Settles O20: CLRW has the arithmetic of CLRF. -/
theorem clearWAndNop : Obligations.ClearWAndNop := fun s => ⟨intoW_fileAlu .clrf s 0, rfl⟩

/-! ### The flags and W after an instruction -/

/-- The flags of `t` are those `op` makes of the value `v`, those it does not affect being those of some
earlier STATUS: s's own, or a written one (R23). -/
def FlagsFrom (op : FileOp) (s : State) (v : Byte) (t : State) : Prop :=
  ∃ old : Byte, t.status = (fileAlu op s v).flags.onStatus old

/-- The three flags of R22, in the arithmetic of the pseudocode. -/
theorem FlagsFrom.bits (h : FlagsFrom op s v t) : ∃ old : Byte,
    t.carry = op.carryAfter s.w.toNat v.toNat (old.getLsbD 0) ∧
    digitCarry t = op.digitCarryAfter s.w.toNat v.toNat (old.getLsbD 1) ∧
    zero t = op.zeroAfter (op.result s.w.toNat v.toNat s.carry) (old.getLsbD 2) := by
  obtain ⟨old, ht⟩ := h
  refine ⟨old, ?_, ?_, ?_⟩
  · rw [State.carry, ht, getLsbD_onStatus, ← fileAlu_carry op s]
    rfl
  · rw [digitCarry, ht, getLsbD_onStatus, ← fileAlu_digitCarry op s]
    rfl
  · rw [zero, ht, getLsbD_onStatus, ← fileAlu_zero op s]
    rfl

/-- The flag logic comes last in a form that writes f, whatever place it writes (R131 step 5). -/
theorem exec_toFile_flags (h : exec (op.toFile f) s = .next t) :
    FlagsFrom op s (dataRead s (ea s f)) t := by
  rw [exec_toFile_value] at h
  obtain ⟨u, -, ht⟩ := andThen_next.mp h
  cases ht
  exact ⟨u.status, finish_status _ _ _ _⟩

/-- The result byte is the pseudocode's number. -/
theorem toNat_value (op : FileOp) (s : State) (v : Byte) :
    (op.value s v).toNat = op.result s.w.toNat v.toNat s.carry :=
  Nat.mod_eq_of_lt (result_lt op s.w.isLt v.isLt s.carry)

theorem exec_toW_flags (hi : op.toW f = some i) (h : exec i s = .next t) :
    FlagsFrom op s (dataRead s (ea s f)) t := by
  rw [exec_toW_next hi] at h
  cases h
  exact ⟨s.status, (fileAlu_status op s _).symm⟩

theorem exec_toW_w (hi : op.toW f = some i) (h : exec i s = .next t) :
    t.w.toNat = op.result s.w.toNat (dataRead s (ea s f)).toNat s.carry := by
  rw [exec_toW_next hi] at h
  cases h
  exact toNat_value op s _

/-- An instruction on W with the arithmetic of `op`: its end, its flags and W. -/
theorem intoW_fileAlu_next (op : FileOp) (s : State) (v : Byte) : ∃ t,
    intoW (fileAlu op s v) s = .next t ∧ FlagsFrom op s v t ∧
    t.w.toNat = op.result s.w.toNat v.toNat s.carry :=
  ⟨_, intoW_fileAlu op s v, ⟨s.status, (fileAlu_status op s v).symm⟩, toNat_value op s v⟩

/-- A literal in range is the number itself (R150). -/
theorem toNat_lit8 {k : Nat} (hk : k ≤ 255) : (lit8 k).toNat = k := Nat.mod_eq_of_lt (by omega)

/-! ### Addition and subtraction -/

/-- R110 in unbounded arithmetic. -/
theorem FlagsFrom.addition (h : FlagsFrom .addwf s v t) :
    t.carry = decide (s.w.toNat + v.toNat > 255) ∧
    digitCarry t = decide (s.w.toNat % 16 + v.toNat % 16 > 15) ∧
    zero t = decide ((s.w.toNat + v.toNat) % 256 = 0) := by
  obtain ⟨_, hc, hdc, hz⟩ := h.bits
  exact ⟨hc, hdc, hz⟩

/-- Settles O16: ADDLW has the arithmetic of ADDWF. -/
theorem additionFlags : Obligations.AdditionFlags := by
  refine ⟨fun f d s t h => ?_, fun k s hk => ?_⟩
  · cases d with
    | w => exact ⟨fun _ => exec_toW_w (op := .addwf) rfl h, (exec_toW_flags (op := .addwf) rfl h).addition⟩
    | f => exact ⟨nofun, (exec_toFile_flags (op := .addwf) h).addition⟩
  · obtain ⟨t, ht, hflags, hw⟩ := intoW_fileAlu_next .addwf s (lit8 k)
    have flags := hflags.addition
    rw [toNat_lit8 hk] at hw flags
    exact ⟨t, ht, hw, flags⟩

/-- The difference of R111 in the pseudocode's form and as the addition of the two's complement. -/
theorem result_subwf (v : Nat) {w : Nat} (hw : w < 256) (c : Bool) :
    FileOp.subwf.result w v c = (v + (255 - w) + 1) % 256 := by
  have : v + 256 - w = v + (255 - w) + 1 := by omega
  exact congrArg (· % 256) this

/-- R111 in unbounded arithmetic: C and DC as carries out of the sum, and as comparisons. -/
theorem FlagsFrom.subtraction (h : FlagsFrom .subwf s v t) :
    t.carry = decide (v.toNat + (255 - s.w.toNat) + 1 > 255) ∧ t.carry = decide (s.w.toNat ≤ v.toNat) ∧
    digitCarry t = decide (v.toNat % 16 + (15 - s.w.toNat % 16) + 1 > 15) ∧
    digitCarry t = decide (s.w.toNat % 16 ≤ v.toNat % 16) ∧
    zero t = decide ((v.toNat + (255 - s.w.toNat) + 1) % 256 = 0) := by
  obtain ⟨_, hc, hdc, hz⟩ := h.bits
  have hw := s.w.isLt
  rw [result_subwf _ hw] at hz
  refine ⟨hc.trans ?_, hc, hdc.trans ?_, hdc, hz⟩
  · exact decide_eq_decide.mpr (by omega)
  · exact decide_eq_decide.mpr (by omega)

/-- Settles O17: SUBLW has the arithmetic of SUBWF, the literal in the place of f. -/
theorem subtractionFlags : Obligations.SubtractionFlags := by
  refine ⟨fun f d s t h => ?_, fun k s hk => ?_⟩
  · cases d with
    | w =>
      have difference := (exec_toW_w (op := .subwf) rfl h).trans (result_subwf _ s.w.isLt _)
      exact ⟨fun _ => difference, (exec_toW_flags (op := .subwf) rfl h).subtraction⟩
    | f => exact ⟨nofun, (exec_toFile_flags (op := .subwf) h).subtraction⟩
  · obtain ⟨t, ht, hflags, hw⟩ := intoW_fileAlu_next .subwf s (lit8 k)
    have flags := hflags.subtraction
    rw [result_subwf _ s.w.isLt, toNat_lit8 hk] at hw
    rw [toNat_lit8 hk] at flags
    exact ⟨t, ht, hw, flags⟩

end Sys2Proof.Proofs

/-! The bit tests (R143, R144): the skip and the frame. -/

namespace Sys2Proof.Proofs

open Sys2Proof.Machine Sys2Proof.Claims

/-- A bit number in range is its own 3-bit operand (R140). -/
theorem bitIndex_of_le {b : Nat} (hb : b ≤ 7) : bitIndex b = b := Nat.mod_eq_of_lt (by omega)

/-- A bit test as a whole next state: past one word where the bit has the value that skips (R15). -/
theorem testBit_next {b : Nat} (hb : b ≤ 7) (f : Nat) (k : Bool) (s : State) :
    testBit f b k s = .next (onBy (if (dataRead s (ea s f)).getLsbD b = k then 2 else 1)
      { s with lastRB := lastRBAfterRead s (ea s f) }) := by
  rcases testBit_cases f b k s with ⟨hbit, h⟩ | ⟨hbit, h⟩
  all_goals rw [bitIndex_of_le hb] at hbit
  · rw [h, if_pos hbit]
    rfl
  · rw [h, if_neg hbit]
    rfl

/-- Settles O18: BTFSC is the test that skips on 0, BTFSS the one that skips on 1. -/
theorem bitTestsSkip : Obligations.BitTestsSkip := by
  intro f b s hb bit
  have skipOnClear : exec (.btfsc f b) s = .next (onBy (if bit = false then 2 else 1)
      { s with lastRB := lastRBAfterRead s (ea s f) }) := testBit_next hb f false s
  have skipOnSet : exec (.btfss f b) s = .next (onBy (if bit = true then 2 else 1)
      { s with lastRB := lastRBAfterRead s (ea s f) }) := testBit_next hb f true s
  refine ⟨?_, skipOnSet⟩
  rw [skipOnClear]
  cases bit <;> rfl

end Sys2Proof.Proofs

/-! The literal and control instructions: W and the flags, the jumps and the return stack, the watchdog,
OPTION and TRIS. -/

namespace Sys2Proof.Proofs

open Sys2Proof.Machine Sys2Proof.Claims

variable {s t : State}

/-! ### The literal instructions -/

/-- A literal instruction with the arithmetic of one that names f, the literal in the place of f (R150). -/
theorem intoW_fileAlu_literal (op : FileOp) {k : Nat} (hk : k ≤ 255) (s : State) :
    intoW (fileAlu op s (lit8 k)) s = .next (onBy 1 { s with
      w := BitVec.ofNat 8 (op.result s.w.toNat k s.carry)
      status := flagsInto s.status (op.zeroAfter (op.result s.w.toNat k s.carry) (zero s))
        (op.digitCarryAfter s.w.toNat k (digitCarry s)) (op.carryAfter s.w.toNat k s.carry) }) := by
  rw [intoW_fileAlu, FileOp.value, FileOp.statusAfter, toNat_lit8 hk]

/-- STATUS is put together from its own flags; MOVWF affects none of them. -/
theorem flagsInto_own (s : State) : flagsInto s.status (zero s) (digitCarry s) s.carry = s.status :=
  (fileAlu_status .movwf s 0).symm

/-- Settles O19: five of the six have the arithmetic of the instruction on f they are named after; MOVLW
affects no flag. -/
theorem literalOps : Obligations.LiteralOps := by
  intro op k s hk
  cases op with
  | addlw => exact intoW_fileAlu_literal .addwf hk s
  | andlw => exact intoW_fileAlu_literal .andwf hk s
  | iorlw => exact intoW_fileAlu_literal .iorwf hk s
  | sublw => exact intoW_fileAlu_literal .subwf hk s
  | xorlw => exact intoW_fileAlu_literal .xorwf hk s
  | movlw =>
    have hstatus : LiteralOp.statusAfter .movlw s k = s.status := flagsInto_own s
    rw [hstatus]
    rfl

/-! ### The jumps and the return stack -/

/-- The page bits PCLATH<4:3> above an 11-bit target (R16). -/
theorem pageTarget_eq {k : Nat} (hk : k ≤ 2047) (s : State) :
    pageTarget s k = BitVec.ofNat 13 (s.pclath.toNat / 8 * 2048 + k) := by
  have hpclath := s.pclath.isLt
  have hk' : k < 2 ^ 11 := by omega
  apply BitVec.eq_of_toNat_eq
  rw [pageTarget, BitVec.toNat_append, BitVec.extractLsb'_toNat, BitVec.toNat_ofNat, BitVec.toNat_ofNat,
    Nat.mod_eq_of_lt hk', ← Nat.shiftLeft_add_eq_or_of_lt hk', Nat.shiftLeft_eq, Nat.shiftRight_eq_div_pow]
  omega

/-- A push changes the entry at the pointer alone (R17). -/
theorem onlyCell_push (hs : Memory.wf s.stack = true) (v : ProgAddr) :
    OnlyCell s.stack (push v s).stack s.sp.toNat v :=
  ⟨Memory.read_write_same hs _ v, fun _ hx => Memory.read_write_other hs (Ne.symm hx) v⟩

/-- The next address, modulo the 8192 words of program space. -/
theorem pc_add_one_eq (pc : ProgAddr) : pc + 1 = BitVec.ofNat 13 ((pc.toNat + 1) % 8192) := by
  bv_omega

/-- Settles O21: CALL is GOTO after a push of the next address. -/
theorem callAndGoto : Obligations.CallAndGoto := by
  intro k s hk target
  have htarget : pageTarget s k = target := pageTarget_eq hk s
  constructor
  · rw [← htarget]
    rfl
  · intro hs
    refine ⟨(push (s.pc + 1) s).stack, ?_, ?_⟩
    · rw [← pc_add_one_eq]
      exact onlyCell_push hs _
    · rw [← htarget]
      rfl

/-- TOS is the entry below the pointer, modulo 8 (R17). -/
theorem tos_eq (s : State) : s.tos = Memory.read s.stack ((s.sp.toNat + 7) % 8) :=
  congrArg (Memory.read s.stack) (toNat_sp_sub_one s.sp)

/-- Settles O22: each of the three is `returnPop` beside W and INTCON. -/
theorem returns : Obligations.Returns := by
  intro k s _ tos
  have htos : s.tos = tos := tos_eq s
  rw [← htos]
  exact ⟨rfl, rfl, rfl⟩

/-- A return after a push and a jump goes to the pushed address, with the pointer where it was (R17, R18). -/
theorem returnPop_jump_push (hs : Memory.wf s.stack = true) (p v : ProgAddr) :
    returnPop (jump p (push v s)) = { s with
      stack := (push v s).stack, pc := v, cycles := s.cycles + 4, wdtAge := s.wdtAge + 4 } := by
  have htos : (jump p (push v s)).tos = v := tos_push hs v
  have hsp : (jump p (push v s)).sp - 1 = s.sp := pop_push_sp v s
  rw [returnPop_eq, htos, hsp]
  rfl

/-- RETFIE undoes the clearing of GIE (R184, R186). -/
theorem putBit_gie_undone (h : s.gie = true) : putBit (putBit s.intcon 7 false) 7 true = s.intcon := by
  apply BitVec.eq_of_getLsbD_eq
  intro j _
  by_cases hj : j = 7
  · subst hj
    rw [getLsbD_putBit_self _ _ (by decide)]
    exact h.symm
  · rw [getLsbD_putBit_ne _ _ hj, getLsbD_putBit_ne _ _ hj]

/-- RETFIE after an interrupt entry is a return to the interrupted address, INTCON as it was. -/
theorem interruptReturn_interruptEntry (h : s.gie = true) :
    interruptReturn (interruptEntry s) = returnPop (jump 0x0004 (push s.pc s)) := by
  have hintcon : interruptReturn (interruptEntry s) =
      { returnPop (jump 0x0004 (push s.pc s)) with
        intcon := putBit (putBit s.intcon 7 false) 7 true } := rfl
  rw [hintcon, putBit_gie_undone h]
  rfl

/-- Settles O24: both are a return after a push and a jump. -/
theorem returnsUndoCallsAndInterrupts : Obligations.ReturnsUndoCallsAndInterrupts := by
  intro s hs
  constructor
  · intro k _
    have hrun : execAll [.call k, .return_] s =
        .next (returnPop (jump (pageTarget s k) (push (s.pc + 1) s))) := rfl
    exact ⟨_, onlyCell_push hs _, by rw [hrun, returnPop_jump_push hs]⟩
  · intro hgie
    have hrun : exec .retfie (interruptEntry s) = .next (interruptReturn (interruptEntry s)) := rfl
    refine ⟨_, onlyCell_push hs _, ?_⟩
    rw [hrun, interruptReturn_interruptEntry hgie, returnPop_jump_push hs]

/-! ### The watchdog and SLEEP -/

/-- Clearing the WDT with TO and PD set by the hardware, then the advance (R154, R161). -/
theorem advance_setToPd_clearWdt (timeOut powerDown : Bool) (s : State) :
    advance (setToPd timeOut powerDown (clearWdt s)) = onBy 1 { s with
      wdt := 0
      wdtAge := 0
      prescaler := if s.option.getLsbD 3 then 0 else s.prescaler
      status := putBit (putBit s.status 4 timeOut) 3 powerDown } := rfl

/-- Settles O26: TO and PD are bits 4 and 3 of 18h. -/
theorem clrwdtEffect : Obligations.ClrwdtEffect := by
  intro s
  have hstatus : putBit (putBit s.status 4 true) 3 true = s.status ||| 0x18 := BitVec.or_assoc _ _ _
  have hrun : exec .clrwdt s = .next (advance (setToPd true true (clearWdt s))) := rfl
  rw [hrun, advance_setToPd_clearWdt, hstatus]

theorem exec_sleep_idle (h : s.intPending = false) :
    exec .sleep s = .next (advance (setToPd true false (clearWdt { s with asleep := true }))) :=
  if_neg (by rw [h]; decide)

theorem exec_sleep_pending (h : s.intPending = true) : exec .sleep s = .next (advance s) := if_pos h

/-- Settles O27: the two branches of SLEEP, by the wake-up condition (R191, D25). -/
theorem sleepEffect : Obligations.SleepEffect := by
  intro s
  constructor
  · intro h
    rw [exec_sleep_idle h, advance_setToPd_clearWdt]
    rfl
  · intro h
    rw [exec_sleep_pending h]
    rfl

/-! ### OPTION and TRIS -/

/-- A write that completes, then the advance: the form of OPTION and TRIS (R164, R165). -/
theorem andThen_dataWrite_advance {a : DataAddr} {v : Byte} (h : dataWrite a v true s = .next t) :
    (andThen (dataWrite a v true s) fun u => .next (advance u)) = .next (onBy 1 t) := by
  rw [h, andThen_of_next]
  rfl

/-- The five bits TRISA keeps of a byte. -/
theorem setWidth_five_eq (v : Byte) : v.setWidth 5 = BitVec.ofNat 5 (v.toNat % 32) := by
  bv_omega

/-- Settles O28: 81h, 85h and 86h name their registers whatever STATUS holds. -/
theorem optionAndTris : Obligations.OptionAndTris := by
  intro s
  have hoption : s.loc 0x81 = .option := rfl
  have htrisa : s.loc 0x85 = .trisa := rfl
  have htrisb : s.loc 0x86 = .trisb := rfl
  rw [← setWidth_five_eq]
  exact ⟨andThen_dataWrite_advance (dataWrite_option hoption),
    andThen_dataWrite_advance (dataWrite_trisa htrisa),
    andThen_dataWrite_advance (dataWrite_trisb htrisb)⟩

end Sys2Proof.Proofs

/-! The data EEPROM under an instruction: BSF on EECON1, the unlock sequence, and what keeps WR and RD (R208
to R210). -/

namespace Sys2Proof.Proofs

open Sys2Proof.Machine Sys2Proof.Claims

variable {s t : State} {v : Byte} {f : Nat}

/-! ### A form that writes EECON1 -/

/-- At EECON1 the resolved write is the write of R208; the read of EECON1 leaves no trace. -/
theorem exec_toFile_eecon1 (op : FileOp) (hl : s.loc (ea s f) = .eecon1) :
    exec (op.toFile f) s = andThen (eecon1Write (op.value s (dataRead s (ea s f))) s)
      fun t => .next (onBy (op.moves s (dataRead s (ea s f)))
        { t with status := op.statusAfter s (dataRead s (ea s f)) }) := by
  have hr : afterReading op s (ea s f) = s := afterReading_of_ne_portb (by simp [hl])
  rw [fileOpIntoAnyRegister op f s (by simp [hl]) (by simp [hl]), hr, dataWrite_eecon1 hl]

theorem eecon1Write_keeps_status (h : eecon1Write v s = .next t) : t.status = s.status := by
  obtain ⟨_, _, _, _, _, rfl⟩ := eecon1Write_next h
  rfl

/-- EECON1 as read, with one bit set: what BSF writes back (R142). -/
def eecon1WithBit (s : State) (b : Nat) : Byte := putBit (s.eecon1.setWidth 8) (bitIndex b) true

/-- BSF on EECON1 affects no flag and moves on by one word. -/
theorem exec_bsf_eecon1 (hl : s.loc (ea s f) = .eecon1) (b : Nat) :
    exec (.bsf f b) s = andThen (eecon1Write (eecon1WithBit s b) s) fun t => .next (onBy 1 t) := by
  have hvalue : (FileOp.bsf b).value s (dataRead s (ea s f)) = eecon1WithBit s b := by
    rw [← fileAlu_value, dataRead_eecon1 hl]
    rfl
  have hstatus : (FileOp.bsf b).statusAfter s (dataRead s (ea s f)) = s.status := flagsInto_own s
  refine (exec_toFile_eecon1 (.bsf b) hl).trans ?_
  rw [hvalue, hstatus]
  refine andThen_congr fun u hu => ?_
  rw [← eecon1Write_keeps_status hu]
  rfl

/-! ### BSF EECON1,RD and BSF EECON1,WR -/

/-- The low two bits of a byte as a number. -/
theorem mod_four_of_bits {rd wr : Bool} (hrd : v.getLsbD 0 = rd) (hwr : v.getLsbD 1 = wr) :
    v.toNat % 4 = wr.toNat * 2 + rd.toNat := by
  rw [← hrd, ← hwr, ← BitVec.testBit_toNat, ← BitVec.testBit_toNat, Nat.toNat_testBit, Nat.toNat_testBit]
  omega

/-- A bit put to what it is already. -/
theorem putBit_of_getLsbD {n : Nat} {x : BitVec n} {i : Nat} {b : Bool} (h : x.getLsbD i = b) :
    putBit x i b = x := by
  apply BitVec.eq_of_getLsbD_eq
  intro j _
  rw [getLsbD_putBit]
  split
  · rename_i hj
    rw [hj.2, h]
  · rfl

theorem getLsbD_eecon1Bits (old : BitVec 5) (v : Byte) {j : Nat} (hj : j < 5) :
    (eecon1Bits old v).getLsbD j = if j < 2 then old.getLsbD j else v.getLsbD j := by
  interval_cases j <;> simp [eecon1Bits]

/-- BSF on RD or WR writes back the three bits that a write takes over (R208). -/
theorem eecon1Taken_withBit {b : Nat} (hb : b < 2) (s : State) : eecon1Taken (eecon1WithBit s b) s = s := by
  have kept : eecon1Bits s.eecon1 (eecon1WithBit s b) = s.eecon1 := by
    apply BitVec.eq_of_getLsbD_eq
    intro j hj
    rw [getLsbD_eecon1Bits _ _ hj]
    split
    · rfl
    · have hne : j ≠ bitIndex b := by
        rw [bitIndex_of_le (by omega)]
        omega
      rw [eecon1WithBit, getLsbD_putBit_ne _ _ hne, BitVec.getLsbD_setWidth,
        decide_eq_true (show j < 8 by omega), Bool.true_and]
  rw [eecon1Taken, ← eecon1Bits_eq, kept]

/-- What BSF on RD writes back asks for a read, and for a write where WR is 1 already. -/
theorem eecon1WithBit_zero_bits (s : State) :
    (eecon1WithBit s 0).getLsbD 0 = true ∧ (eecon1WithBit s 0).getLsbD 1 = s.wr := by
  refine ⟨getLsbD_putBit_self _ _ (by decide), ?_⟩
  rw [eecon1WithBit, getLsbD_putBit_ne _ _ (by decide), BitVec.getLsbD_setWidth]
  rfl

/-- With no write in flight BSF EECON1,RD is the read (R209). -/
theorem exec_bsf_rd_idle (hl : s.loc (ea s f) = .eecon1) (hs : s.EepromControlOk) (hf : s.inFlight = none) :
    exec (.bsf f 0) s = andThen (eepromRead s) fun t => .next (onBy 1 t) := by
  obtain ⟨-, hwr⟩ := hs
  obtain ⟨h0, h1⟩ := eecon1WithBit_zero_bits s
  have hmod : (eecon1WithBit s 0).toNat % 4 = 1 :=
    mod_four_of_bits (rd := true) (wr := false) h0 (h1.trans (hwr.trans (by rw [hf]; rfl)))
  rw [exec_bsf_eecon1 hl, eecon1Write_rd hmod, eecon1Taken_withBit (by decide)]

/-- During a write BSF EECON1,RD writes WR back as the 1 it is, which locks the sequence, and reads (log 13). -/
theorem exec_bsf_rd_busy (hl : s.loc (ea s f) = .eecon1) (hs : s.EepromControlOk) (hf : s.inFlight ≠ none) :
    exec (.bsf f 0) s = andThen (eepromRead { s with unlock := .locked }) fun t => .next (onBy 1 t) := by
  obtain ⟨-, hwr⟩ := hs
  obtain ⟨h0, h1⟩ := eecon1WithBit_zero_bits s
  have hset : s.wr = true := hwr.trans (Option.isSome_iff_ne_none.mpr hf)
  have hmod : (eecon1WithBit s 0).toNat % 4 = 3 :=
    mod_four_of_bits (rd := true) (wr := true) h0 (h1.trans hset)
  rw [exec_bsf_eecon1 hl, eecon1Write_both_busy hmod hset hf, eecon1Taken_withBit (by decide)]

/-- BSF EECON1,WR is the write request (R210). -/
theorem exec_bsf_wr (hl : s.loc (ea s f) = .eecon1) (hs : s.EepromControlOk) :
    exec (.bsf f 1) s = andThen (eepromRequestWrite s) fun t => .next (onBy 1 t) := by
  obtain ⟨hrd, -⟩ := hs
  have h0 : (eecon1WithBit s 1).getLsbD 0 = false := by
    rw [eecon1WithBit, getLsbD_putBit_ne _ _ (by decide), BitVec.getLsbD_setWidth, hrd]
    rfl
  have hmod : (eecon1WithBit s 1).toNat % 4 = 2 :=
    mod_four_of_bits (rd := false) (wr := true) h0 (getLsbD_putBit_self _ _ (by decide))
  rw [exec_bsf_eecon1 hl, eecon1Write_wr hmod, eecon1Taken_withBit (by decide)]

/-- Settles O30: the read with its three outcomes, after the write of EECON1 that starts it. (`eepromRead`
itself is the model's operation.) -/
theorem Statements.eepromRead : Obligations.EepromRead := by
  intro f s hl hs
  have hrd : s.eecon1 &&& 0b11110 = s.eecon1 := putBit_of_getLsbD hs.1
  refine ⟨fun hlow hf => ?_, fun hlow hf => ?_, fun hhigh => ?_⟩
  · rw [exec_bsf_rd_idle hl hs hf, eepromRead_idle hlow hf, hrd, andThen_of_next]
  · rw [exec_bsf_rd_busy hl hs hf, eepromRead_busy (s := { s with unlock := .locked }) hlow hf, hrd,
      andThen_of_next]
  · by_cases hf : s.inFlight = none
    · rw [exec_bsf_rd_idle hl hs hf, eepromRead_high hhigh]
      rfl
    · rw [exec_bsf_rd_busy hl hs hf, eepromRead_high (s := { s with unlock := .locked }) hhigh]
      rfl

/-- Settles O31: the write request with its three outcomes. -/
theorem eepromWriteRequest : Obligations.EepromWriteRequest := by
  intro f s hl hs armed
  rw [exec_bsf_wr hl hs]
  refine ⟨fun ha hlow => ?_, fun ha => ?_, fun ha hhigh => ?_⟩
  · rw [eepromRequestWrite_armed ha hlow, andThen_of_next]
  · rw [eepromRequestWrite_not_armed ha, andThen_of_next]
  · rw [eepromRequestWrite_high ha hhigh]
    rfl

/-! ### The unlock sequence -/

/-- MOVWF 09h in bank 1 moves the unlock position (R124, R210). -/
theorem exec_movwf_eecon2 (h : s.rp0 = true) :
    exec (.movwf 0x09) s = .next (advance { s with unlock := s.unlock.afterWrite s.w }) := by
  have ha : ea s 0x09 = 0x89 := by rw [ea_direct (by decide) (by decide), h]; rfl
  change exec (FileOp.movwf.toFile 0x09) s = _
  rw [exec_toFile, ha]
  rfl

/-- `s` after MOVLW k; MOVWF EECON2. -/
def afterUnlockByte (k : Nat) (s : State) : State :=
  advance (advance { s with w := lit8 k, unlock := s.unlock.afterWrite (lit8 k) })

theorem execAll_unlockByte (h : s.rp0 = true) (k : Nat) (rest : List Instr) :
    execAll (.movlw k :: .movwf 0x09 :: rest) s = execAll rest (afterUnlockByte k s) := by
  have hmovlw : exec (.movlw k) s = .next (advance { s with w := lit8 k }) := rfl
  rw [execAll, hmovlw, andThen_of_next, execAll, exec_movwf_eecon2 (s := advance { s with w := lit8 k }) h,
    andThen_of_next]
  rfl

/-- `s` after the four instructions that unlock (R210). -/
def unlocked (s : State) : State := afterUnlockByte 0xAA (afterUnlockByte 0x55 s)

/-- Settles O32: 55h then AAh unlock from any position, and the last instruction is the armed request of
O31. -/
theorem unlockSequenceStartsAWrite : Obligations.UnlockSequenceStartsAWrite := by
  intro s hrp0 hs hf hwren hlow
  rw [execAll_unlockByte hrp0, execAll_unlockByte (s := afterUnlockByte 0x55 s) hrp0]
  have hl : (unlocked s).loc (ea (unlocked s) 0x08) = .eecon1 := by
    rw [ea_direct (by decide) (by decide), show (unlocked s).rp0 = true from hrp0]
    rfl
  obtain ⟨starts, -, -⟩ := eepromWriteRequest 0x08 (unlocked s) hl hs
  have run := congrArg (andThen · (execAll [])) (starts ⟨rfl, hwren, hf⟩ hlow)
  exact ⟨_, run, getLsbD_putBit_self s.eecon1 true (i := 1) (by decide), rfl, rfl, rfl⟩

/-! ### WR and RD under every instruction -/

/-- WR is not cleared, and RD is 0 if it was 0 (R208, R209). -/
def ControlKept (s t : State) : Prop :=
  (s.wr = true → t.wr = true) ∧ (s.eecon1.getLsbD 0 = false → t.eecon1.getLsbD 0 = false)

theorem ControlKept.of_eq (h : t.eecon1 = s.eecon1) : ControlKept s t := by
  rw [ControlKept, State.wr, State.wr, h]
  exact ⟨id, id⟩

theorem ControlKept.trans {u : State} (h : ControlKept s t) (h' : ControlKept t u) : ControlKept s u :=
  ⟨h'.1 ∘ h.1, h'.2 ∘ h.2⟩

theorem eepromRead_controlKept (h : eepromRead s = .next t) : ControlKept s t := by
  obtain ⟨-, d, k, rfl, -⟩ := eepromRead_next h
  exact ⟨(getLsbD_putBit_ne _ _ (by decide)).trans, fun _ => getLsbD_putBit_self _ _ (by decide)⟩

theorem eepromRequestWrite_controlKept (h : eepromRequestWrite s = .next t) : ControlKept s t := by
  rcases eepromRequestWrite_next h with ⟨-, -, -, -, rfl⟩ | ⟨-, rfl⟩
  · exact ⟨fun _ => getLsbD_putBit_self _ _ (by decide), (getLsbD_putBit_ne _ _ (by decide)).trans⟩
  · exact .of_eq rfl

/-- The stages of a write of EECON1 that goes on: the bits taken over, a request or none, a read or none. -/
theorem eecon1Write_stages (h : eecon1Write v s = .next t) : ∃ m,
    (m = eecon1Taken v s ∨ eepromRequestWrite (eecon1Taken v s) = .next m) ∧
    (t = m ∨ eepromRead m = .next t) := by
  rw [eecon1Write_of_mod_four (mod_four_of_bits rfl rfl)] at h
  split at h
  · cases h
  · obtain ⟨m, hm, ht⟩ := andThen_next.mp h
    refine ⟨m, ?_, ?_⟩
    · split at hm
      · exact .inr hm
      · cases hm; exact .inl rfl
    · split at ht
      · exact .inr ht
      · cases ht; exact .inl rfl

theorem eecon1Write_controlKept (h : eecon1Write v s = .next t) : ControlKept s t := by
  obtain ⟨m, hm, ht⟩ := eecon1Write_stages h
  have taken : ControlKept s (eecon1Taken v s) := by
    obtain ⟨hrd, hwr⟩ := eecon1Bits_control s.eecon1 v
    rw [eecon1Bits_eq] at hrd hwr
    exact ⟨hwr.trans, hrd.trans⟩
  have requested : ControlKept s m := by
    rcases hm with rfl | hm
    · exact taken
    · exact taken.trans (eepromRequestWrite_controlKept hm)
  rcases ht with rfl | ht
  · exact requested
  · exact requested.trans (eepromRead_controlKept ht)

theorem dataWrite_controlKept {a : DataAddr} {n : Bool} (h : dataWrite a v n s = .next t) :
    ControlKept s t := by
  by_cases hl : s.loc a = .eecon1
  · rw [dataWrite_eecon1 hl] at h
    exact eecon1Write_controlKept h
  · exact .of_eq (dataWrite_keeps_eecon1 h hl)

/-- Settles O33: of all effects only the resolved write at EECON1 reaches WR and RD. -/
theorem wrIsNotClearedAndRdReadsZero : Obligations.WrIsNotClearedAndRdReadsZero := by
  intro i s t h
  cases exec_effect h with
  | file op f x r k u hu =>
    rw [finish_eq]
    exact (dataWrite_controlKept hu :)
  | cpu | call | ret | portControl | clrwdt | sleep => exact ⟨id, id⟩

end Sys2Proof.Proofs

/-! Where an instruction stops (R180, R208 to R210), and the write engine (R211). -/

namespace Sys2Proof.Proofs

open Sys2Proof.Machine Sys2Proof.Claims

variable {s t : State} {v : Byte} {i : Instr}

/-! ### Every instruction but for the writes of f -/

/-- An instruction is a form that writes f, or it completes on every state. -/
inductive Form : Instr → Prop
  | toFile (op : FileOp) (f : Nat) : Form (op.toFile f)
  | completes {i : Instr} (h : ∀ s, ∃ t, exec i s = .next t) : Form i

/-- The forms that write W complete. -/
theorem form_toW {op : FileOp} {f : Nat} (hi : op.toW f = some i) : Form i :=
  .completes fun s => ⟨_, exec_toW_next hi s⟩

theorem testBit_completes (f b : Nat) (k : Bool) (s : State) : ∃ t, testBit f b k s = .next t := by
  rcases testBit_cases f b k s with ⟨-, h⟩ | ⟨-, h⟩ <;> exact ⟨_, h⟩

theorem execSleep_completes (s : State) : ∃ t, exec .sleep s = .next t := by
  cases h : s.intPending
  · exact ⟨_, exec_sleep_idle h⟩
  · exact ⟨_, exec_sleep_pending h⟩

theorem instr_form (i : Instr) : Form i := by
  cases i with
  | addwf f d => cases d; exacts [form_toW (op := .addwf) rfl, .toFile .addwf f]
  | andwf f d => cases d; exacts [form_toW (op := .andwf) rfl, .toFile .andwf f]
  | comf f d => cases d; exacts [form_toW (op := .comf) rfl, .toFile .comf f]
  | decf f d => cases d; exacts [form_toW (op := .decf) rfl, .toFile .decf f]
  | decfsz f d => cases d; exacts [form_toW (op := .decfsz) rfl, .toFile .decfsz f]
  | incf f d => cases d; exacts [form_toW (op := .incf) rfl, .toFile .incf f]
  | incfsz f d => cases d; exacts [form_toW (op := .incfsz) rfl, .toFile .incfsz f]
  | iorwf f d => cases d; exacts [form_toW (op := .iorwf) rfl, .toFile .iorwf f]
  | movf f d => cases d; exacts [form_toW (op := .movf) rfl, .toFile .movf f]
  | rlf f d => cases d; exacts [form_toW (op := .rlf) rfl, .toFile .rlf f]
  | rrf f d => cases d; exacts [form_toW (op := .rrf) rfl, .toFile .rrf f]
  | subwf f d => cases d; exacts [form_toW (op := .subwf) rfl, .toFile .subwf f]
  | swapf f d => cases d; exacts [form_toW (op := .swapf) rfl, .toFile .swapf f]
  | xorwf f d => cases d; exacts [form_toW (op := .xorwf) rfl, .toFile .xorwf f]
  | clrf f => exact .toFile .clrf f
  | movwf f => exact .toFile .movwf f
  | bcf f b => exact .toFile (.bcf b) f
  | bsf f b => exact .toFile (.bsf b) f
  | btfsc f b => exact .completes (testBit_completes f b false)
  | btfss f b => exact .completes (testBit_completes f b true)
  | sleep => exact .completes execSleep_completes
  | clrw | nop | addlw | andlw | iorlw | movlw | sublw | xorlw | call | goto | retfie | retlw | return_
  | clrwdt | option | tris5 | tris6 | tris7 => exact .completes fun _ => ⟨_, rfl⟩

/-- Only a write can stop an instruction, and only at EECON1 (R180). -/
theorem exec_completes (h : ∀ (op : FileOp) (f : Nat), i = op.toFile f → s.loc (ea s f) ≠ .eecon1) :
    ∃ t, exec i s = .next t := by
  cases instr_form i with
  | toFile op f =>
    have hl : (afterReading op s (ea s f)).loc (ea s f) ≠ .eecon1 := by
      rw [afterReading_loc]
      exact h op f rfl
    obtain ⟨u, hu⟩ := dataWrite_completes hl
    rw [exec_toFile_value, hu]
    exact ⟨_, rfl⟩
  | completes h => exact h s

/-! ### The outcome of a write of EECON1 -/

/-- `r` is the stop of U13 exactly where `c` holds, and goes on elsewhere. -/
def StopsWhen (c : Prop) (eeadr : Byte) (r : Result) : Prop :=
  (c → r = .fault (.eepromAddress eeadr)) ∧ (¬ c → ∃ t, r = .next t)

theorem eepromRead_stopsWhen (s : State) : StopsWhen (0x3F < s.eeadr.toNat) s.eeadr (eepromRead s) := by
  refine ⟨eepromRead_high, fun h => ?_⟩
  have hlow := Nat.not_lt.mp h
  by_cases hf : s.inFlight = none
  · exact ⟨_, eepromRead_idle hlow hf⟩
  · exact ⟨_, eepromRead_busy hlow hf⟩

theorem eepromRequestWrite_stopsWhen (s : State) :
    StopsWhen (Armed s ∧ 0x3F < s.eeadr.toNat) s.eeadr (eepromRequestWrite s) := by
  refine ⟨fun ⟨ha, hhigh⟩ => eepromRequestWrite_high ha hhigh, fun h => ?_⟩
  by_cases ha : Armed s
  · exact ⟨_, eepromRequestWrite_armed ha (Nat.not_lt.mp fun hhigh => h ⟨ha, hhigh⟩)⟩
  · exact ⟨_, eepromRequestWrite_not_armed ha⟩

/-- A request and then a read stop where the read would, at the same address. -/
theorem requestThenRead_stopsWhen (s : State) :
    StopsWhen (0x3F < s.eeadr.toNat) s.eeadr (andThen (eepromRequestWrite s) eepromRead) := by
  obtain ⟨stops, goesOn⟩ := eepromRequestWrite_stopsWhen s
  by_cases h : Armed s ∧ 0x3F < s.eeadr.toNat
  · rw [stops h]
    exact ⟨fun _ => rfl, fun hlow => absurd h.2 hlow⟩
  · obtain ⟨t, ht⟩ := goesOn h
    have heeadr : t.eeadr = s.eeadr := by
      rcases eepromRequestWrite_next ht with ⟨-, -, -, -, rfl⟩ | ⟨-, rfl⟩ <;> rfl
    rw [ht, andThen_of_next, ← heeadr]
    exact eepromRead_stopsWhen t

/-- A written value that starts a read, or a write with the sequence unlocked (R209, R210). -/
def StartsAccess (v : Byte) (s : State) : Prop :=
  v.getLsbD 0 = true ∨ (v.getLsbD 1 = true ∧ v.getLsbD 2 = true ∧ s.unlock = .gotAA ∧ s.inFlight = none)

/-- A write of EECON1 that is not refused stops above 3Fh only, and only where it starts an access. -/
theorem eecon1Write_stopsWhen (h : ¬ (v.getLsbD 0 = true ∧ v.getLsbD 1 = true ∧ s.wr = false)) :
    StopsWhen (StartsAccess v s ∧ 0x3F < s.eeadr.toNat) s.eeadr (eecon1Write v s) := by
  have heeadr : (eecon1Taken v s).eeadr = s.eeadr := rfl
  rw [StartsAccess, ← armed_eecon1Taken, ← heeadr]
  cases hrd : v.getLsbD 0 <;> cases hwr : v.getLsbD 1
  · rw [eecon1Write_neither (mod_four_of_bits hrd hwr)]
    exact ⟨by simp, fun _ => ⟨_, rfl⟩⟩
  · rw [eecon1Write_wr (mod_four_of_bits hrd hwr)]
    simpa using eepromRequestWrite_stopsWhen (eecon1Taken v s)
  · rw [eecon1Write_rd (mod_four_of_bits hrd hwr)]
    simpa using eepromRead_stopsWhen (eecon1Taken v s)
  · have hset : s.wr = true := by simpa [hrd, hwr] using h
    have hboth : eecon1Write v s = andThen (eepromRequestWrite (eecon1Taken v s)) eepromRead := by
      rw [eecon1Write_of_mod_four (mod_four_of_bits hrd hwr), hset]
      rfl
    rw [hboth]
    simpa using requestThenRead_stopsWhen (eecon1Taken v s)

/-- Settles O34: away from EECON1 by `exec_completes`, at EECON1 as the write of EECON1 does. -/
theorem instructionsStopOnlyAtEecon1 : Obligations.InstructionsStopOnlyAtEecon1 := by
  refine fun i s => ⟨exec_completes, ?_⟩
  rintro op f rfl hl r both starts
  rw [exec_toFile_eecon1 op hl]
  split
  · rename_i h
    rw [eecon1Write_both_refused (mod_four_of_bits h.1 h.2.1) h.2.2]
    rfl
  · rename_i hboth
    obtain ⟨stops, goesOn⟩ := eecon1Write_stopsWhen hboth
    split
    · rename_i hhigh
      rw [stops hhigh]
      rfl
    · rename_i hlow
      obtain ⟨t, ht⟩ := goesOn hlow
      rw [ht]
      exact ⟨_, rfl⟩

/-! ### The write engine -/

/-- EECON1 after a completed write: WR falls, EEIF rises, the rest stays (R211). -/
def completedControl (q : BitVec 5) : BitVec 5 := putBit (putBit q 1 false) 4 true

theorem completedControl_bits (q : BitVec 5) :
    (completedControl q).getLsbD 4 = true ∧ (completedControl q).getLsbD 1 = false ∧
      ∀ j, j ≠ 4 → j ≠ 1 → (completedControl q).getLsbD j = q.getLsbD j :=
  ⟨getLsbD_putBit_self _ _ (by decide),
    (getLsbD_putBit_ne _ _ (by decide)).trans (getLsbD_putBit_self _ _ (by decide)),
    fun _ h4 h1 => (getLsbD_putBit_ne _ _ h4).trans (getLsbD_putBit_ne _ _ h1)⟩

/-- EEIF with EEIE is a pending interrupt (R182). -/
theorem intPending_of_eeif (hie : s.intcon.getLsbD 6 = true) (hif : s.eeif = true) : s.intPending = true := by
  simp [State.intPending, hie, hif]

/-- Settles O35: one byte of the array and two bits of EECON1. -/
theorem eepromWriteCompletes : Obligations.EepromWriteCompletes := by
  refine ⟨fun s e hm hf => ?_, fun s hf => ?_⟩
  · obtain ⟨heeif, hwr, hothers⟩ := completedControl_bits s.eecon1
    have hdone : applyEvent s .eepromDone = { s with
        eeprom := Memory.write s.eeprom e.addr.toNat e.data
        eecon1 := completedControl s.eecon1, inFlight := none } := by
      simp only [applyEvent, eepromComplete, hf]
      rfl
    refine ⟨_, _, onlyCell_write hm _ _, hdone, heeif, hwr, hothers, fun hie => ?_⟩
    rw [hdone]
    exact intPending_of_eeif hie heeif
  · simp only [applyEvent, eepromComplete, hf]

end Sys2Proof.Proofs

/-! One step: the decoded instruction, the interrupt entry, the sleep and its ends, the watchdog's time-out
(R183, R184, R190 to R192, R201, R202). -/

namespace Sys2Proof.Proofs

open Sys2Proof.Machine Sys2Proof.Claims

variable {s u t : State} {i : Instr}

/-! ### The branches of the CPU's part of a step -/

theorem cpuStep_wakes (ha : u.asleep = true) (hp : u.intPending = true) :
    cpuStep u = .next (interruptWake u) := by
  rw [cpuStep, if_pos ha, if_pos hp]

theorem cpuStep_sleeps (ha : u.asleep = true) (hp : u.intPending = false) :
    cpuStep u = .next (sleepOn u) := by
  rw [cpuStep, if_pos ha, hp]
  rfl

theorem cpuStep_interrupt (ha : u.asleep = false) (hd : u.intDue = true) :
    cpuStep u = .next (timer0After u (interruptEntry u)) := by
  rw [cpuStep, ha, if_neg (by decide), if_pos hd]

theorem runInstr_decoded (h : decode (fetch u) = .ok i) :
    runInstr u = andThen (exec i u) fun t => .next (timer0After u t) := by
  rw [runInstr, h]

/-- Awake with no interrupt due, a step is the decoded instruction (R183, R97). -/
theorem step_decoded (hb : atBoundary s = (u, none)) (ha : u.asleep = false) (hd : u.intDue = false)
    (hi : decode (fetch u) = .ok i) :
    step s = andThen (exec i { u with holdOff := false })
      fun t => .next (timer0After { u with holdOff := false } t) := by
  rw [step_of_boundary hb, cpuStep_running ha hd]
  exact runInstr_decoded hi

/-- The test is skipped under the mark (R183, R191). -/
theorem intDue_of_holdOff (h : u.holdOff = true) : u.intDue = false := by simp [State.intDue, h]

/-- Settles O36: the fetch is the read of program memory at pc modulo its size. -/
theorem stepRunsDecodedInstruction : Obligations.StepRunsDecodedInstruction :=
  fun _ _ _ hb ha hd hi => step_decoded hb ha hd hi

/-- Settles O39: the branch of the interrupt test, with everything an entry changes. (`interruptEntry` itself
is the model's operation.) -/
theorem Statements.interruptEntry : Obligations.InterruptEntry := by
  intro s u hb ha hgie hp hh hm
  have hdue : u.intDue = true := by simp [State.intDue, hgie, hp, hh]
  have hintcon : putBit u.intcon 7 false = u.intcon &&& 0x7F := rfl
  refine ⟨_, onlyCell_push hm u.pc, ?_⟩
  rw [step_of_boundary hb, cpuStep_interrupt ha hdue, interruptEntry_eq, hintcon]
  rfl

/-- Settles O40: the idle branch of the sleep. -/
theorem sleepGoesOn : Obligations.SleepGoesOn := by
  intro s u hb ha hp
  rw [step_of_boundary hb, cpuStep_sleeps ha hp]
  rfl

/-- Settles O41: the waking branch of the sleep, and the instruction that runs under its mark. -/
theorem interruptWakeUp : Obligations.InterruptWakeUp := by
  refine ⟨fun s u hb ha hp => ?_, fun s u i hb ha hh hi => step_decoded hb ha (intDue_of_holdOff hh) hi⟩
  rw [step_of_boundary hb, cpuStep_wakes ha hp]
  rfl

/-! ### The watchdog's time-out -/

theorem step_of_wdtTimeout {d : ResetDraw} (hb : atBoundary s = (u, some (.wdtTimeout d))) :
    step s = .next (wdtTimeout d u) := by
  rw [step, runStep, hb]

theorem wdtTimeout_asleep (h : u.asleep = true) (d : ResetDraw) : wdtTimeout d u = wdtWake u := if_pos h

theorem wdtTimeout_running (h : u.asleep = false) (d : ResetDraw) : wdtTimeout d u = wdtReset d u :=
  if_neg (by rw [h]; decide)

/-- TO and PD as a number, STATUS<4:3>. -/
theorem toNat_toPd (x : Byte) :
    x.toNat / 8 % 4 = (x.getLsbD 4).toNat * 2 + (x.getLsbD 3).toNat := by
  rw [← BitVec.testBit_toNat, ← BitVec.testBit_toNat, Nat.toNat_testBit, Nat.toNat_testBit]
  omega

/-- Settles O42: the time-out of a sleeping CPU clears TO and the WDT; with PD = 0 both bits are then 0. -/
theorem watchdogWakeUp : Obligations.WatchdogWakeUp := by
  intro s u d hb ha
  constructor
  · have hstatus : putBit u.status 4 false = u.status &&& 0xEF := rfl
    rw [step_of_wdtTimeout hb, wdtTimeout_asleep ha, wdtWake, hstatus]
    rfl
  · intro hpd
    have hmask : u.status &&& 0xEF = putBit u.status 4 false := rfl
    rw [toNat_toPd, hmask, getLsbD_putBit_self _ _ (by decide), getLsbD_putBit_ne _ _ (by decide), hpd]
    rfl

/-- When the environment's time-out may occur (R201, R202). -/
theorem wdtMayFire_iff (s : State) : s.wdtMayFire = true ↔
    s.cfg.wdtEnabled = true ∧ ∀ n, s.cfg.wdtMinCycles = some n → n ≤ s.wdtAge := by
  rw [State.wdtMayFire, Bool.and_eq_true]
  cases s.cfg.wdtMinCycles <;> simp

/-- A boundary where the environment offers a time-out passes it on where it may occur. -/
theorem atBoundary_wdtTimeout {b : Boundary} {rest : List Boundary} {d : ResetDraw}
    (h : s.inputs = b :: rest) (hb : b.takeover = some (.wdtTimeout d)) :
    atBoundary s = ((atBoundary s).1,
      if (atBoundary s).1.wdtMayFire then some (.wdtTimeout d) else none) := by
  simp only [atBoundary, h, hb]

/-- What every reset forces (R231). -/
theorem resetForces_resetCommon (kept : BitVec 5) (rbif wrerr : Bool) (sp : BitVec 3) (s : State) :
    ResetForces (resetCommon kept rbif wrerr sp s) := by
  refine ⟨rfl, rfl, rfl, fun j h1 _ => ?_, rfl, rfl, rfl, fun j _ h3 => ?_, fun j h5 _ => ?_⟩
  · rw [resetCommon_intcon, getLsbD_putBit_ne _ _ (by omega)]
    exact BitVec.getLsbD_zero
  · rw [resetCommon_eecon1, getLsbD_putBit_ne _ _ h3]
    exact BitVec.getLsbD_zero
  · rw [resetCommon_status, BitVec.getLsbD_setWidth, BitVec.getLsbD_of_ge _ _ h5, Bool.and_false]

/-- A time-out ends in normal operation at 0000h or goes on after the SLEEP, with TO = 0 (R188, R192, R202). -/
theorem wdtTimeout_effect (d : ResetDraw) (u : State) :
    (wdtTimeout d u).asleep = false ∧ (wdtTimeout d u).status.getLsbD 4 = false ∧
    (u.asleep = false → ResetForces (wdtTimeout d u)) ∧
    (u.asleep = true → (wdtTimeout d u).pc = u.pc) := by
  cases ha : u.asleep with
  | true =>
    rw [wdtTimeout_asleep ha]
    exact ⟨rfl, getLsbD_putBit_self _ _ (by decide), nofun, fun _ => rfl⟩
  | false =>
    rw [wdtTimeout_running ha]
    refine ⟨rfl, ?_, fun _ => resetForces_resetCommon _ _ _ _ _, nofun⟩
    have hto : (putBit (u.status.setWidth 5) 4 false).getLsbD 4 = false :=
      getLsbD_putBit_self _ _ (by decide)
    rw [wdtReset, resetCommon_status, BitVec.getLsbD_setWidth, hto, Bool.and_false]

/-- Settles O43: the boundary lets the time-out through by R201 and R202; else the step is the CPU's. -/
theorem watchdogTimeoutOnlyWhenAllowed : Obligations.WatchdogTimeoutOnlyWhenAllowed := by
  intro s b rest d hs hb u allowed
  have boundary := atBoundary_wdtTimeout hs hb
  constructor
  · intro h
    rw [if_pos ((wdtMayFire_iff u).mpr h)] at boundary
    exact ⟨congrArg Prod.snd boundary, _, step_of_wdtTimeout boundary, wdtTimeout_effect d u⟩
  · intro h
    rw [if_neg fun e => h ((wdtMayFire_iff u).mp e)] at boundary
    exact step_of_boundary boundary

end Sys2Proof.Proofs

/-! Timer0: one tick as a whole, the count of n cycles, the ticks of an instruction, a write of TMR0, and the
free agent (R195 to R198). -/

namespace Sys2Proof.Proofs

open Sys2Proof.Machine Sys2Proof.Claims

variable {s u t : State} {i : Instr}

/-! ### One tick -/

/-- A number added to a byte, modulo 256. -/
theorem ofNat_toNat_add (x : Byte) (n : Nat) : BitVec.ofNat 8 (x.toNat + n) = x + BitVec.ofNat 8 n := by
  rw [BitVec.ofNat_add, BitVec.ofNat_toNat, BitVec.setWidth_eq]

/-- T0IF is bit 2 of INTCON (R36). -/
theorem raiseIf_t0if (c : Prop) [Decidable c] (v : Byte) :
    raiseIf (decide c) 2 v = if c then v ||| 0x04 else v := by
  by_cases h : c
  · rw [if_pos h, decide_eq_true h]
    rfl
  · rw [if_neg h, decide_eq_false h]
    rfl

/-- The prescaler's ratio for Timer0, by PS (R196). -/
def prescaleRatio (s : State) : Nat := 2 ^ (s.option.toNat % 8 + 1)

theorem prescaleRatio_pos (s : State) : 0 < prescaleRatio s := Nat.two_pow_pos _

/-- The 8-bit prescaler holds a whole number of periods. -/
theorem prescaleRatio_dvd (s : State) : prescaleRatio s ∣ 256 :=
  Nat.pow_dvd_pow 2 (n := 8) (by omega)

theorem mod_prescaleRatio (n : Nat) (s : State) : n % 256 % prescaleRatio s = n % prescaleRatio s :=
  Nat.mod_mod_of_dvd n (prescaleRatio_dvd s)

/-- A tick of the count source reaches TMR0: no inhibit, and straight or at the end of a prescaler period. -/
def tickCounts (s : State) : Bool :=
  decide (s.tmr0Hold = .none) &&
    (s.option.getLsbD 3 || decide ((s.prescaler.toNat + 1) % prescaleRatio s = 0))

/-- A tick as a whole next state (R196 to R198). -/
theorem tmr0Tick_whole (s : State) : tmr0Tick s = { s with
    tmr0 := if tickCounts s then s.tmr0 + 1 else s.tmr0
    prescaler := if s.option.getLsbD 3 then s.prescaler else s.prescaler + 1
    intcon := raiseIf (tickCounts s && decide (s.tmr0 = 0xFF)) 2 s.intcon } := by
  have hperiod : (s.prescaler.toNat + 1) % 256 % 2 ^ (s.ps + 1) = (s.prescaler.toNat + 1) % prescaleRatio s :=
    mod_prescaleRatio _ s
  cases hpsa : s.option.getLsbD 3 <;> by_cases hhold : s.tmr0Hold = .none
  · by_cases hend : (s.prescaler.toNat + 1) % prescaleRatio s = 0 <;>
      simp [-BitVec.getLsbD_eq_getElem, tmr0Tick, State.psa, tickCounts, tmr0Increment, raiseIf, hpsa, hhold,
        hperiod, hend]
  · simp [-BitVec.getLsbD_eq_getElem, tmr0Tick, State.psa, tickCounts, raiseIf, hpsa, hhold]
  · simp [-BitVec.getLsbD_eq_getElem, tmr0Tick, State.psa, tickCounts, tmr0Increment, raiseIf, hpsa, hhold]
  · simp [-BitVec.getLsbD_eq_getElem, tmr0Tick, State.psa, tickCounts, raiseIf, hpsa, hhold]

/-! ### The count of n cycles -/

/-- `s` with `k` added to TMR0, T0IF set on an overflow (R198), and the prescaler at `p`. -/
def countedOn (k : Nat) (p : Byte) (s : State) : State := { s with
  tmr0 := BitVec.ofNat 8 (s.tmr0.toNat + k)
  prescaler := p
  intcon := if s.tmr0.toNat + k > 255 then s.intcon ||| 0x04 else s.intcon }

theorem countedOn_zero (s : State) : countedOn 0 s.prescaler s = s := by
  have hno : ¬ s.tmr0.toNat + 0 > 255 := by
    have := s.tmr0.isLt
    omega
  rw [countedOn, if_neg hno, ofNat_toNat_add, BitVec.add_zero]

/-- Two counts are one count of the sum: an overflow of the sum is one of the first or of the second. -/
theorem countedOn_countedOn (j k : Nat) (p q : Byte) (s : State) :
    countedOn k q (countedOn j p s) = countedOn (j + k) q s := by
  have hlt := s.tmr0.isLt
  have htmr0 : BitVec.ofNat 8 ((s.tmr0.toNat + j) % 256 + k) = BitVec.ofNat 8 (s.tmr0.toNat + (j + k)) := by
    apply BitVec.eq_of_toNat_eq
    simp only [BitVec.toNat_ofNat]
    omega
  have hintcon : (if (s.tmr0.toNat + j) % 256 + k > 255 then
        (if s.tmr0.toNat + j > 255 then s.intcon ||| 0x04 else s.intcon) ||| 0x04
      else if s.tmr0.toNat + j > 255 then s.intcon ||| 0x04 else s.intcon) =
      if s.tmr0.toNat + (j + k) > 255 then s.intcon ||| 0x04 else s.intcon := by
    by_cases hj : s.tmr0.toNat + j > 255
    · rw [if_pos hj, if_pos (show s.tmr0.toNat + (j + k) > 255 by omega), BitVec.or_assoc, BitVec.or_self,
        ite_self]
    · rw [if_neg hj, Nat.mod_eq_of_lt (by omega), Nat.add_assoc]
  simp only [countedOn, BitVec.toNat_ofNat, Nat.reducePow, htmr0, hintcon]

/-- What `n` cycles add to TMR0 (R196). -/
def ticksCounted (n : Nat) (s : State) : Nat :=
  if s.option.getLsbD 3 then n else (s.prescaler.toNat % prescaleRatio s + n) / prescaleRatio s

/-- Where `n` cycles leave the prescaler (R196). -/
def prescalerAfter (n : Nat) (s : State) : Byte :=
  if s.option.getLsbD 3 then s.prescaler else BitVec.ofNat 8 (s.prescaler.toNat + n)

/-- A count from `p` ends at most one period a tick. -/
theorem div_succ_mod (p : Nat) {r : Nat} (hr : 0 < r) :
    (p % r + 1) / r = if (p + 1) % r = 0 then 1 else 0 := by
  have hlt := Nat.mod_lt p hr
  rw [← Nat.mod_add_mod p r 1]
  by_cases hfull : p % r + 1 = r
  · rw [hfull, Nat.div_self hr, if_pos (Nat.mod_self r)]
  · have hshort : p % r + 1 < r := by omega
    rw [Nat.div_eq_of_lt hshort, Nat.mod_eq_of_lt hshort, if_neg (Nat.succ_ne_zero _)]

/-- A cycle on the instruction clock with no inhibit is a count of one tick (R196). -/
theorem tmr0Cycle_counts (hclock : s.option.getLsbD 5 = false) (hhold : s.tmr0Hold = .none) :
    tmr0Cycle s = countedOn (ticksCounted 1 s) (prescalerAfter 1 s) s := by
  have hticks : ticksCounted 1 s = if tickCounts s then 1 else 0 := by
    cases hpsa : s.option.getLsbD 3 <;> simp [-BitVec.getLsbD_eq_getElem, ticksCounted,
      tickCounts, hpsa, hhold, div_succ_mod, prescaleRatio_pos]
  have hprescaler : prescalerAfter 1 s = if s.option.getLsbD 3 then s.prescaler else s.prescaler + 1 := by
    rw [prescalerAfter, ofNat_toNat_add]
    rfl
  have htick : tmr0Cycle s = tmr0Tick s := by
    rw [tmr0Cycle, State.t0cs, hclock, if_neg (by decide), tmr0Tick_whole]
    simp only [hhold, TmrHold.next]
  have htmr0 : (if tickCounts s then s.tmr0 + 1 else s.tmr0) =
      BitVec.ofNat 8 (s.tmr0.toNat + if tickCounts s then 1 else 0) := by
    rw [ofNat_toNat_add]
    split
    · rfl
    · exact (BitVec.add_zero _).symm
  have hover : (tickCounts s && decide (s.tmr0 = 0xFF)) =
      decide ((s.tmr0.toNat + if tickCounts s then 1 else 0) > 255) := by
    have hlt := s.tmr0.isLt
    have hlast : s.tmr0 = 0xFF ↔ s.tmr0.toNat = 255 := BitVec.toNat_inj.symm
    cases tickCounts s
    · exact (decide_eq_false (Nat.not_lt.mpr (Nat.le_of_lt_succ hlt))).symm
    · exact decide_eq_decide.mpr (hlast.trans (by simp only [if_true]; omega))
  rw [htick, tmr0Tick_whole, hticks, hprescaler, countedOn, htmr0, hover, raiseIf_t0if]

/-- `n + 1` periods counted from `p` are one and then `n` from the next count, the prescaler being 8 bits. -/
theorem periods_succ (p n : Nat) {r : Nat} (hr : 0 < r) (hdvd : r ∣ 256) :
    (p % r + (n + 1)) / r = (p % r + 1) / r + ((p + 1) % 256 % r + n) / r := by
  have hsum : p % r + (n + 1) = (p + 1) % r + n + r * ((p % r + 1) / r) := by
    have := Nat.div_add_mod (p % r + 1) r
    rw [Nat.mod_add_mod] at this
    omega
  rw [Nat.mod_mod_of_dvd _ hdvd, hsum, Nat.add_mul_div_left _ _ hr, Nat.add_comm]

theorem ticksCounted_succ (n : Nat) (s : State) (k : Nat) :
    ticksCounted (n + 1) s = ticksCounted 1 s + ticksCounted n (countedOn k (prescalerAfter 1 s) s) := by
  cases hpsa : s.option.getLsbD 3
  · have h := periods_succ s.prescaler.toNat n (prescaleRatio_pos s) (prescaleRatio_dvd s)
    simpa [-BitVec.getLsbD_eq_getElem, ticksCounted, prescalerAfter, countedOn, prescaleRatio, hpsa] using h
  · simp [-BitVec.getLsbD_eq_getElem, ticksCounted, countedOn, hpsa, Nat.add_comm]

theorem prescalerAfter_succ (n : Nat) (s : State) (k : Nat) :
    prescalerAfter (n + 1) s = prescalerAfter n (countedOn k (prescalerAfter 1 s) s) := by
  cases hpsa : s.option.getLsbD 3
  · apply BitVec.eq_of_toNat_eq
    simp [-BitVec.getLsbD_eq_getElem, prescalerAfter, countedOn, hpsa]
    omega
  · simp [-BitVec.getLsbD_eq_getElem, prescalerAfter, countedOn, hpsa]

/-- `n` cycles are one count of all their ticks. -/
theorem tmr0Cycles_counts (n : Nat) : ∀ s : State, s.option.getLsbD 5 = false → s.tmr0Hold = .none →
    tmr0Cycles n s = countedOn (ticksCounted n s) (prescalerAfter n s) s := by
  induction n with
  | zero =>
    intro s _ _
    have hticks : ticksCounted 0 s = 0 := by
      rw [ticksCounted, Nat.add_zero, Nat.div_eq_of_lt (Nat.mod_lt _ (prescaleRatio_pos s)), ite_self]
    have hprescaler : prescalerAfter 0 s = s.prescaler := by
      rw [prescalerAfter, ofNat_toNat_add, BitVec.add_zero, ite_self]
    rw [hticks, hprescaler, countedOn_zero]
    rfl
  | succ n ih =>
    intro s hclock hhold
    rw [tmr0Cycles, tmr0Cycle_counts hclock hhold]
    rw [ih (countedOn (ticksCounted 1 s) (prescalerAfter 1 s) s) hclock hhold, countedOn_countedOn,
      ← ticksCounted_succ, ← prescalerAfter_succ]

/-- Settles O47: the closed form of n cycles, by induction on n. -/
theorem exactTimerCounts : Obligations.ExactTimerCounts :=
  fun n s hclock hhold => tmr0Cycles_counts n s hclock hhold

/-! ### Timer0 beside an instruction -/

/-- In the `exact` model an instruction that did not write TMR0 is charged its cycles (R196). -/
theorem timer0After_exact (hm : t.cfg.tmr0Model = .exact) (hw : t.tmr0Hold ≠ .written) :
    timer0After s t = tmr0Cycles (t.cycles - s.cycles) t := by
  simp only [timer0After, hm, if_neg hw]

/-- In the `exact` model the cycles of an instruction that wrote TMR0 are lost to the write (R197). -/
theorem timer0After_written (hm : t.cfg.tmr0Model = .exact) (hw : t.tmr0Hold = .written) :
    timer0After s t = { t with tmr0Hold := .two } := by
  simp only [timer0After, hm, if_pos hw]

/-- Settles O48: the parameters are those before the instruction, so the charge is by the model they name. -/
theorem timerTicksPerInstruction : Obligations.TimerTicksPerInstruction := by
  intro i s u t hb ha hd hi ht
  have hstep : step s = .next (timer0After { u with holdOff := false } t) := by
    rw [step_decoded hb ha hd hi, ht, andThen_of_next]
  have hcfg : t.cfg = u.cfg := (exec_sameProgram ht).2
  rw [hstep]
  refine ⟨fun hm => ?_, fun hm hw => ?_⟩
  · rw [timer0After_free (by rw [hcfg, hm])]
  · rw [timer0After_exact (by rw [hcfg, hm]) hw]

/-! ### A write of TMR0 -/

/-- Timer0's inhibit after a write of TMR0 (R197). -/
def holdAfterWrite (s : State) : TmrHold := if s.cfg.tmr0Model = .exact then .written else s.tmr0Hold

/-- A form that writes TMR0 as a whole next state (R197). -/
theorem exec_toFile_tmr0 (op : FileOp) {f : Nat} (hl : s.loc (ea s f) = .tmr0) :
    exec (op.toFile f) s = .next (onBy (op.moves s s.tmr0) { s with
      tmr0 := op.value s s.tmr0
      prescaler := if s.option.getLsbD 3 then s.prescaler else 0
      status := op.statusAfter s s.tmr0
      tmr0Hold := holdAfterWrite s }) := by
  have hr : afterReading op s (ea s f) = s := afterReading_of_ne_portb (by simp [hl])
  rw [fileOpIntoAnyRegister op f s (by simp [hl]) (by simp [hl]), dataRead_tmr0 hl, hr, dataWrite_tmr0 hl,
    andThen_of_next]
  rfl

/-- No increment while inhibited; the inhibit runs down (R197). -/
theorem tmr0Cycle_inhibited (h : s.tmr0Hold ≠ .none) :
    (tmr0Cycle s).tmr0 = s.tmr0 ∧ (tmr0Cycle s).tmr0Hold = s.tmr0Hold.next := by
  have hticks : tickCounts s = false := by simp [tickCounts, h]
  rw [tmr0Cycle, tmr0Tick_whole, hticks]
  split <;> exact ⟨rfl, rfl⟩

/-- The two cycles after a write leave TMR0 alone (R197). -/
theorem tmr0Cycles_two_inhibited (h : s.tmr0Hold = .two) : (tmr0Cycles 2 s).tmr0 = s.tmr0 := by
  obtain ⟨first, hold⟩ := tmr0Cycle_inhibited (s := s) (by simp [h])
  rw [h] at hold
  obtain ⟨second, -⟩ := tmr0Cycle_inhibited (s := tmr0Cycle s) (by simp [hold, TmrHold.next])
  exact second.trans first

/-- Settles O49: the write marks the inhibit, which loses the instruction's own cycles and the next two.
(`tmr0Write` itself is the model's operation.) -/
theorem Statements.tmr0Write : Obligations.Tmr0Write := by
  intro op f s hl
  have hexec := exec_toFile_tmr0 op hl
  refine ⟨holdAfterWrite s, hexec, fun hm => ?_, fun hm t ht => ?_⟩
  · rw [holdAfterWrite, if_neg (by rw [hm]; decide)]
  · rw [hexec] at ht
    cases ht
    rw [timer0After_written]
    · exact ⟨rfl, rfl, tmr0Cycles_two_inhibited rfl⟩
    · exact hm
    · exact if_pos hm

/-! ### The free agent -/

/-- Settles O50: the two branches of the free agent's move. -/
theorem freeTimerMoves : Obligations.FreeTimerMoves := by
  refine fun s n p => ⟨fun hm ha => ?_, fun h => ?_⟩
  · rw [applyEvent, tmr0Free, if_pos ⟨hm, ha⟩, ← ofNat_toNat_add, raiseIf_t0if]
    rfl
  · rw [applyEvent, tmr0Free, if_neg]
    rintro ⟨hm, ha⟩
    rcases h with h | h
    · exact absurd (hm.symm.trans h) (by decide)
    · exact absurd (ha.symm.trans h) (by decide)

end Sys2Proof.Proofs

/-! The pins: their levels, a sampling, the boundary, and the change mismatch of PORTB (R181, R216 to R219). -/

namespace Sys2Proof.Proofs

open Sys2Proof.Machine Sys2Proof.Claims

variable {s t u : State} {v : Byte}

/-! ### The levels -/

/-- A pin of PORTA drives its latch, but RA4 only a 0 (R216). -/
theorem getLsbD_pinA {i : Nat} (hi : i < 5) (s : State) : (pinA s).getLsbD i =
    if s.trisa.getLsbD i = false ∧ ¬(i = 4 ∧ s.latchA.getLsbD 4 = true) then s.latchA.getLsbD i
    else s.envA.getLsbD i := by
  have hdrain : (0b10000#5).getLsbD i = decide (i = 4) := by interval_cases i <;> rfl
  by_cases h4 : i = 4
  · subst h4
    cases htris : s.trisa.getLsbD 4 <;> cases hlatch : s.latchA.getLsbD 4 <;>
      simp [-BitVec.getLsbD_eq_getElem, pinA, htris, hlatch, hdrain]
  · cases htris : s.trisa.getLsbD i <;>
      simp [-BitVec.getLsbD_eq_getElem, pinA, htris, hdrain, h4, hi]

theorem getLsbD_pinB {i : Nat} (hi : i < 8) (s : State) : (pinB s).getLsbD i =
    if s.trisb.getLsbD i = false then s.latchB.getLsbD i
    else if s.option.getLsbD 7 = false ∧ s.undrivenB.getLsbD i = true then true
    else s.envB.getLsbD i := by
  have hsupplied : (suppliedB s).getLsbD i =
      if s.option.getLsbD 7 = false ∧ s.undrivenB.getLsbD i = true then true else s.envB.getLsbD i := by
    cases hpull : s.option.getLsbD 7 <;> cases hundriven : s.undrivenB.getLsbD i <;>
      simp [-BitVec.getLsbD_eq_getElem, suppliedB, State.pullUps, hpull, hundriven]
  rw [← hsupplied]
  cases htris : s.trisb.getLsbD i <;> simp [-BitVec.getLsbD_eq_getElem, pinB, htris, hi]

/-- Settles O51: PORTA and PORTB, pin by pin. -/
theorem pinLevels : Obligations.PinLevels :=
  fun s _ => ⟨fun hi => getLsbD_pinA hi s, fun hi => getLsbD_pinB hi s⟩

/-! ### A sampling -/

/-- A flag raised by its event, the others kept (R182). -/
theorem getLsbD_raiseIf (c : Bool) {i : Nat} (hi : i < 8) (v : Byte) (j : Nat) :
    (raiseIf c i v).getLsbD j = (v.getLsbD j || (c && decide (j = i))) := by
  cases c with
  | false => simp [raiseIf]
  | true =>
    by_cases hj : j = i
    · subst hj
      rw [raiseIf, if_pos rfl, getLsbD_putBit_self _ _ hi]
      simp
    · rw [raiseIf, if_pos rfl, getLsbD_putBit_ne _ _ hj]
      simp [hj]

/-- A mismatch on an input among RB7 to RB4 (R219). -/
theorem portChange_iff (s : State) : s.portChange = true ↔
    ∃ i, i < 4 ∧ s.trisb.getLsbD (4 + i) = true ∧ (pinB s).getLsbD (4 + i) ≠ s.lastRB.getLsbD i := by
  rw [State.portChange, decide_eq_true_eq, Ne, BitVec.eq_of_getLsbD_eq_iff]
  simp only [not_forall, exists_prop]
  refine exists_congr fun i => and_congr_right fun hi => ?_
  rw [BitVec.ofNat_eq_ofNat, BitVec.getLsbD_zero, Bool.not_eq_false, BitVec.getLsbD_and, BitVec.getLsbD_xor,
    BitVec.getLsbD_extractLsb', BitVec.getLsbD_extractLsb', decide_eq_true hi, Bool.true_and, Bool.true_and,
    Bool.and_eq_true, and_comm, bne_iff_ne]

/-- A sampling is a tick of Timer0 (R199). -/
def pinTicks (s : State) : Bool :=
  decide (s.cfg.tmr0Model = .exact) && s.t0cs && s.t0ckiEdge && !s.asleep

/-- INTCON after a sampling: RBIF, INTF, and T0IF where the tick overflows TMR0. -/
def sampledIntcon (s : State) : Byte :=
  raiseIf (pinTicks s && tickCounts s && decide (s.tmr0 = 0xFF)) 2
    (raiseIf s.portChange 0 (raiseIf s.intEdge 1 s.intcon))

/-- `s` with INTF, RBIF and the sampled levels, before the tick of a counter (R218, R219). -/
def flagsSampled (s : State) : State := { s with
  intcon := raiseIf s.portChange 0 (raiseIf s.intEdge 1 s.intcon)
  prevRB0 := (pinB s).getLsbD 0
  prevT0cki := (pinA s).getLsbD 4 }

/-- A sampling as a whole next state (R199, R218, R219). -/
theorem samplePins_whole (s : State) : samplePins s = { s with
    intcon := sampledIntcon s
    prevRB0 := (pinB s).getLsbD 0
    prevT0cki := (pinA s).getLsbD 4
    tmr0 := if pinTicks s && tickCounts s then s.tmr0 + 1 else s.tmr0
    prescaler := if pinTicks s && !s.option.getLsbD 3 then s.prescaler + 1 else s.prescaler } := by
  have hsplit : samplePins s =
      if pinTicks s then tmr0Tick (flagsSampled s) else flagsSampled s := rfl
  have hcounts : tickCounts (flagsSampled s) = tickCounts s := rfl
  rw [hsplit, tmr0Tick_whole, hcounts, sampledIntcon]
  cases pinTicks s with
  | false => rfl
  | true =>
    have hscaled : (if s.option.getLsbD 3 then s.prescaler else s.prescaler + 1) =
        if !s.option.getLsbD 3 then s.prescaler + 1 else s.prescaler := by
      cases s.option.getLsbD 3 <;> rfl
    simp only [Bool.true_and, if_true]
    rw [← hscaled]
    rfl

/-- Each flag is raised by its own event: INTF is bit 1, RBIF bit 0, T0IF bit 2 (R182). -/
theorem getLsbD_sampledIntcon (s : State) (j : Nat) : (sampledIntcon s).getLsbD j =
    (s.intcon.getLsbD j || (s.intEdge && decide (j = 1)) || (s.portChange && decide (j = 0)) ||
      (pinTicks s && tickCounts s && decide (s.tmr0 = 0xFF) && decide (j = 2))) := by
  rw [sampledIntcon, getLsbD_raiseIf _ (by decide), getLsbD_raiseIf _ (by decide),
    getLsbD_raiseIf _ (by decide)]

/-! ### The boundary -/

/-- A boundary with an entry queued: a sampling, the entry's events in order, and what it offers to take the
step over (R181). -/
theorem atBoundary_queued {b : Boundary} {rest : List Boundary} (h : s.inputs = b :: rest) :
    (atBoundary s).1 = b.events.foldl applyEvent (samplePins { s with inputs := rest }) ∧
    (b.takeover = none → (atBoundary s).2 = none) ∧
    (∀ d, b.takeover = some (.powerOn d) → (atBoundary s).2 = some (.powerOn d)) ∧
    ∀ d, b.takeover = some (.mclr d) → (atBoundary s).2 = some (.mclr d) := by
  simp only [atBoundary, h]
  refine ⟨trivial, fun hb => ?_, fun d hb => ?_, fun d hb => ?_⟩ <;> rw [hb]

/-- The flags after a sampling: each its event's or kept, and no other bit of INTCON changes. -/
theorem samplePins_flags (s : State) :
    ((samplePins s).intcon.getLsbD 1 = true ↔ s.intcon.getLsbD 1 = true ∨ s.intEdge = true) ∧
    ((samplePins s).intcon.getLsbD 0 = true ↔ s.intcon.getLsbD 0 = true ∨ s.portChange = true) ∧
    ((samplePins s).intcon.getLsbD 2 = true ↔ s.intcon.getLsbD 2 = true ∨
      ((pinTicks s && tickCounts s) = true ∧ s.tmr0 = 0xFF)) ∧
    ∀ j, 3 ≤ j → (samplePins s).intcon.getLsbD j = s.intcon.getLsbD j := by
  have hintcon : (samplePins s).intcon = sampledIntcon s := by rw [samplePins_whole]
  rw [hintcon]
  refine ⟨?_, ?_, ?_, fun j hj => ?_⟩ <;> rw [getLsbD_sampledIntcon]
  · simp [-BitVec.getLsbD_eq_getElem]
  · simp [-BitVec.getLsbD_eq_getElem]
  · simp [-BitVec.getLsbD_eq_getElem, and_assoc]
  · simp [-BitVec.getLsbD_eq_getElem, show j ≠ 0 by omega, show j ≠ 1 by omega, show j ≠ 2 by omega]

/-- Settles O52: the flags and the whole state after a sampling, then the boundary and its events. -/
theorem pinFlags : Obligations.PinFlags := by
  refine ⟨?_, fun _ => atBoundary_nil, fun _ _ _ => atBoundary_queued,
    fun s => ⟨fun _ _ _ => rfl, fun _ _ => rfl⟩⟩
  intro s t rb0 edge change ra4 clocks ticks scaled up
  have hup : up = (pinTicks s && tickCounts s) := by
    simp only [up, scaled, Bool.not_not, Bool.and_assoc]
    rfl
  obtain ⟨hedge, hchange, hoverflow, hothers⟩ := samplePins_flags s
  rw [hup]
  refine ⟨hedge, hchange.trans (or_congr_right (portChange_iff s)), hoverflow, hothers, ?_⟩
  have hintcon : t.intcon = sampledIntcon s := congrArg State.intcon (samplePins_whole s)
  rw [hintcon]
  exact samplePins_whole s

/-! ### The change mismatch -/

/-- Pins and change comparison depend on neither W, STATUS nor the PC: with RB<7:4> latched no mismatch is
left (R219). -/
theorem portChange_of_latched (hpins : pinB t = pinB s) (hlast : t.lastRB = (pinB s).extractLsb' 4 4) :
    t.portChange = false := by
  simp [State.portChange, hpins, hlast]

/-- A read of PORTB latches RB<7:4> (R72). -/
theorem lastRBAfterRead_portb {a : DataAddr} (hl : s.loc a = .portb) :
    lastRBAfterRead s a = (pinB s).extractLsb' 4 4 := if_pos hl

theorem afterReading_portb {op : FileOp} {a : DataAddr} (hl : s.loc a = .portb) :
    (afterReading op s a).lastRB = if op.reads then (pinB s).extractLsb' 4 4 else s.lastRB := by
  rw [afterReading]
  split
  · exact lastRBAfterRead_portb hl
  · rfl

theorem testBit_portb {f : Nat} (hl : s.loc (ea s f) = .portb) (b : Nat) (k : Bool) :
    ∃ t, testBit f b k s = .next t ∧ t.portChange = false := by
  have hlast : (afterRead (ea s f) s).lastRB = (pinB s).extractLsb' 4 4 := lastRBAfterRead_portb hl
  rcases testBit_cases f b k s with ⟨-, h⟩ | ⟨-, h⟩ <;>
    exact ⟨_, h, portChange_of_latched (s := s) rfl hlast⟩

/-- Settles O53: the reading forms latch RB<7:4>; CLRF and MOVWF leave what was latched. -/
theorem portbReadEndsMismatch : Obligations.PortbReadEndsMismatch := by
  refine fun f b s hl => ⟨testBit_portb hl b false, testBit_portb hl b true, fun op i hi => ?_, fun op => ?_⟩
  · exact ⟨_, exec_toW_next hi s, portChange_of_latched (s := s) rfl (lastRBAfterRead_portb hl)⟩
  · have hafter : (afterReading op s (ea s f)).loc (ea s f) = .portb := by rw [afterReading_loc, hl]
    rw [fileOpIntoAnyRegister op f s (by simp [hl]) (by simp [hl]), dataWrite_portb hafter, andThen_of_next]
    exact ⟨_, rfl, afterReading_portb hl⟩

end Sys2Proof.Proofs

/-! The resets: what each forces, what a warm one keeps, what a power-on draws (R230 to R240), and the state the
model starts from. -/

namespace Sys2Proof.Proofs

open Sys2Proof.Machine Sys2Proof.Claims

variable {s u : State}

/-! ### The start state -/

/-- The start state is a reset's: forcing R231 on it again changes nothing. -/
theorem resetCommon_reset : resetCommon 0b11000 false false 0 State.reset = State.reset := rfl

theorem reset_memoriesOk : State.reset.MemoriesOk :=
  ⟨⟨rfl, rfl⟩, ⟨rfl, rfl⟩, ⟨rfl, rfl⟩, ⟨rfl, rfl⟩⟩

theorem reset_inv : State.reset.Inv :=
  resetCommon_reset ▸ resetCommon_inv reset_memoriesOk rfl 0b11000 false false 0

/-- Settles O60: every reset gives the invariant, and the start state is one's. -/
theorem invHoldsAtReset : Obligations.InvHoldsAtReset := reset_inv

theorem resetForces_reset : ResetForces State.reset :=
  resetCommon_reset ▸ resetForces_resetCommon 0b11000 false false 0 State.reset

/-! ### A reset takes the step over -/

theorem step_of_powerOn {d : PowerOnDraw} (hb : atBoundary s = (u, some (.powerOn d))) :
    step s = .next (powerOnReset d u) := by
  rw [step, runStep, hb]

theorem step_of_mclr {d : ResetDraw} (hb : atBoundary s = (u, some (.mclr d))) :
    step s = .next (mclrReset d u) := by
  rw [step, runStep, hb]

/-- The draws of a power-on reach nothing that R231 forces. -/
theorem resetForces_powerOnReset (d : PowerOnDraw) (u : State) : ResetForces (powerOnReset d u) :=
  resetForces_resetCommon (0b11#2 ++ d.flags) d.rbif d.wrerr d.sp (abandonWrite d.eeByte u)

theorem resetForces_mclrReset (d : ResetDraw) (u : State) : ResetForces (mclrReset d u) :=
  resetForces_resetCommon _ _ _ _ _

/-- Whatever takes a boundary over is a reset, but for a time-out asleep (R202, R230). -/
theorem step_resets {k : Takeover} (hb : atBoundary s = (u, some k))
    (hrun : ∀ d, k = .wdtTimeout d → u.asleep = false) : ∃ t, step s = .next t ∧ ResetForces t := by
  cases k with
  | powerOn d => exact ⟨_, step_of_powerOn hb, resetForces_powerOnReset d u⟩
  | mclr d => exact ⟨_, step_of_mclr hb, resetForces_mclrReset d u⟩
  | wdtTimeout d =>
    obtain ⟨-, -, hreset, -⟩ := wdtTimeout_effect d u
    exact ⟨_, step_of_wdtTimeout hb, hreset (hrun d rfl)⟩

/-- The agents neither wake the CPU nor touch what R201 and R202 ask of a time-out. -/
theorem atBoundary_keeps_watchdog (s : State) :
    (atBoundary s).1.asleep = s.asleep ∧ (atBoundary s).1.wdtMayFire = s.wdtMayFire := by
  obtain ⟨q, a, b, c, i, x, p, r, k, e, f, g, d, h⟩ := atBoundary_agents s
  rw [h]
  exact ⟨rfl, rfl⟩

/-- Settles O44: each kind of takeover forces R231, and the boundary passes the queued ones on. -/
theorem everyResetForces : Obligations.EveryResetForces := by
  refine ⟨resetForces_reset, fun s u k => step_resets, fun s b rest hs => ?_⟩
  obtain ⟨-, -, hpowerOn, hmclr⟩ := atBoundary_queued hs
  refine ⟨fun d hb => step_resets (Prod.ext rfl (hpowerOn d hb)) nofun,
    fun d hb => step_resets (Prod.ext rfl (hmclr d hb)) nofun, fun d hb hawake hen hmin => ?_⟩
  obtain ⟨hasleep, hmay⟩ := atBoundary_keeps_watchdog s
  have boundary := atBoundary_wdtTimeout hs hb
  rw [hmay, if_pos ((wdtMayFire_iff s).mpr ⟨hen, hmin⟩)] at boundary
  exact step_resets boundary fun _ _ => hasleep.trans hawake

/-! ### The write cut short -/

/-- An abandoned write leaves one open byte, and no write in flight (R239). -/
theorem abandonWrite_whole (x : Byte) (hm : Memory.wf s.eeprom = true) : ∃ m,
    (s.inFlight = none → m = s.eeprom) ∧
    (∀ e, s.inFlight = some e → OnlyCell s.eeprom m e.addr.toNat x) ∧
    abandonWrite x s = { s with eeprom := m, inFlight := none } := by
  rcases abandonWrite_cases x s with ⟨hn, h⟩ | ⟨e, he, h⟩
  · exact ⟨s.eeprom, fun _ => rfl, by simp [hn], by rw [h, ← hn]⟩
  · refine ⟨_, by simp [he], fun e' he' => ?_, h⟩
    obtain rfl := Option.some.inj (he.symm.trans he')
    exact onlyCell_write hm _ x

/-! ### The bits a warm reset keeps -/

/-- RBIF alone is left of INTCON (R233). -/
theorem putBit_rbif (v : Byte) : putBit 0 0 (v.getLsbD 0) = v &&& 0x01 := by
  apply BitVec.eq_of_getLsbD_eq
  intro j hj
  rw [getLsbD_putBit]
  interval_cases j <;> simp

/-- WRERR alone is left of EECON1, and rises for a write cut short (R239). -/
theorem putBit_wrerrAtReset (s : State) : putBit (0 : BitVec 5) 3 s.wrerrAtReset =
    if s.wr = true ∨ s.eecon1.getLsbD 3 = true then 0b01000 else 0b00000 := by
  have hwrerr : (s.wr = true ∨ s.eecon1.getLsbD 3 = true) ↔ s.wrerrAtReset = true :=
    (Bool.or_eq_true _ _).symm.to_iff
  simp only [hwrerr]
  cases s.wrerrAtReset <;> rfl

/-- TO, PD and the flags kept (R233, R235). -/
theorem setWidth_status (v : Byte) : (v.setWidth 5).setWidth 8 = v &&& 0x1F := by
  apply BitVec.eq_of_getLsbD_eq
  intro j hj
  interval_cases j <;> simp

/-- TO cleared, PD and the flags kept (R235, D15). -/
theorem setWidth_status_timedOut (v : Byte) :
    (putBit (v.setWidth 5) 4 false).setWidth 8 = v &&& 0x0F := by
  apply BitVec.eq_of_getLsbD_eq
  intro j hj
  rw [BitVec.getLsbD_setWidth, getLsbD_putBit]
  interval_cases j <;> simp

/-- Settles O45: MCLR and the time-out differ in the bits of STATUS only. -/
theorem warmResets : Obligations.WarmResets := by
  intro s u d hm
  obtain ⟨m, hidle, hcut, habandon⟩ := abandonWrite_whole d.eeByte hm
  refine ⟨m, hidle, hcut, fun hb => ?_, fun hb ha => ?_⟩
  · rw [step_of_mclr hb, mclrReset, habandon, resetCommon, setWidth_status, putBit_rbif, putBit_wrerrAtReset]
  · rw [step_of_wdtTimeout hb, wdtTimeout_running ha, wdtReset, habandon, resetCommon,
      setWidth_status_timedOut, putBit_rbif, putBit_wrerrAtReset]

/-! ### The memories a power-on draws -/

/-- Filling puts the list from `a` up and leaves every other address alone. -/
theorem read_fill {n : Nat} (vs : List (BitVec n)) {m : Memory n} (hm : Memory.wf m = true) (a x : Nat) :
    Memory.read (Memory.fill m a vs) x =
      if a ≤ x then vs[x - a]?.getD (Memory.read m x) else Memory.read m x := by
  induction vs generalizing m a with
  | nil => simp [Memory.fill]
  | cons v vs ih =>
    rw [Memory.fill, ih (Memory.wf_write hm a v), Memory.read_write hm]
    rcases Nat.lt_trichotomy x a with hx | rfl | hx
    · simp [show ¬ a + 1 ≤ x by omega, show ¬ a ≤ x by omega, show a ≠ x by omega]
    · simp
    · have hindex : x - a = (x - (a + 1)) + 1 := by omega
      simp [show a + 1 ≤ x by omega, show a ≤ x by omega, show a ≠ x by omega, hindex]

/-- At most `k` drawn values from `a` up; all else reads 0 (R46). -/
theorem read_fill_take {n : Nat} (vs : List (BitVec n)) (k a x : Nat) :
    Memory.read (Memory.fill [] a (vs.take k)) x =
      if a ≤ x ∧ x < a + k then vs.getD (x - a) 0 else 0 := by
  rw [read_fill _ rfl, Memory.read_nil, List.getElem?_take]
  by_cases ha : a ≤ x
  · have hlt : x - a < k ↔ x < a + k := by omega
    by_cases hk : x < a + k <;> simp [ha, hk, hlt]
  · simp [ha]

/-- The GPRs after a power-on, by the last address the device implements (R11, R46). -/
theorem read_drawnGprs (dev : Device) (gpr : List Byte) (a : Nat) :
    Memory.read (Memory.fill [] 0x0C (gpr.take dev.gprBytes)) a =
      if 0x0C ≤ a ∧ a ≤ dev.gprLast then gpr.getD (a - 0x0C) 0 else 0 := by
  have hlast : a ≤ dev.gprLast ↔ a < 0x0C + dev.gprBytes := by
    rw [Device.gprLast]
    omega
  simp only [read_fill_take, hlast]

theorem read_drawnStack (stack : List ProgAddr) (k : Nat) :
    Memory.read (Memory.fill [] 0 (stack.take 8)) k = if k < 8 then stack.getD k 0 else 0 := by
  simpa using read_fill_take stack 8 0 k

/-! ### Power-on -/

/-- TO = PD = 1 above the drawn flags (R232, R46). -/
theorem setWidth_powerOn_status (flags : BitVec 3) :
    (0b11#2 ++ flags).setWidth 8 = BitVec.ofNat 8 (0x18 + flags.toNat) := by
  revert flags
  decide

/-- Settles O46: the common reset after the cut write, then the draws. (`powerOnReset` itself is the model's
operation.) -/
theorem Statements.powerOnReset : Obligations.PowerOnReset := by
  refine ⟨rfl, fun s u d hb hm => ?_⟩
  obtain ⟨m, hidle, hcut, habandon⟩ := abandonWrite_whole d.eeByte hm
  refine ⟨_, _, m, read_drawnGprs u.cfg.device d.gpr, read_drawnStack d.stack, hidle, hcut, ?_⟩
  have hrbif : putBit (0 : Byte) 0 d.rbif = if d.rbif then 0x01 else 0x00 := by cases d.rbif <;> rfl
  have hwrerr : putBit (0 : BitVec 5) 3 d.wrerr = if d.wrerr then 0b01000 else 0b00000 := by
    cases d.wrerr <;> rfl
  rw [step_of_powerOn hb, Machine.powerOnReset, habandon, resetCommon, setWidth_powerOn_status, hrbif, hwrerr]

end Sys2Proof.Proofs

/-! TRIS 7 (R165), beside OPTION, TRIS 5 and TRIS 6: the same write, to an address that names no register. -/

namespace Sys2Proof.Proofs

open Sys2Proof.Machine Sys2Proof.Claims

/-- Settles O29: 87h is unimplemented on both devices (R63), so the write completes with no effect and the
advance is left. -/
theorem tris7IsNop : Obligations.Tris7IsNop := by
  intro s
  have hnone : s.loc 0x87 = .unimplemented := rfl
  have hwrite : dataWrite 0x87 s.w true s = .next s := dataWrite_unimplemented hnone
  exact andThen_dataWrite_advance hwrite

end Sys2Proof.Proofs
